-- ==== Sys2Proof/Word.lean ====
section
/-! DEFINITION. The word types of the block: the 8-bit register (spec/00_scope.md R15) and the 32-bit
byte address of the register address space (R9, R70). -/

namespace Sys2Proof

/-- One 8-bit register, and the unit of every access (R15, R80). -/
abbrev Byte := BitVec 8

/-- A byte address of the register address space (R70: this spec takes 32 bits). -/
abbrev Addr := BitVec 32

end Sys2Proof
end

