-- ==== Sys2Proof/Config.lean ====
section
/-! DEFINITION. What an implementation fixes (spec/00_scope.md R8 to R17), the names of the two
controller instances and of the register offsets, and the free values: constants without a body, which
nothing in Lean can evaluate. -/

namespace Sys2Proof

/-- The controller instances. R8: `NUM_BUSES = 2`, bus index 0 or 1. -/
inductive BusId where
  | bus0
  | bus1
deriving DecidableEq, Repr

/-- The six populated offsets of a register block (R31, R70). Offsets 0x3 and 0x4 each carry one
register on the write side and another on the read side. -/
inductive RegOffset where
  /-- 0x0 -/
  | prerLo
  /-- 0x1 -/
  | prerHi
  /-- 0x2 -/
  | ctr
  /-- 0x3: TXR on a write, RXR on a read -/
  | txrRxr
  /-- 0x4: CR on a write, SR on a read -/
  | crSr
  /-- 0x7 -/
  | sladr
deriving DecidableEq, Repr

/-- One item of an access trace (R21), with the base address it was made at (R71): the trace item
`R off -> v` or `W off v`. -/
inductive Access where
  | read (base : Addr) (off : RegOffset) (v : Byte)
  | write (base : Addr) (off : RegOffset) (v : Byte)
deriving DecidableEq, Repr

/-- The base address an access was made at. -/
def Access.base : Access → Addr
  | .read a _ _ => a
  | .write a _ _ => a

/-- The OPEN parameters (R9, R11, R13, R14, R17). They never change (R30). -/
structure Params where
  /-- `BASE[0]` (R9) -/
  base0 : Addr
  /-- `BASE[1]` (R9) -/
  base1 : Addr
  /-- `INPUT_CLOCK_HZ` (R11) -/
  inputClockHz : Nat
  /-- `BUDGET_BUSY`, a number of status reads (R13) -/
  budgetBusy : Nat
  /-- `BUDGET_XFER`, a number of status reads (R14) -/
  budgetXfer : Nat
  /-- `MAX_BLOCK`, bytes (R17) -/
  maxBlock : Nat
deriving DecidableEq, Repr

/-- `CLOCK_DIVISOR` (R12). -/
def clockDivisor : Nat := 5

/-- `DEFAULT_BUS = 0` (R10). -/
def defaultBus : BusId := .bus0

/-- What the spec asks of the parameters: both eight-byte windows exist (R71) and do not overlap, which
also makes the bases differ (R9); the input clock is positive (R11); the budgets are below 2^32 (R44).
The last clause is the model's: the buffer holds the one byte `probe` reads (DESIGN CHOICE, log 9). -/
abbrev Params.Valid (p : Params) : Prop :=
  p.base0.toNat + 8 ≤ 2 ^ 32 ∧ p.base1.toNat + 8 ≤ 2 ^ 32 ∧
  (p.base0.toNat + 8 ≤ p.base1.toNat ∨ p.base1.toNat + 8 ≤ p.base0.toNat) ∧
  0 < p.inputClockHz ∧ p.budgetBusy < 2 ^ 32 ∧ p.budgetXfer < 2 ^ 32 ∧ 1 ≤ p.maxBlock

/-- Parameters that meet `Params.Valid`. The field defaults only show that the type has a member, so that
`Config.platform` can be declared without a body; no claim can see them. -/
structure Platform where
  params : Params :=
    { base0 := 0, base1 := 8, inputClockHz := 50000000
      budgetBusy := 1000000, budgetXfer := 10000000, maxBlock := 1 }
  valid : params.Valid := by decide
deriving Inhabited

namespace Config

/-- The parameters of the machine that comes out of reset: OPEN in the spec, so a free value (log 2). -/
opaque platform : Platform

/-- The environment oracle (R241): the byte answered to a read at an address, given the whole history of
accesses before it, where nothing scripts the answer (log 4). -/
opaque freeAnswer : List Access → Addr → Byte

/-- `OUT_INDEX` after a failed `currentBus` (R48, U14; log 6). -/
opaque freeIndex : Nat → Nat

/-- `OUT_BYTE` after a failed `readByte` (R48, U14; log 6). -/
opaque freeByte : Nat → Byte

/-- `DATA_BUF` after a failed block operation (R47, U14; log 6). -/
opaque freeBytes : Nat → List Byte

end Config

end Sys2Proof
end

