-- ==== Sys2Proof/Syntax.lean ====
section
/-! DEFINITION. The instructions: one constructor per row of spec/opcode_table.json (16 operation
requests of format REQ, 9 command bytes of format CR, 2 address-byte forms of format ADDR, 2 control
values of format CTR), and the encoded words they are read from. -/

namespace Sys2Proof

/-- Transfer Direction (R116): Write = 0, Read = 1. -/
inductive Direction where
  | write
  | read
deriving DecidableEq, Repr

/-- Acknowledge Expectation (R117). -/
inductive AckExpectation where
  | dontCare
  | requireAck
  | requireNack
deriving DecidableEq, Repr

/-- The rows of the opcode table. Operand widths are those of R16. Operands that a request can carry
with no meaning (R123: `ackExpectation` 3, `addressLength` above 4, an unassigned offset) are kept as the
request carries them, so that the refusal is the machine's. -/
inductive Instr where
  /-- op 0x0, R140 -/
  | selectBus (busIndex : Nat)
  /-- op 0x1, R141 -/
  | currentBus
  /-- op 0x2, the operation the spec names `initialize`, R220 -/
  | initController (requestedClockHz : Nat) (slaveAddress : Byte)
  /-- op 0x3, R192 -/
  | readBlock (chipAddress : BitVec 7) (registerAddress : BitVec 32) (addressLength length : Nat)
  /-- op 0x4, R193 -/
  | writeBlock (chipAddress : BitVec 7) (registerAddress : BitVec 32) (addressLength : Nat) (bytes : List Byte)
  /-- op 0x5, R194 -/
  | probe (chipAddress : BitVec 7)
  /-- op 0x6, R150 -/
  | readRegister (offset : Nat)
  /-- op 0x7, R151 -/
  | writeRegister (offset : Nat) (byte : Byte)
  /-- op 0x8, R160 -/
  | sendByte (value : Byte) (start stop : Bool)
  /-- op 0x9, R161 -/
  | sendStop
  /-- op 0xA, R162 -/
  | awaitBusNotBusy (timeoutBudget : Nat)
  /-- op 0xB, R163 -/
  | awaitTransferComplete (ackExpectation : BitVec 2) (timeoutBudget : Nat)
  /-- op 0xC, R165 -/
  | readByte (stop : Bool)
  /-- op 0xD, R166 -/
  | resetBus
  /-- op 0xE, R190 -/
  | startAddressed (chipAddress : BitVec 7) (isRead : Direction)
  /-- op 0xF, R191 -/
  | addressWithOffset (chipAddress : BitVec 7) (registerAddress : BitVec 32) (addressLength : Nat)
      (isRead : Direction)
  /-- CMD_WR 0x10, R107 -/
  | cmdWr
  /-- CMD_WR_START 0x90, R107 -/
  | cmdWrStart
  /-- CMD_WR_STOP 0x50, R107 -/
  | cmdWrStop
  /-- CMD_WR_START_STOP 0xD0, R107 -/
  | cmdWrStartStop
  /-- CMD_RD 0x20, R108 -/
  | cmdRd
  /-- CMD_RD_LAST 0x68, R108 -/
  | cmdRdLast
  /-- CMD_STOP 0x41, R109 -/
  | cmdStop
  /-- CMD_RESET_RD 0x28, R110 -/
  | cmdResetRd
  /-- CMD_IACK 0x01, R111 -/
  | cmdIack
  /-- ADDR_W aaaaaaa0, R105 -/
  | addrW (chipAddress : BitVec 7)
  /-- ADDR_R aaaaaaa1, R105 -/
  | addrR (chipAddress : BitVec 7)
  /-- CTR_DISABLE 0x00, R101 -/
  | ctrDisable
  /-- CTR_ENABLE 0x80, R101 -/
  | ctrEnable
deriving DecidableEq, Repr

/-- Format REQ (R115): the 4-bit operation code and every operand as a separate input of its own width.
An operation reads the operands it takes and ignores the rest. -/
structure Request where
  op : BitVec 4
  busIndex : Nat := 0
  requestedClockHz : Nat := 0
  slaveAddress : Byte := 0
  chipAddress : BitVec 7 := 0
  registerAddress : BitVec 32 := 0
  addressLength : Nat := 0
  length : Nat := 0
  bytes : List Byte := []
  offset : Nat := 0
  /-- `value` of `sendByte`, `byte` of `writeRegister` -/
  value : Byte := 0
  start : BitVec 1 := 0
  stop : BitVec 1 := 0
  isRead : BitVec 1 := 0
  ackExpectation : BitVec 2 := 0
  timeoutBudget : Nat := 0
deriving DecidableEq, Repr

/-- An encoded word together with the place it is presented at, which says how it is read (R100: the
formats share bit patterns and no mode bit tells them apart). -/
inductive Encoded where
  /-- Format REQ: a request of the host (R115). -/
  | req (r : Request)
  /-- Format CR: a byte for the command register, offset 0x4 (R102). -/
  | cr (b : Byte)
  /-- Format ADDR: an address byte for TXR, offset 0x3 (R105). -/
  | addr (b : Byte)
  /-- Format CTR: a byte for the control register, offset 0x2 (R101). -/
  | ctr (b : Byte)
  /-- Bits that fit none of the formats. -/
  | other (nbits w : Nat)
deriving DecidableEq, Repr

end Sys2Proof
end

