-- ==== Sys2Proof/WellFormed.lean ====
section
/-! DEFINITION. The checks an instruction's operands must pass whatever the state: R123 (a), (b) and (d).
The checks that depend on the parameters or the state, R123 (c), (e) and (f), are in Machine/Ops.lean and
the meanings. -/

namespace Sys2Proof

/-- The assigned offsets (R31, R122). -/
def offsetAssigned (offset : Nat) : Bool := [0x0, 0x1, 0x2, 0x3, 0x4, 0x7].contains offset

/-- `addressLength` is admitted in 0..4 (R16, R123 (b)). -/
def addressLengthOk (addressLength : Nat) : Bool := decide (addressLength ≤ 4)

/-- Well-formed operands: `ackExpectation` is one of the three values (R117, R123 (a)), `addressLength` is
at most 4 (R123 (b)), the offset is assigned (R123 (d)). -/
def wellFormed : Instr → Bool
  | .awaitTransferComplete e _ => e != 3#2
  | .readBlock _ _ n _ => addressLengthOk n
  | .writeBlock _ _ n _ => addressLengthOk n
  | .addressWithOffset _ _ n _ => addressLengthOk n
  | .readRegister off => offsetAssigned off
  | .writeRegister off _ => offsetAssigned off
  | .selectBus _ | .currentBus | .initController _ _ | .probe _ | .sendByte _ _ _ | .sendStop
  | .awaitBusNotBusy _ | .readByte _ | .resetBus | .startAddressed _ _
  | .cmdWr | .cmdWrStart | .cmdWrStop | .cmdWrStartStop | .cmdRd | .cmdRdLast | .cmdStop | .cmdResetRd
  | .cmdIack | .addrW _ | .addrR _ | .ctrDisable | .ctrEnable => true

end Sys2Proof
end

