-- ==== Sys2Proof/Decode.lean ====
section
/-! DEFINITION. The decoder, total on every encoded word and rejecting by name, and the encoder, both
written from the tables of spec/30_encoding.md (R101, R105, R112, R115 to R117). -/

namespace Sys2Proof

/-- Why a word stands for no row of the opcode table. -/
inductive DecodeError where
  /-- A 4-bit code with no operation. All sixteen are assigned (R115), so no word decodes to this. -/
  | unassignedOp (op : BitVec 4)
  /-- A command byte outside the closed set of R112 (R124). -/
  | unlistedCommand (b : Byte)
  /-- A control value other than the two the sequencer writes (R119, R225). -/
  | unlistedControl (b : Byte)
  /-- Bits that fit none of the five formats (R100). -/
  | noFormat (nbits w : Nat)
deriving DecidableEq, Repr

/-- R116: the direction bit. -/
def directionOfBit (b : BitVec 1) : Direction := if b = 1#1 then .read else .write

/-- R116: Write = 0, Read = 1. -/
def directionBit : Direction → BitVec 1
  | .write => 0#1
  | .read => 1#1

/-- A one-bit operand as a truth value (R16). -/
def flagOfBit (b : BitVec 1) : Bool := b == 1#1

/-- A truth value as a one-bit operand (R16). -/
def flagBit (b : Bool) : BitVec 1 := if b then 1#1 else 0#1

/-- Format REQ (R115): the operation the 4-bit code selects, with the operands it takes. -/
def decodeReq (r : Request) : Except DecodeError Instr :=
  match r.op.toNat with
  | 0x0 => .ok (.selectBus r.busIndex)
  | 0x1 => .ok .currentBus
  | 0x2 => .ok (.initController r.requestedClockHz r.slaveAddress)
  | 0x3 => .ok (.readBlock r.chipAddress r.registerAddress r.addressLength r.length)
  | 0x4 => .ok (.writeBlock r.chipAddress r.registerAddress r.addressLength r.bytes)
  | 0x5 => .ok (.probe r.chipAddress)
  | 0x6 => .ok (.readRegister r.offset)
  | 0x7 => .ok (.writeRegister r.offset r.value)
  | 0x8 => .ok (.sendByte r.value (flagOfBit r.start) (flagOfBit r.stop))
  | 0x9 => .ok .sendStop
  | 0xA => .ok (.awaitBusNotBusy r.timeoutBudget)
  | 0xB => .ok (.awaitTransferComplete r.ackExpectation r.timeoutBudget)
  | 0xC => .ok (.readByte (flagOfBit r.stop))
  | 0xD => .ok .resetBus
  | 0xE => .ok (.startAddressed r.chipAddress (directionOfBit r.isRead))
  | 0xF => .ok (.addressWithOffset r.chipAddress r.registerAddress r.addressLength (directionOfBit r.isRead))
  | _ => .error (.unassignedOp r.op)

/-- Format CR: the closed set of R112. -/
def decodeCr (b : Byte) : Except DecodeError Instr :=
  match b.toNat with
  | 0x10 => .ok .cmdWr
  | 0x90 => .ok .cmdWrStart
  | 0x50 => .ok .cmdWrStop
  | 0xD0 => .ok .cmdWrStartStop
  | 0x20 => .ok .cmdRd
  | 0x68 => .ok .cmdRdLast
  | 0x41 => .ok .cmdStop
  | 0x28 => .ok .cmdResetRd
  | 0x01 => .ok .cmdIack
  | _ => .error (.unlistedCommand b)

/-- Format ADDR (R105): the chip address in bits 7..1, the direction in bit 0. -/
def decodeAddr (b : Byte) : Except DecodeError Instr :=
  if b.getLsbD 0 then .ok (.addrR (b.extractLsb' 1 7)) else .ok (.addrW (b.extractLsb' 1 7))

/-- Format CTR (R101): the two values the sequencer writes (R34, R225). -/
def decodeCtr (b : Byte) : Except DecodeError Instr :=
  match b.toNat with
  | 0x00 => .ok .ctrDisable
  | 0x80 => .ok .ctrEnable
  | _ => .error (.unlistedControl b)

/-- The decoder. -/
def decode : Encoded → Except DecodeError Instr
  | .req r => decodeReq r
  | .cr b => decodeCr b
  | .addr b => decodeAddr b
  | .ctr b => decodeCtr b
  | .other n w => .error (.noFormat n w)

/-- The encoder: the words of an instruction, from R115, R112, R105 and R101. Operands the operation does
not take are zero. -/
def encode : Instr → Encoded
  | .selectBus n => .req { op := 0x0, busIndex := n }
  | .currentBus => .req { op := 0x1 }
  | .initController hz a => .req { op := 0x2, requestedClockHz := hz, slaveAddress := a }
  | .readBlock c r n m => .req { op := 0x3, chipAddress := c, registerAddress := r, addressLength := n, length := m }
  | .writeBlock c r n bs => .req { op := 0x4, chipAddress := c, registerAddress := r, addressLength := n, bytes := bs }
  | .probe c => .req { op := 0x5, chipAddress := c }
  | .readRegister off => .req { op := 0x6, offset := off }
  | .writeRegister off b => .req { op := 0x7, offset := off, value := b }
  | .sendByte v st sp => .req { op := 0x8, value := v, start := flagBit st, stop := flagBit sp }
  | .sendStop => .req { op := 0x9 }
  | .awaitBusNotBusy n => .req { op := 0xA, timeoutBudget := n }
  | .awaitTransferComplete e n => .req { op := 0xB, ackExpectation := e, timeoutBudget := n }
  | .readByte sp => .req { op := 0xC, stop := flagBit sp }
  | .resetBus => .req { op := 0xD }
  | .startAddressed c d => .req { op := 0xE, chipAddress := c, isRead := directionBit d }
  | .addressWithOffset c r n d =>
    .req { op := 0xF, chipAddress := c, registerAddress := r, addressLength := n, isRead := directionBit d }
  | .cmdWr => .cr 0x10
  | .cmdWrStart => .cr 0x90
  | .cmdWrStop => .cr 0x50
  | .cmdWrStartStop => .cr 0xD0
  | .cmdRd => .cr 0x20
  | .cmdRdLast => .cr 0x68
  | .cmdStop => .cr 0x41
  | .cmdResetRd => .cr 0x28
  | .cmdIack => .cr 0x01
  | .addrW c => .addr (c ++ 0#1)
  | .addrR c => .addr (c ++ 1#1)
  | .ctrDisable => .ctr 0x00
  | .ctrEnable => .ctr 0x80

/-- The command bytes of R112, for `tableWord`. -/
def commandBytes : List Nat := [0x10, 0x90, 0x50, 0xD0, 0x20, 0x68, 0x41, 0x28, 0x01]

/-- The word a bare bit pattern of the opcode table stands for. The table's four formats share bit patterns
(R100), and a bare pattern does not say which register it is presented at; it is read as the first that fits
of: a request code (below 16), a command byte, the control value 0x80, an address byte (DESIGN CHOICE,
log 10). Operands are zero. -/
def tableWord (nbits w : Nat) : Encoded :=
  if w < 16 then .req { op := BitVec.ofNat 4 w }
  else if 256 ≤ w then .other nbits w
  else if commandBytes.contains w then .cr (BitVec.ofNat 8 w)
  else if w = 0x80 then .ctr (BitVec.ofNat 8 w)
  else .addr (BitVec.ofNat 8 w)

/-- The instruction the decoder reads from a table word. -/
def decodeTableWord (nbits w : Nat) : Option Instr :=
  match decode (tableWord nbits w) with
  | .ok i => some i
  | .error _ => none

end Sys2Proof
end

