-- ==== Sys2Proof/Machine/State.lean ====
section
/-! DEFINITION. The state of the block (spec/10_state.md R30 to R48), as plain data, with the reasons a
step can stop and the state after reset. -/

namespace Sys2Proof.Machine

/-- The closed set of failure kinds (R260). A failure is an outcome of an operation, reported in `RESULT`:
the machine goes on. -/
inductive ErrorKind where
  | invalidBus
  | invalidClock
  | busy
  | timeout
  | arbitrationLost
  | notAcknowledged
deriving DecidableEq, Repr

/-- `RESULT` (R46): `Ok` or a failure kind. -/
inductive Result where
  | ok
  | err (kind : ErrorKind)
deriving DecidableEq, Repr

/-- Where the byte of a register read goes (R47, R48). -/
inductive Dest where
  /-- `OUT_BYTE`: `readByte` or `readRegister` invoked directly (R48) -/
  | outByte
  /-- the next byte of `DATA_BUF` (R47) -/
  | dataBuf
deriving DecidableEq, Repr

/-- One step of an operation's pseudocode, as far as the register block sees it (R19, R162, R163, R20).
An operation is the list of its steps in order; a failing step ends the list (R20, R271). -/
inductive SeqStep where
  /-- `RegWrite(off, v)` -/
  | write (off : RegOffset) (v : Byte)
  /-- `RegRead(off)`, the value going to `dest` -/
  | read (off : RegOffset) (dest : Dest)
  /-- `call awaitBusNotBusy(timeoutBudget)` -/
  | awaitNotBusy (timeoutBudget : Nat)
  /-- `call awaitTransferComplete(ackExpectation, timeoutBudget)` -/
  | awaitComplete (ackExpectation : AckExpectation) (timeoutBudget : Nat)
  /-- `raise kind` -/
  | raise (kind : ErrorKind)
deriving DecidableEq, Repr

/-- `PHASE` (R43): `IDLE`, or inside the operation the host invoked, at the position given by the steps that
are still to be made. These steps hold those of every enclosing operation too, so they are the position
and the stack of callers in one (R43 lets a model take a continuation). -/
inductive Phase where
  | idle
  | run (op : Instr) (rest : List SeqStep)
deriving DecidableEq, Repr

/-- The operand registers (R44): the operands of the operation last invoked, latched at invocation. -/
structure Operands where
  busIndex : Nat
  requestedClockHz : Nat
  slaveAddress : Byte
  chipAddress : BitVec 7
  registerAddress : BitVec 32
  addressLength : Nat
  /-- `length`, or the byte count of `writeBlock` -/
  length : Nat
  isRead : Direction
  ackExpectation : BitVec 2
  timeoutBudget : Nat
  /-- `value` of `sendByte`, `byte` of `writeRegister` -/
  value : Byte
  start : Bool
  stop : Bool
  /-- `offset` of `readRegister` and `writeRegister` -/
  offset : Nat
deriving DecidableEq, Repr

/-- SimBlock, the scripted environment of R250. -/
structure SimBlock where
  srQ : List Byte
  srDefault : Byte
  rxQ : List Byte
  rxDefault : Byte
deriving DecidableEq, Repr

/-- How the reads of one instance are answered: the environment oracle of R241 as plain data. -/
inductive Environment where
  /-- nothing is known of any answer -/
  | free
  /-- the next answers in order; nothing is known of the answers after them -/
  | script (answers : List Byte)
  /-- the test fixture of R250 -/
  | sim (block : SimBlock)
deriving DecidableEq, Repr

/-- One controller register block (R31), with the environment that answers its reads. A write-side register
holds the byte last written to it; a read-side register the byte its last read was answered (log 5). -/
structure Controller where
  /-- offset 0x0 (R32) -/
  prerLo : Byte
  /-- offset 0x1 (R33) -/
  prerHi : Byte
  /-- offset 0x2 (R34) -/
  ctr : Byte
  /-- offset 0x3, write side (R35) -/
  txr : Byte
  /-- offset 0x3, read side (R36) -/
  rxr : Byte
  /-- offset 0x4, write side (R37) -/
  cr : Byte
  /-- offset 0x4, read side (R38) -/
  sr : Byte
  /-- offset 0x7 (R39) -/
  sladr : Byte
  /-- the far side of the block (R241) -/
  env : Environment
deriving DecidableEq, Repr

/-- The machine: the state of R30, the parameters, and the two other agents of R22 (the host's requests to
come, the environment's history). -/
structure State where
  /-- the parameters (R8 to R17); no step changes them (R30) -/
  cfg : Params
  /-- register block of instance 0 (R31, R41) -/
  ctl0 : Controller
  /-- register block of instance 1 (R31, R41) -/
  ctl1 : Controller
  /-- `ACTIVE_BASE` (R42): `none` is `unset` -/
  activeBase : Option Addr
  /-- `PHASE` (R43) -/
  phase : Phase
  /-- the operand registers (R44) -/
  operands : Operands
  /-- `POLL_CNT` (R45) -/
  pollCnt : Nat
  /-- `RESULT` (R46) -/
  result : Result
  /-- `DATA_BUF` (R47): its valid bytes -/
  dataBuf : List Byte
  /-- `OUT_INDEX` (R48) -/
  outIndex : Nat
  /-- `OUT_BYTE` (R48) -/
  outByte : Byte
  /-- the host's requests to come, first first (R22) -/
  requests : List Encoded
  /-- every access so far, oldest first: the access trace (R21), the oracle's history (R241) -/
  history : List Access
  /-- the model's own: how many free output values have been drawn (log 6) -/
  draws : Nat
deriving DecidableEq, Repr

/-- Why the machine stops. -/
inductive Fault where
  /-- Raised by every operation that makes a register access, when `ACTIVE_BASE` is an address that is no
  instance's base: the access has no register block to reach (R70, R85). The selector invariant (R142)
  rules this out in every state a run reaches. Safe. -/
  | unmappedBase
deriving DecidableEq, Repr

/-- Why a request is refused: the sequencer makes no access and no state changes (R123). All are safe. -/
inductive Refusal where
  /-- Raised by exec's arm of an instruction that has no meaning in the model (none is left). Safe. -/
  | notModelled (mnemonic : String)
  /-- Raised by the step when the word presented is no row of the opcode table (R119, R124). Safe. -/
  | undecodable (e : DecodeError)
  /-- R123 (a): raised by `awaitTransferComplete` with `ackExpectation` 3. Safe. -/
  | badAckExpectation
  /-- R123 (b): raised by `readBlock`, `writeBlock`, `addressWithOffset` with `addressLength` above 4. Safe. -/
  | addressLengthTooLong
  /-- R123 (c): raised by `readBlock` and `writeBlock` with more than `MAX_BLOCK` bytes. Safe. -/
  | blockTooLong
  /-- R123 (d): raised by `readRegister` and `writeRegister` with an unassigned offset. Safe. -/
  | unassignedOffset
  /-- R123 (e): raised by every operation that makes a register access, other than the one the spec names
  `initialize`, while `ACTIVE_BASE` is unset. Safe. -/
  | noActiveBus
  /-- R123 (f): raised by every request made while `PHASE` is not `IDLE`. Safe. -/
  | sequencerRunning
deriving DecidableEq, Repr

/-- The operand registers at reset: the spec states no value; zero (DESIGN CHOICE, log 3). -/
def Operands.reset : Operands where
  busIndex := 0
  requestedClockHz := 0
  slaveAddress := 0
  chipAddress := 0
  registerAddress := 0
  addressLength := 0
  length := 0
  isRead := .write
  ackExpectation := 0
  timeoutBudget := 0
  value := 0
  start := false
  stop := false
  offset := 0

/-- A register block at reset: the spec states no value for any register; zero (DESIGN CHOICE, log 3). The
environment is the oracle, of which nothing is known. -/
def Controller.reset : Controller where
  prerLo := 0
  prerHi := 0
  ctr := 0
  txr := 0
  rxr := 0
  cr := 0
  sr := 0
  sladr := 0
  env := .free

/-- The state after reset (R52, R290): `ACTIVE_BASE` unset and `PHASE` idle, as the spec says; every other
register zero (DESIGN CHOICE, log 3). -/
def State.reset : State where
  cfg := Config.platform.params
  ctl0 := Controller.reset
  ctl1 := Controller.reset
  activeBase := none
  phase := .idle
  operands := Operands.reset
  pollCnt := 0
  result := .ok
  dataBuf := []
  outIndex := 0
  outByte := 0
  requests := []
  history := []
  draws := 0

end Sys2Proof.Machine
end

