-- ==== Sys2Proof/Machine/Flags.lean ====
section
/-! DEFINITION. The condition bits and the bit-mapped registers: the masks of SR, CR and CTR
(spec/30_encoding.md R101 to R103), the command bytes composed from them (R107 to R111), the acknowledge
judgement (R164), and the codes of `RESULT` (R118), the only flag-like state of the sequencer (R50). -/

namespace Sys2Proof.Machine

/-- A masked bit of a register is set. -/
def maskSet (v mask : Byte) : Bool := (v &&& mask) != 0

namespace SR

/-- Format SR (R103). -/
def rxackMask : Byte := 0x80
def busyMask : Byte := 0x40
def arbLostMask : Byte := 0x20
def slaveModeMask : Byte := 0x10
def slaveDataAvailMask : Byte := 0x08
def slaveDataReqMask : Byte := 0x04
def tipMask : Byte := 0x02
def irqFlagMask : Byte := 0x01

/-- Set: the slave did not acknowledge (R244). -/
def rxack (v : Byte) : Bool := maskSet v rxackMask
/-- Set: the bus is in use (R245). -/
def busy (v : Byte) : Bool := maskSet v busyMask
/-- Set: arbitration was lost (R247). -/
def arbLost (v : Byte) : Bool := maskSet v arbLostMask
/-- Slave mode, a non-goal; no operation tests it (R49, R249). -/
def slaveMode (v : Byte) : Bool := maskSet v slaveModeMask
/-- Slave mode, a non-goal; no operation tests it (R49, R249). -/
def slaveDataAvail (v : Byte) : Bool := maskSet v slaveDataAvailMask
/-- Slave mode, a non-goal; no operation tests it (R49, R249). -/
def slaveDataReq (v : Byte) : Bool := maskSet v slaveDataReqMask
/-- Set: the byte transfer of the last command is under way (R246). -/
def tip (v : Byte) : Bool := maskSet v tipMask
/-- The interrupt flag; no operation tests it (R49, R248). -/
def irqFlag (v : Byte) : Bool := maskSet v irqFlagMask

end SR

namespace CR

/-- Format CR (R102). Bit 2 is unassigned (R120). -/
def start : Byte := 0x80
def stop : Byte := 0x40
def read : Byte := 0x20
def write : Byte := 0x10
def ack : Byte := 0x08
def slaveCont : Byte := 0x02
def irqAck : Byte := 0x01

/-- R107: `WRITE | (START if start) | (STOP if stop)`. -/
def sendByteCommand (startBit stopBit : Bool) : Byte :=
  write ||| (if startBit then start else 0) ||| (if stopBit then stop else 0)

/-- R108: `READ`, or `READ | STOP | ACK` for the last byte. -/
def readByteCommand (stopBit : Bool) : Byte :=
  if stopBit then read ||| stop ||| ack else read

/-- R109: `STOP | IRQ-ACK`. -/
def sendStopCommand : Byte := stop ||| irqAck

/-- R110: `READ | ACK`, the dummy read of `resetBus`. -/
def resetReadCommand : Byte := read ||| ack

/-- R111: `IRQ-ACK`. -/
def irqAckCommand : Byte := irqAck

end CR

namespace CTR

/-- Format CTR (R101). Bits 4..0 are unassigned (R119). -/
def coreEnableMask : Byte := 0x80
def interruptEnableMask : Byte := 0x40
def slaveEnableMask : Byte := 0x20

/-- R225: the controller is enabled when bit 7 is 1. -/
def coreEnable (v : Byte) : Bool := maskSet v coreEnableMask
/-- R248 -/
def interruptEnable (v : Byte) : Bool := maskSet v interruptEnableMask
/-- R249 -/
def slaveEnable (v : Byte) : Bool := maskSet v slaveEnableMask

/-- The value that disables the controller (R220). -/
def disable : Byte := 0x00
/-- The value that enables it, interrupts and slave mode off (R220, R225). -/
def enable : Byte := coreEnableMask

end CTR

/-- The judgement of the acknowledge detector (R164). -/
inductive Judgement where
  | met
  | violated
deriving DecidableEq, Repr

/-- R164: the table of `ackJudge(ackExpectation, rxack)`. -/
def ackJudge : AckExpectation → Bool → Judgement
  | .dontCare, _ => .met
  | .requireAck, rxack => if rxack then .violated else .met
  | .requireNack, rxack => if rxack then .met else .violated

/-- R118, R260: the codes of the failure kinds. -/
def ErrorKind.code : ErrorKind → Nat
  | .invalidBus => 1
  | .invalidClock => 2
  | .busy => 3
  | .timeout => 4
  | .arbitrationLost => 5
  | .notAcknowledged => 6

/-- R118: the code of `RESULT`. -/
def Result.code : Result → Nat
  | .ok => 0
  | .err k => k.code

/-- R267: the convention of the original driver, -1 for every failure. -/
def Result.legacyCode (r : Result) : Int := if r.code = 0 then 0 else -1

/-- R194: `present = (RESULT == Ok)`. -/
def Result.present (r : Result) : Bool := r == .ok

end Sys2Proof.Machine
end

