-- ==== Sys2Proof/Machine/Operands.lean ====
section
/-! DEFINITION. The operand forms: bus indexes and base addresses (R8, R9, R140), register offsets and
addresses (R31, R70, R71), the acknowledge expectation (R117), the address byte (R105), the register-address
bytes (R113), the prescaler (R114, R221, R222), and the latching of operands (R44). -/

namespace Sys2Proof.Machine

/-- The index of an instance (R8). -/
def busIndexOf : BusId → Nat
  | .bus0 => 0
  | .bus1 => 1

/-- The instance of an index: `busIndex` must be below `NUM_BUSES = 2` (R140). -/
def busOfIndex : Nat → Option BusId
  | 0 => some .bus0
  | 1 => some .bus1
  | _ + 2 => none

/-- `BASE[i]` (R9). -/
def baseOf (p : Params) : BusId → Addr
  | .bus0 => p.base0
  | .bus1 => p.base1

/-- The instance whose base equals an address, searched in ascending order (R41, R141). -/
def busAt (p : Params) (a : Addr) : Option BusId :=
  if a = p.base0 then some .bus0 else if a = p.base1 then some .bus1 else none

/-- The number of an offset (R31). -/
def offsetNat : RegOffset → Nat
  | .prerLo => 0x0
  | .prerHi => 0x1
  | .ctr => 0x2
  | .txrRxr => 0x3
  | .crSr => 0x4
  | .sladr => 0x7

/-- The register of an offset; the others are unassigned (R40, R122). -/
def offsetOf (n : Nat) : Option RegOffset :=
  match n with
  | 0x0 => some .prerLo
  | 0x1 => some .prerHi
  | 0x2 => some .ctr
  | 0x3 => some .txrRxr
  | 0x4 => some .crSr
  | 0x7 => some .sladr
  | _ => none

/-- R71: the effective address `ACTIVE_BASE + off`. -/
def effectiveAddr (base : Addr) (off : RegOffset) : Addr := base + BitVec.ofNat 32 (offsetNat off)

/-- R70: the register a byte address holds, if any: the populated locations of the register address space
are the six offsets of each of the two blocks. -/
def locate (p : Params) (a : Addr) : Option (BusId × RegOffset) :=
  match offsetOf (a - p.base0).toNat with
  | some off => some (.bus0, off)
  | none =>
    match offsetOf (a - p.base1).toNat with
    | some off => some (.bus1, off)
    | none => none

/-- R117: 0, 1, 2 are the Acknowledge Expectations; 3 is none. -/
def ackOfBits (b : BitVec 2) : Option AckExpectation :=
  match b.toNat with
  | 0 => some .dontCare
  | 1 => some .requireAck
  | 2 => some .requireNack
  | _ => none

/-- R116: the read/write bit. -/
def directionByte : Direction → Byte
  | .write => 0
  | .read => 1

/-- R105: `(chipAddress << 1) | (1 if isRead else 0)`. -/
def addrByte (chipAddress : BitVec 7) (isRead : Direction) : Byte :=
  (chipAddress.setWidth 8 <<< 1) ||| directionByte isRead

/-- R113: the `addressLength` low bytes of the register address, most significant first. -/
def regAddrBytes (registerAddress : BitVec 32) : Nat → List Byte
  | 0 => []
  | k + 1 => (registerAddress >>> (8 * k)).setWidth 8 :: regAddrBytes registerAddress k

/-- R220 to R222: the prescaler `INPUT_CLOCK_HZ div (5 * requestedClockHz) - 1`, or none where `initialize`
raises `InvalidClock`: a zero clock, a zero quotient, a prescaler above 0xFFFF. -/
def prescaler (inputClockHz requestedClockHz : Nat) : Option Nat :=
  if requestedClockHz = 0 then none
  else
    let q := inputClockHz / (clockDivisor * requestedClockHz)
    if q = 0 then none
    else if 0xFFFF < q - 1 then none
    else some (q - 1)

/-- R104, R114: `P & 0xFF`. -/
def prescalerLo (p : Nat) : Byte := BitVec.ofNat 8 p

/-- R104, R114: `(P >> 8) & 0xFF`. -/
def prescalerHi (p : Nat) : Byte := BitVec.ofNat 8 (p >>> 8)

/-- R44: the operands an operation takes are latched when it is invoked; the other operand registers keep
their values (log 28, DESIGN CHOICE). -/
def latchOperands (o : Operands) : Instr → Operands
  | .selectBus n => { o with busIndex := n }
  | .currentBus => o
  | .initController hz a => { o with requestedClockHz := hz, slaveAddress := a }
  | .readBlock c r n m => { o with chipAddress := c, registerAddress := r, addressLength := n, length := m }
  | .writeBlock c r n bs =>
    { o with chipAddress := c, registerAddress := r, addressLength := n, length := bs.length }
  | .probe c => { o with chipAddress := c }
  | .readRegister off => { o with offset := off }
  | .writeRegister off b => { o with offset := off, value := b }
  | .sendByte v st sp => { o with value := v, start := st, stop := sp }
  | .sendStop => o
  | .awaitBusNotBusy n => { o with timeoutBudget := n }
  | .awaitTransferComplete e n => { o with ackExpectation := e, timeoutBudget := n }
  | .readByte sp => { o with stop := sp }
  | .resetBus => o
  | .startAddressed c d => { o with chipAddress := c, isRead := d }
  | .addressWithOffset c r n d =>
    { o with chipAddress := c, registerAddress := r, addressLength := n, isRead := d }
  | .cmdWr | .cmdWrStart | .cmdWrStop | .cmdWrStartStop | .cmdRd | .cmdRdLast | .cmdStop | .cmdResetRd
  | .cmdIack | .addrW _ | .addrR _ | .ctrDisable | .ctrEnable => o

end Sys2Proof.Machine
end

