-- ==== Sys2Proof/Machine/Ops.lean ====
section
/-! DEFINITION. The named operations over the state: one register access (R150, R151), the environment's
answer (R241, R250), the two polling waits (R162, R163, R167), the steps of an operation in order (R20), the
end of an operation, normal and by failure (R46, R271), the admission of a request (R123), and the same
operation made one register access at a time (R43, D32). -/

namespace Sys2Proof.Machine

/-! ## The environment -/

/-- R250: SimBlock's answer to a read, and what is left of its queues. -/
def SimBlock.answer (b : SimBlock) : RegOffset → Byte × SimBlock
  | .crSr =>
    match b.srQ with
    | [] => (b.srDefault, b)
    | v :: vs => (v, { b with srQ := vs })
  | .txrRxr =>
    match b.rxQ with
    | [] => (b.rxDefault, b)
    | v :: vs => (v, { b with rxQ := vs })
  | .prerLo | .prerHi | .ctr | .sladr => (0x00, b)

/-- R241: the byte a read is answered, given the history of accesses before it. -/
def Environment.answer (e : Environment) (history : List Access) (base : Addr) (off : RegOffset) :
    Byte × Environment :=
  match e with
  | .free => (Config.freeAnswer history (effectiveAddr base off), .free)
  | .script [] => (Config.freeAnswer history (effectiveAddr base off), .script [])
  | .script (v :: vs) => (v, .script vs)
  | .sim b => ((b.answer off).1, .sim (b.answer off).2)

/-! ## The register block -/

/-- A write reaches the write-side register of its offset (R31, R151). -/
def Controller.write (c : Controller) (off : RegOffset) (v : Byte) : Controller :=
  match off with
  | .prerLo => { c with prerLo := v }
  | .prerHi => { c with prerHi := v }
  | .ctr => { c with ctr := v }
  | .txrRxr => { c with txr := v }
  | .crSr => { c with cr := v }
  | .sladr => { c with sladr := v }

/-- A read shows the answer in the read-side register of its offset, where it has one (R31, R36, R38). -/
def Controller.observe (c : Controller) (off : RegOffset) (v : Byte) : Controller :=
  match off with
  | .txrRxr => { c with rxr := v }
  | .crSr => { c with sr := v }
  | .prerLo | .prerHi | .ctr | .sladr => c

namespace State

/-- The register block of an instance (R41). -/
def ctl (s : State) : BusId → Controller
  | .bus0 => s.ctl0
  | .bus1 => s.ctl1

/-- Replaces the register block of one instance. -/
def setCtl (s : State) (b : BusId) (c : Controller) : State :=
  match b with
  | .bus0 => { s with ctl0 := c }
  | .bus1 => { s with ctl1 := c }

/-- Appends one item to the access trace (R21). -/
def record (s : State) (a : Access) : State := { s with history := s.history ++ [a] }

/-- R151: `RegWrite(off, v)` on instance `b`, one 8-bit write, recorded (R241). -/
def regWrite (b : BusId) (off : RegOffset) (v : Byte) (s : State) : State :=
  (s.setCtl b ((s.ctl b).write off v)).record (.write (baseOf s.cfg b) off v)

/-- What the environment of instance `b` answers to a read now (R241). -/
def answer (b : BusId) (off : RegOffset) (s : State) : Byte :=
  ((s.ctl b).env.answer s.history (baseOf s.cfg b) off).1

/-- The register block of instance `b` after a read. -/
def ctlAfterRead (b : BusId) (off : RegOffset) (s : State) : Controller :=
  { (s.ctl b).observe off (s.answer b off) with
    env := ((s.ctl b).env.answer s.history (baseOf s.cfg b) off).2 }

/-- R150: `RegRead(off)` on instance `b`, one 8-bit read, recorded; the byte read is `answer`. -/
def regRead (b : BusId) (off : RegOffset) (s : State) : State :=
  (s.setCtl b (s.ctlAfterRead b off)).record (.read (baseOf s.cfg b) off (s.answer b off))

/-- Delivers a byte that was read (R47, R48). -/
def deliver (s : State) (d : Dest) (v : Byte) : State :=
  match d with
  | .outByte => { s with outByte := v }
  | .dataBuf => { s with dataBuf := s.dataBuf ++ [v] }

/-- R162, R163: `POLL_CNT <- n`. -/
def setPoll (s : State) (n : Nat) : State := { s with pollCnt := n }

/-- One status read of a wait: `s <- RegRead(0x4)`, `POLL_CNT <- POLL_CNT + 1` (R167). The value read is
`answer b .crSr`. -/
def pollRead (b : BusId) (s : State) : State := (s.regRead b .crSr).setPoll (s.pollCnt + 1)

end State

/-! ## The waits -/

/-- R162: the loop of `awaitBusNotBusy` with this many status reads left of its budget. -/
def pollNotBusy (b : BusId) : Nat → State → State × Option ErrorKind
  | 0, s => (s, some .busy)
  | left + 1, s =>
    if SR.busy (s.answer b .crSr) then pollNotBusy b left (s.pollRead b) else (s.pollRead b, none)

/-- R163, R270, R272: the loop of `awaitTransferComplete` with this many status reads left of its budget.
One status value is judged in the order ARB-LOST, TRANSFER-IN-PROGRESS, RXACK. -/
def pollComplete (b : BusId) (e : AckExpectation) : Nat → State → State × Option ErrorKind
  | 0, s => (s, some .timeout)
  | left + 1, s =>
    if SR.arbLost (s.answer b .crSr) then (s.pollRead b, some .arbitrationLost)
    else if SR.tip (s.answer b .crSr) then pollComplete b e left (s.pollRead b)
    else
      match ackJudge e (SR.rxack (s.answer b .crSr)) with
      | .violated => ((s.pollRead b).regWrite b .crSr CR.sendStopCommand, some .notAcknowledged)
      | .met => (s.pollRead b, none)

/-! ## The steps of an operation -/

/-- One step of an operation on instance `b`: the state after it, and the failure it raises, if any. -/
def runStep (b : BusId) : SeqStep → State → State × Option ErrorKind
  | .write off v, s => (s.regWrite b off v, none)
  | .read off d, s => ((s.regRead b off).deliver d (s.answer b off), none)
  | .awaitNotBusy n, s => pollNotBusy b n (s.setPoll 0)
  | .awaitComplete e n, s => pollComplete b e n (s.setPoll 0)
  | .raise k, s => (s, some k)

/-- R20: the steps in order; a failing step ends them at once, and its failure is theirs (R195, R271). -/
def runSteps (b : BusId) : List SeqStep → State → State × Option ErrorKind
  | [], s => (s, none)
  | m :: ms, s =>
    match runStep b m s with
    | (s', none) => runSteps b ms s'
    | (s', some k) => (s', some k)

/-! ## The end of an operation -/

namespace State

/-- R46: the operation the host invoked ends with success. -/
def succeed (s : State) : State := { s with phase := .idle, result := .ok }

/-- R271: `raise kind` reaches the host: `RESULT` receives the kind and `PHASE` returns to `IDLE`; nothing is
saved, no mode changes, control goes nowhere else. This is the block's whole taking of an exception. -/
def raise (k : ErrorKind) (s : State) : State := { s with phase := .idle, result := .err k }

/-- R47, R48, U14: after a failed operation its own output holds an unspecified value (log 6). -/
def spoilOutput (i : Instr) (s : State) : State :=
  match i with
  | .currentBus => { s with outIndex := Config.freeIndex s.draws, draws := s.draws + 1 }
  | .readByte _ => { s with outByte := Config.freeByte s.draws, draws := s.draws + 1 }
  | .readBlock _ _ _ _ | .writeBlock _ _ _ _ | .probe _ =>
    { s with dataBuf := (Config.freeBytes s.draws).take s.cfg.maxBlock, draws := s.draws + 1 }
  | .selectBus _ | .initController _ _ | .readRegister _ | .writeRegister _ _ | .sendByte _ _ _ | .sendStop
  | .awaitBusNotBusy _ | .awaitTransferComplete _ _ | .resetBus | .startAddressed _ _
  | .addressWithOffset _ _ _ _ | .cmdWr | .cmdWrStart | .cmdWrStop | .cmdWrStartStop | .cmdRd | .cmdRdLast
  | .cmdStop | .cmdResetRd | .cmdIack | .addrW _ | .addrR _ | .ctrDisable | .ctrEnable => s

/-- The operation ends with a failure. -/
def failWith (i : Instr) (k : ErrorKind) (s : State) : State := (s.raise k).spoilOutput i

/-- The operation ends, normally or with the failure its steps raised. -/
def finish (i : Instr) : State × Option ErrorKind → State
  | (s, none) => s.succeed
  | (s, some k) => s.failWith i k

/-! ## The start of an operation -/

/-- R47: what `DATA_BUF` holds as an operation begins: `writeBlock`'s payload, supplied by the host; nothing
yet for `readBlock` and for `probe`, which expands to one. -/
def loadBuffer (i : Instr) (s : State) : State :=
  match i with
  | .readBlock _ _ _ _ => { s with dataBuf := [] }
  | .writeBlock _ _ _ bytes => { s with dataBuf := bytes }
  | .probe _ => { s with dataBuf := [] }
  | .selectBus _ | .currentBus | .initController _ _ | .readRegister _ | .writeRegister _ _ | .sendByte _ _ _
  | .sendStop | .awaitBusNotBusy _ | .awaitTransferComplete _ _ | .readByte _ | .resetBus
  | .startAddressed _ _ | .addressWithOffset _ _ _ _ | .cmdWr | .cmdWrStart | .cmdWrStop | .cmdWrStartStop
  | .cmdRd | .cmdRdLast | .cmdStop | .cmdResetRd | .cmdIack | .addrW _ | .addrR _ | .ctrDisable
  | .ctrEnable => s

/-- R44: the operation's inputs are latched at invocation. How long an operand register keeps its value after the
operation is open; DESIGN CHOICE, log 28: until an operation that takes it is invoked again, so a rejected `busIndex`
stays there too (R261 has the failure itself record only its kind). -/
def latch (i : Instr) (s : State) : State :=
  { s.loadBuffer i with operands := latchOperands s.operands i }

/-- R42, R140, R220: `ACTIVE_BASE <- BASE[b]`. -/
def setActive (b : BusId) (s : State) : State := { s with activeBase := some (baseOf s.cfg b) }

/-- R48: `OUT_INDEX <- n`. -/
def setOutIndex (n : Nat) (s : State) : State := { s with outIndex := n }

/-- What `ACTIVE_BASE` selects: nothing, an instance, or an address that is no instance's base. -/
def activeBus (s : State) : Option (Option BusId) := s.activeBase.map (busAt s.cfg)

end State

/-- R123 (f): a request is admitted only while `PHASE` is `IDLE`. -/
def whenIdle (s : State) (go : State → Host.Outcome State Fault Refusal) : Host.Outcome State Fault Refusal :=
  match s.phase with
  | .idle => go s
  | .run _ _ => .refused .sequencerRunning

/-- R123 (e): an operation that makes a register access is admitted only while a bus is active. -/
def withActiveBus (s : State) (go : BusId → Host.Outcome State Fault Refusal) :
    Host.Outcome State Fault Refusal :=
  match s.activeBus with
  | none => .refused .noActiveBus
  | some none => .fault .unmappedBase
  | some (some b) => go b

/-- R22, R87: the steps of an operation whose operands are latched run to their end on the active
instance, and its result is set. -/
def runOnActive (i : Instr) (steps : List SeqStep) (s : State) : Host.Outcome State Fault Refusal :=
  withActiveBus s fun b => .next (State.finish i (runSteps b steps s))

/-- A request that makes register accesses: admitted, its operands latched, its steps run. -/
def perform (i : Instr) (steps : List SeqStep) (s : State) : Host.Outcome State Fault Refusal :=
  whenIdle s fun s => runOnActive i steps (s.latch i)

/-- A row of format CR, ADDR or CTR: the one write access that carries its byte to the register of the active
instance (R112). No operation is invoked: no operand is latched and no result is set (log 11). -/
def writeByteRow (off : RegOffset) (v : Byte) (s : State) : Host.Outcome State Fault Refusal :=
  whenIdle s fun s => withActiveBus s fun b => .next (s.regWrite b off v)

end Sys2Proof.Machine
end

