-- ==== Sys2Proof/Machine/BusSelector.lean ====
section
/-! DEFINITION. The Bus Selector (spec/40_bus_selector.md): `selectBus` and `currentBus`. Neither makes a
register access. -/

namespace Sys2Proof.Machine

/-- R140: selects instance `busIndex`, or fails with `InvalidBus` and leaves `ACTIVE_BASE` as it was. -/
def execSelectBus (busIndex : Nat) (s : State) : Host.Outcome State Fault Refusal :=
  whenIdle s fun s =>
    let s := s.latch (.selectBus busIndex)
    match busOfIndex busIndex with
    | none => .next (s.failWith (.selectBus busIndex) .invalidBus)
    | some b => .next (s.setActive b).succeed

/-- R141: the index of the active instance goes to `OUT_INDEX`; `InvalidBus` when `ACTIVE_BASE` equals no
entry of `BASE`. -/
def execCurrentBus (s : State) : Host.Outcome State Fault Refusal :=
  whenIdle s fun s =>
    match s.activeBus with
    | some (some b) => .next (s.setOutIndex (busIndexOf b)).succeed
    | some none => .next (s.failWith .currentBus .invalidBus)
    | none => .next (s.failWith .currentBus .invalidBus)

end Sys2Proof.Machine
end

