-- ==== Sys2Proof/Machine/Primitive.lean ====
section
/-! DEFINITION. The Primitive Sequencer (spec/42_primitive_sequencer.md): `sendByte`, `sendStop`,
`awaitBusNotBusy`, `awaitTransferComplete`, `readByte`, `resetBus`. Each operation is the list of the steps
of its pseudocode; `call` is appending the callee's steps. -/

namespace Sys2Proof.Machine

/-- R160: TXR first, then CR. -/
def sendByteSteps (value : Byte) (start stop : Bool) : List SeqStep :=
  [.write .txrRxr value, .write .crSr (CR.sendByteCommand start stop)]

/-- R161: one command write, nothing to TXR. -/
def sendStopSteps : List SeqStep := [.write .crSr CR.sendStopCommand]

/-- R165: the read command, the transfer-complete wait with DontCare, then RXR. -/
def readByteSteps (p : Params) (stop : Bool) (dest : Dest) : List SeqStep :=
  [.write .crSr (CR.readByteCommand stop), .awaitComplete .dontCare p.budgetXfer, .read .txrRxr dest]

/-- R166: the dummy read command, `sendStop`, the bus-not-busy wait. -/
def resetBusSteps (p : Params) : List SeqStep :=
  .write .crSr CR.resetReadCommand :: sendStopSteps ++ [.awaitNotBusy p.budgetBusy]

/-- R160 -/
def execSendByte (value : Byte) (start stop : Bool) (s : State) : Host.Outcome State Fault Refusal :=
  perform (.sendByte value start stop) (sendByteSteps value start stop) s

/-- R161 -/
def execSendStop (s : State) : Host.Outcome State Fault Refusal :=
  perform .sendStop sendStopSteps s

/-- R162 -/
def execAwaitBusNotBusy (timeoutBudget : Nat) (s : State) : Host.Outcome State Fault Refusal :=
  perform (.awaitBusNotBusy timeoutBudget) [.awaitNotBusy timeoutBudget] s

/-- R163; `ackExpectation` 3 is refused (R123 (a)). -/
def execAwaitTransferComplete (ackExpectation : BitVec 2) (timeoutBudget : Nat) (s : State) :
    Host.Outcome State Fault Refusal :=
  match ackOfBits ackExpectation with
  | none => .refused .badAckExpectation
  | some e => perform (.awaitTransferComplete ackExpectation timeoutBudget) [.awaitComplete e timeoutBudget] s

/-- R165 -/
def execReadByte (stop : Bool) (s : State) : Host.Outcome State Fault Refusal :=
  perform (.readByte stop) (readByteSteps s.cfg stop .outByte) s

/-- R166 -/
def execResetBus (s : State) : Host.Outcome State Fault Refusal :=
  perform .resetBus (resetBusSteps s.cfg) s

end Sys2Proof.Machine
end

