-- ==== Sys2Proof/Machine/Lifecycle.lean ====
section
/-! DEFINITION. Lifecycle and configuration (spec/44_lifecycle.md): the operation the spec names
`initialize`. -/

namespace Sys2Proof.Machine

/-- R220: `initialize` takes the default instance when no bus is active. -/
def State.resolveBus (s : State) : State :=
  match s.activeBase with
  | none => s.setActive defaultBus
  | some _ => s

/-- R220: disable, acknowledge, prescaler low, prescaler high, enable, then `resetBus`. -/
def initSteps (p : Params) (prer : Nat) : List SeqStep :=
  [.write .ctr CTR.disable, .write .crSr CR.irqAckCommand, .write .prerLo (prescalerLo prer),
    .write .prerHi (prescalerHi prer), .write .ctr CTR.enable] ++ resetBusSteps p

/-- R220: the clock check comes first and a rejected clock changes neither `ACTIVE_BASE` nor any register
(R222); `slaveAddress` is accepted and unused (R223). -/
def execInitController (requestedClockHz : Nat) (slaveAddress : Byte) (s : State) :
    Host.Outcome State Fault Refusal :=
  whenIdle s fun s =>
    let s := s.latch (.initController requestedClockHz slaveAddress)
    match prescaler s.cfg.inputClockHz requestedClockHz with
    | none => .next (s.failWith (.initController requestedClockHz slaveAddress) .invalidClock)
    | some prer => runOnActive (.initController requestedClockHz slaveAddress) (initSteps s.cfg prer) s.resolveBus

end Sys2Proof.Machine
end

