-- ==== Sys2Proof/Machine/RegisterAccess.lean ====
section
/-! DEFINITION. The Register Access Layer (spec/41_register_access.md): `readRegister` and `writeRegister`
invoked by the host, each one access (R84, R152). -/

namespace Sys2Proof.Machine

/-- The one step of `readRegister` (R150). -/
def readRegisterSteps (off : RegOffset) : List SeqStep := [.read off .outByte]

/-- The one step of `writeRegister` (R151). -/
def writeRegisterSteps (off : RegOffset) (byte : Byte) : List SeqStep := [.write off byte]

/-- R150; an unassigned offset is refused (R123 (d)). -/
def execReadRegister (offset : Nat) (s : State) : Host.Outcome State Fault Refusal :=
  match offsetOf offset with
  | none => .refused .unassignedOffset
  | some off => perform (.readRegister offset) (readRegisterSteps off) s

/-- R151; an unassigned offset is refused (R123 (d)). Any byte is written, unassigned bits and command bytes
outside the closed set among them (R119, R124, U7). -/
def execWriteRegister (offset : Nat) (byte : Byte) (s : State) : Host.Outcome State Fault Refusal :=
  match offsetOf offset with
  | none => .refused .unassignedOffset
  | some off => perform (.writeRegister offset byte) (writeRegisterSteps off byte) s

end Sys2Proof.Machine
end

