-- ==== Sys2Proof/Machine/RegisterBytes.lean ====
section
/-! DEFINITION. The rows of formats CR, ADDR and CTR (spec/30_encoding.md R101, R105, R107 to R112): each is
the register write that carries its byte. The bytes are composed from the masks, as the rules give them. -/

namespace Sys2Proof.Machine

/-- CMD_WR: WRITE (R107). -/
def execCmdWr (s : State) : Host.Outcome State Fault Refusal := writeByteRow .crSr (CR.sendByteCommand false false) s

/-- CMD_WR_START: START, WRITE (R107). -/
def execCmdWrStart (s : State) : Host.Outcome State Fault Refusal := writeByteRow .crSr (CR.sendByteCommand true false) s

/-- CMD_WR_STOP: STOP, WRITE (R107). -/
def execCmdWrStop (s : State) : Host.Outcome State Fault Refusal := writeByteRow .crSr (CR.sendByteCommand false true) s

/-- CMD_WR_START_STOP: START, STOP, WRITE (R107). -/
def execCmdWrStartStop (s : State) : Host.Outcome State Fault Refusal := writeByteRow .crSr (CR.sendByteCommand true true) s

/-- CMD_RD: READ (R108). -/
def execCmdRd (s : State) : Host.Outcome State Fault Refusal := writeByteRow .crSr (CR.readByteCommand false) s

/-- CMD_RD_LAST: STOP, READ, ACK (R108). -/
def execCmdRdLast (s : State) : Host.Outcome State Fault Refusal := writeByteRow .crSr (CR.readByteCommand true) s

/-- CMD_STOP: STOP, IRQ-ACK (R109). -/
def execCmdStop (s : State) : Host.Outcome State Fault Refusal := writeByteRow .crSr CR.sendStopCommand s

/-- CMD_RESET_RD: READ, ACK (R110). -/
def execCmdResetRd (s : State) : Host.Outcome State Fault Refusal := writeByteRow .crSr CR.resetReadCommand s

/-- CMD_IACK: IRQ-ACK (R111). -/
def execCmdIack (s : State) : Host.Outcome State Fault Refusal := writeByteRow .crSr CR.irqAckCommand s

/-- ADDR_W: the address byte with the Write direction, to TXR (R105). -/
def execAddrW (chipAddress : BitVec 7) (s : State) : Host.Outcome State Fault Refusal :=
  writeByteRow .txrRxr (addrByte chipAddress .write) s

/-- ADDR_R: the address byte with the Read direction, to TXR (R105). -/
def execAddrR (chipAddress : BitVec 7) (s : State) : Host.Outcome State Fault Refusal :=
  writeByteRow .txrRxr (addrByte chipAddress .read) s

/-- CTR_DISABLE: core-enable 0 (R101, R225). -/
def execCtrDisable (s : State) : Host.Outcome State Fault Refusal := writeByteRow .ctr CTR.disable s

/-- CTR_ENABLE: core-enable 1 (R101, R225). -/
def execCtrEnable (s : State) : Host.Outcome State Fault Refusal := writeByteRow .ctr CTR.enable s

end Sys2Proof.Machine
end

