-- ==== Sys2Proof/Machine/Transaction.lean ====
section
/-! DEFINITION. The Transaction Protocol (spec/43_transaction_protocol.md): `startAddressed`,
`addressWithOffset`, `readBlock`, `writeBlock`, `probe`, built from the primitives only. -/

namespace Sys2Proof.Machine

/-- One byte sent and judged RequireAck (R190, R191, R193). -/
def sendAckedSteps (p : Params) (value : Byte) (start stop : Bool) : List SeqStep :=
  sendByteSteps value start stop ++ [.awaitComplete .requireAck p.budgetXfer]

/-- R190 -/
def startAddressedSteps (p : Params) (chipAddress : BitVec 7) (isRead : Direction) : List SeqStep :=
  sendAckedSteps p (addrByte chipAddress isRead) true false

/-- R191: the register-address bytes, each a body byte judged RequireAck. -/
def bodyBytesSteps (p : Params) : List Byte → List SeqStep
  | [] => []
  | b :: bs => sendAckedSteps p b false false ++ bodyBytesSteps p bs

/-- R191: the address byte with the Write direction, the register-address bytes, and for a read the repeated
start with no stop between. -/
def addressWithOffsetSteps (p : Params) (chipAddress : BitVec 7) (registerAddress : BitVec 32)
    (addressLength : Nat) (isRead : Direction) : List SeqStep :=
  startAddressedSteps p chipAddress .write ++ bodyBytesSteps p (regAddrBytes registerAddress addressLength) ++
    match isRead with
    | .read => startAddressedSteps p chipAddress .read
    | .write => []

/-- R192: this many data bytes still to be read, `stop` on the last one only. -/
def dataReadSteps (p : Params) : Nat → List SeqStep
  | 0 => []
  | left + 1 => readByteSteps p (left == 0) .dataBuf ++ dataReadSteps p left

/-- R192 -/
def readBlockSteps (p : Params) (chipAddress : BitVec 7) (registerAddress : BitVec 32)
    (addressLength length : Nat) : List SeqStep :=
  .awaitNotBusy p.budgetBusy :: addressWithOffsetSteps p chipAddress registerAddress addressLength .read ++
    dataReadSteps p length

/-- R193: the payload bytes, each judged RequireAck, `stop` on the last one only. -/
def payloadSteps (p : Params) : List Byte → List SeqStep
  | [] => []
  | b :: bs => sendAckedSteps p b false bs.isEmpty ++ payloadSteps p bs

/-- R193 -/
def writeBlockSteps (p : Params) (chipAddress : BitVec 7) (registerAddress : BitVec 32) (addressLength : Nat)
    (bytes : List Byte) : List SeqStep :=
  .awaitNotBusy p.budgetBusy :: addressWithOffsetSteps p chipAddress registerAddress addressLength .write ++
    payloadSteps p bytes

/-- R194: `readBlock(chipAddress, 0, 1, 1)`. -/
def probeSteps (p : Params) (chipAddress : BitVec 7) : List SeqStep := readBlockSteps p chipAddress 0 1 1

/-- R190 -/
def execStartAddressed (chipAddress : BitVec 7) (isRead : Direction) (s : State) :
    Host.Outcome State Fault Refusal :=
  perform (.startAddressed chipAddress isRead) (startAddressedSteps s.cfg chipAddress isRead) s

/-- R191; `addressLength` above 4 is refused (R123 (b)). -/
def execAddressWithOffset (chipAddress : BitVec 7) (registerAddress : BitVec 32) (addressLength : Nat)
    (isRead : Direction) (s : State) : Host.Outcome State Fault Refusal :=
  if 4 < addressLength then .refused .addressLengthTooLong
  else
    perform (.addressWithOffset chipAddress registerAddress addressLength isRead)
      (addressWithOffsetSteps s.cfg chipAddress registerAddress addressLength isRead) s

/-- R192; refused with `addressLength` above 4 (R123 (b)) or `length` above `MAX_BLOCK` (R123 (c)). -/
def execReadBlock (chipAddress : BitVec 7) (registerAddress : BitVec 32) (addressLength length : Nat)
    (s : State) : Host.Outcome State Fault Refusal :=
  if 4 < addressLength then .refused .addressLengthTooLong
  else if s.cfg.maxBlock < length then .refused .blockTooLong
  else
    perform (.readBlock chipAddress registerAddress addressLength length)
      (readBlockSteps s.cfg chipAddress registerAddress addressLength length) s

/-- R193; refused with `addressLength` above 4 (R123 (b)) or more than `MAX_BLOCK` bytes (R123 (c)). -/
def execWriteBlock (chipAddress : BitVec 7) (registerAddress : BitVec 32) (addressLength : Nat)
    (bytes : List Byte) (s : State) : Host.Outcome State Fault Refusal :=
  if 4 < addressLength then .refused .addressLengthTooLong
  else if s.cfg.maxBlock < bytes.length then .refused .blockTooLong
  else
    perform (.writeBlock chipAddress registerAddress addressLength bytes)
      (writeBlockSteps s.cfg chipAddress registerAddress addressLength bytes) s

/-- R194; the failure kind of the `readBlock` is kept (90_conflicts.md C2). -/
def execProbe (chipAddress : BitVec 7) (s : State) : Host.Outcome State Fault Refusal :=
  perform (.probe chipAddress) (probeSteps s.cfg chipAddress) s

end Sys2Proof.Machine
end

