-- ==== Sys2Proof/Machine/Dispatch.lean ====
section
/-! DEFINITION. One arm per instruction. -/

namespace Sys2Proof.Machine

/-- The meaning of an instruction. -/
def exec (i : Instr) (s : State) : Host.Outcome State Fault Refusal :=
  match i with
  | .selectBus busIndex => Sys2Proof.Machine.execSelectBus busIndex s
  | .currentBus => Sys2Proof.Machine.execCurrentBus s
  | .initController requestedClockHz slaveAddress => Sys2Proof.Machine.execInitController requestedClockHz slaveAddress s
  | .readBlock chipAddress registerAddress addressLength length => Sys2Proof.Machine.execReadBlock chipAddress registerAddress addressLength length s
  | .writeBlock chipAddress registerAddress addressLength bytes => Sys2Proof.Machine.execWriteBlock chipAddress registerAddress addressLength bytes s
  | .probe chipAddress => Sys2Proof.Machine.execProbe chipAddress s
  | .readRegister offset => Sys2Proof.Machine.execReadRegister offset s
  | .writeRegister offset byte => Sys2Proof.Machine.execWriteRegister offset byte s
  | .sendByte value start stop => Sys2Proof.Machine.execSendByte value start stop s
  | .sendStop => Sys2Proof.Machine.execSendStop s
  | .awaitBusNotBusy timeoutBudget => Sys2Proof.Machine.execAwaitBusNotBusy timeoutBudget s
  | .awaitTransferComplete ackExpectation timeoutBudget => Sys2Proof.Machine.execAwaitTransferComplete ackExpectation timeoutBudget s
  | .readByte stop => Sys2Proof.Machine.execReadByte stop s
  | .resetBus => Sys2Proof.Machine.execResetBus s
  | .startAddressed chipAddress isRead => Sys2Proof.Machine.execStartAddressed chipAddress isRead s
  | .addressWithOffset chipAddress registerAddress addressLength isRead => Sys2Proof.Machine.execAddressWithOffset chipAddress registerAddress addressLength isRead s
  | .cmdWr => Sys2Proof.Machine.execCmdWr s
  | .cmdWrStart => Sys2Proof.Machine.execCmdWrStart s
  | .cmdWrStop => Sys2Proof.Machine.execCmdWrStop s
  | .cmdWrStartStop => Sys2Proof.Machine.execCmdWrStartStop s
  | .cmdRd => Sys2Proof.Machine.execCmdRd s
  | .cmdRdLast => Sys2Proof.Machine.execCmdRdLast s
  | .cmdStop => Sys2Proof.Machine.execCmdStop s
  | .cmdResetRd => Sys2Proof.Machine.execCmdResetRd s
  | .cmdIack => Sys2Proof.Machine.execCmdIack s
  | .addrW chipAddress => Sys2Proof.Machine.execAddrW chipAddress s
  | .addrR chipAddress => Sys2Proof.Machine.execAddrR chipAddress s
  | .ctrDisable => Sys2Proof.Machine.execCtrDisable s
  | .ctrEnable => Sys2Proof.Machine.execCtrEnable s

end Sys2Proof.Machine
end

