-- ==== Sys2Proof/Machine/Sequencer.lean ====
section
/-! DEFINITION. The sequencer one register access at a time (spec/10_state.md R43; 92_eei_decisions.md D32:
one access is one step): the same steps as the meanings run, with `PHASE` standing between two accesses; the
fetch of the host's next request (R22). -/

namespace Sys2Proof.Machine

namespace State

/-- R43: `PHASE <- RUN(op, position, callers)`. -/
def setPhase (s : State) (p : Phase) : State := { s with phase := p }

/-- Moves on to the next access, or to the end of the operation, with everything in between that accesses
no register: an operation with no steps left ends (R46), `raise` ends it (R271), a wait clears `POLL_CNT`
(R162, R163) and, with budget 0, fails at once. -/
def settle (i : Instr) (rest : List SeqStep) (s : State) : State :=
  match rest with
  | [] => s.succeed
  | .raise k :: _ => s.failWith i k
  | .awaitNotBusy 0 :: _ => (s.setPoll 0).failWith i .busy
  | .awaitNotBusy (_ + 1) :: _ => (s.setPoll 0).setPhase (.run i rest)
  | .awaitComplete _ 0 :: _ => (s.setPoll 0).failWith i .timeout
  | .awaitComplete _ (_ + 1) :: _ => (s.setPoll 0).setPhase (.run i rest)
  | .write _ _ :: _ => s.setPhase (.run i rest)
  | .read _ _ :: _ => s.setPhase (.run i rest)

/-- The next register access of the operation in progress, on instance `b`. -/
def accessOn (b : BusId) (i : Instr) (rest : List SeqStep) (s : State) : State :=
  match rest with
  | [] => s.succeed
  | .raise k :: _ => s.failWith i k
  | .write off v :: ms => (s.regWrite b off v).settle i ms
  | .read off d :: ms => ((s.regRead b off).deliver d (s.answer b off)).settle i ms
  | .awaitNotBusy n :: ms =>
    if SR.busy (s.answer b .crSr) then
      if s.pollCnt + 1 < n then s.pollRead b else (s.pollRead b).failWith i .busy
    else (s.pollRead b).settle i ms
  | .awaitComplete e n :: ms =>
    if SR.arbLost (s.answer b .crSr) then (s.pollRead b).failWith i .arbitrationLost
    else if SR.tip (s.answer b .crSr) then
      if s.pollCnt + 1 < n then s.pollRead b else (s.pollRead b).failWith i .timeout
    else
      match ackJudge e (SR.rxack (s.answer b .crSr)) with
      | .violated => (s.pollRead b).settle i (sendStopSteps ++ [.raise .notAcknowledged])
      | .met => (s.pollRead b).settle i ms

end State

/-- The machine in `RUN`: one register access of the operation in progress (R295: nothing can cancel it). -/
def advance (i : Instr) (rest : List SeqStep) (s : State) : Host.Outcome State Fault Refusal :=
  withActiveBus s fun b => .next (s.accessOn b i rest)

/-- The steps of each operation; none for the operations and rows that run without `PHASE` leaving `IDLE`. -/
def stepsOf (p : Params) : Instr → List SeqStep
  | .selectBus _ => []
  | .currentBus => []
  | .initController hz _ =>
    match prescaler p.inputClockHz hz with
    | none => []
    | some prer => initSteps p prer
  | .readBlock c r n m => readBlockSteps p c r n m
  | .writeBlock c r n bs => writeBlockSteps p c r n bs
  | .probe c => probeSteps p c
  | .readRegister n =>
    match offsetOf n with
    | none => []
    | some off => readRegisterSteps off
  | .writeRegister n b =>
    match offsetOf n with
    | none => []
    | some off => writeRegisterSteps off b
  | .sendByte v st sp => sendByteSteps v st sp
  | .sendStop => sendStopSteps
  | .awaitBusNotBusy n => [.awaitNotBusy n]
  | .awaitTransferComplete e n =>
    match ackOfBits e with
    | none => []
    | some e => [.awaitComplete e n]
  | .readByte sp => readByteSteps p sp .outByte
  | .resetBus => resetBusSteps p
  | .startAddressed c d => startAddressedSteps p c d
  | .addressWithOffset c r n d => addressWithOffsetSteps p c r n d
  | .cmdWr | .cmdWrStart | .cmdWrStop | .cmdWrStartStop | .cmdRd | .cmdRdLast | .cmdStop | .cmdResetRd
  | .cmdIack | .addrW _ | .addrR _ | .ctrDisable | .ctrEnable => []

/-- The bus an operation runs on is chosen before its first access: only `initialize` chooses one (R220). -/
def State.chooseBus (i : Instr) (s : State) : State :=
  match i with
  | .initController _ _ => s.resolveBus
  | _ => s

/-- The state in which an admitted operation that makes register accesses stands before its first access:
operands latched, `PHASE` at its beginning. -/
def State.begun (i : Instr) (s : State) : State :=
  ((s.latch i).chooseBus i).settle i (stepsOf s.cfg i)

/-- The host's next request, and the state without it (R22). -/
def fetch (s : State) : Option (Encoded × State) :=
  match s.requests with
  | [] => none
  | w :: rest => some (w, { s with requests := rest })

/-- An idle step: with no request the sequencer waits in `IDLE` (R290); a word that is no row is refused. -/
def serve (run : Instr → State → Host.Outcome State Fault Refusal) (s : State) :
    Host.Outcome State Fault Refusal :=
  match fetch s with
  | none => .next s
  | some (w, s') =>
    match decode w with
    | .ok i => run i s'
    | .error e => .refused (.undecodable e)

end Sys2Proof.Machine
end

