-- ==== Sys2Proof/Machine/Step.lean ====
section
/-! DEFINITION. One step of the machine: between operations it serves the host's next request, and the
operation runs to its end (92_eei_decisions.md D3); inside an operation it makes the next register access. -/

namespace Sys2Proof.Machine

/-- One step. -/
def step (s : State) : Host.Outcome State Fault Refusal :=
  match s.phase with
  | .idle => serve exec s
  | .run i rest => advance i rest s

/-- The word an opcode-table row stands for, made the host's next request, with the sequencer idle. -/
def State.withFetchWord (s : State) (nbits w : Nat) : State :=
  { s with phase := .idle, requests := tableWord nbits w :: s.requests }

end Sys2Proof.Machine
end

