-- ==== Sys2Proof/Machine/Wire.lean ====
section
/-! DEFINITION. What the register writes ask of the bus (spec/45_controller_environment.md R243,
spec/43_transaction_protocol.md R196): a reading of the access trace. The machine does not depend on it. -/

namespace Sys2Proof.Machine

/-- What a command byte asks of the controller (R243), bit by bit. -/
structure CommandAsk where
  /-- START: a start condition before the byte -/
  start : Bool
  /-- STOP: a stop condition after the byte, or alone -/
  stop : Bool
  /-- READ: receive one byte into RXR -/
  read : Bool
  /-- WRITE: transmit the byte in TXR -/
  write : Bool
  /-- ACK set: the master answers a received byte with a not-acknowledge -/
  notAcknowledge : Bool
  /-- SLAVE-CONT: slave mode, not described (R249) -/
  slaveCont : Bool
  /-- IRQ-ACK: acknowledge a pending interrupt (R248) -/
  irqAck : Bool
deriving DecidableEq, Repr

/-- R102, R243: the request of a command byte. -/
def commandAsk (c : Byte) : CommandAsk where
  start := maskSet c CR.start
  stop := maskSet c CR.stop
  read := maskSet c CR.read
  write := maskSet c CR.write
  notAcknowledge := maskSet c CR.ack
  slaveCont := maskSet c CR.slaveCont
  irqAck := maskSet c CR.irqAck

/-- One framing request (R196). A `start` with no `stop` before it since the last `start` is a repeated one. -/
inductive WireItem where
  /-- `S` or `Sr` -/
  | start
  /-- a byte sent -/
  | send (v : Byte)
  /-- a byte received, answered with acknowledge (`a`) or not-acknowledge (`N`) -/
  | receive (notAcknowledge : Bool)
  /-- `P` -/
  | stop
deriving DecidableEq, Repr

/-- R243: what one command asks, in the order start, byte, stop, when TXR holds `txr`. The order is R243's for the
commands of R112, the only ones an operation writes. What the others ask is open (R124); DESIGN CHOICE, log 23: START
with neither READ nor WRITE is read as a bare start, READ with WRITE as a byte sent and then a byte received, no
bit at all as nothing. -/
def commandItems (txr c : Byte) : List WireItem :=
  (if (commandAsk c).start then [.start] else []) ++
  (if (commandAsk c).write then [.send txr] else []) ++
  (if (commandAsk c).read then [.receive (commandAsk c).notAcknowledge] else []) ++
  (if (commandAsk c).stop then [.stop] else [])

/-- R196: the framing requests of a trace, when TXR holds `txr` before it. -/
def wireItems : Byte → List Access → List WireItem
  | _, [] => []
  | txr, .write _ .crSr c :: rest => commandItems txr c ++ wireItems txr rest
  | _, .write _ .txrRxr v :: rest => wireItems v rest
  | txr, .write _ .prerLo _ :: rest => wireItems txr rest
  | txr, .write _ .prerHi _ :: rest => wireItems txr rest
  | txr, .write _ .ctr _ :: rest => wireItems txr rest
  | txr, .write _ .sladr _ :: rest => wireItems txr rest
  | txr, .read _ _ _ :: rest => wireItems txr rest

end Sys2Proof.Machine
end

