-- ==== Sys2Proof/Safety.lean ====
section
/-! DEFINITION. The terms claims use: when a request is legal (spec/30_encoding.md R123), the invariant of
the machine, the answers a wait meets (spec/45_controller_environment.md R252) and the bounds on accesses
(R242). -/

namespace Sys2Proof.Machine

/-! ## Legal requests -/

/-- The operations that make a register access whatever their operands: all but `selectBus`, `currentBus`
and `initialize` (R123 (e)). -/
def needsBus : Instr → Bool
  | .selectBus _ | .currentBus | .initController _ _ => false
  | .readBlock _ _ _ _ | .writeBlock _ _ _ _ | .probe _ | .readRegister _ | .writeRegister _ _
  | .sendByte _ _ _ | .sendStop | .awaitBusNotBusy _ | .awaitTransferComplete _ _ | .readByte _ | .resetBus
  | .startAddressed _ _ | .addressWithOffset _ _ _ _ | .cmdWr | .cmdWrStart | .cmdWrStop | .cmdWrStartStop
  | .cmdRd | .cmdRdLast | .cmdStop | .cmdResetRd | .cmdIack | .addrW _ | .addrR _ | .ctrDisable
  | .ctrEnable => true

/-- The number of data bytes of a block operation (R123 (c)); 0 for the others. -/
def blockLength : Instr → Nat
  | .readBlock _ _ _ m => m
  | .writeBlock _ _ _ bs => bs.length
  | _ => 0

/-- R123: a request that is refused. -/
abbrev Illegal (i : Instr) (s : State) : Prop :=
  s.phase ≠ .idle ∨ wellFormed i = false ∨ s.cfg.maxBlock < blockLength i ∨
    (needsBus i = true ∧ s.activeBase = none)

/-- Between operations, with instance `b` active: what an operation that makes a register access needs. -/
structure Ready (s : State) (b : BusId) : Prop where
  valid : s.cfg.Valid
  idle : s.phase = .idle
  active : s.activeBase = some (baseOf s.cfg b)

/-! ## The invariant -/

/-- R142: at every moment `ACTIVE_BASE` is unset, `BASE[0]` or `BASE[1]`. -/
abbrev SelectorOk (s : State) : Prop :=
  s.activeBase = none ∨ s.activeBase = some s.cfg.base0 ∨ s.activeBase = some s.cfg.base1

/-- The bytes of `DATA_BUF` that steps are still to deliver. -/
def pendingBytes : List SeqStep → Nat
  | [] => 0
  | .read _ .dataBuf :: ms => pendingBytes ms + 1
  | _ :: ms => pendingBytes ms

/-- R47: `DATA_BUF` holds at most `MAX_BLOCK` bytes, those still to come among them. -/
abbrev BufferOk (s : State) : Prop :=
  match s.phase with
  | .idle => s.dataBuf.length ≤ s.cfg.maxBlock
  | .run _ rest => s.dataBuf.length + pendingBytes rest ≤ s.cfg.maxBlock

/-- R45, R167: at a register access, and inside a wait below its budget. -/
abbrev AtAccess (pollCnt : Nat) : List SeqStep → Prop
  | .write _ _ :: _ => True
  | .read _ _ :: _ => True
  | .awaitNotBusy n :: _ => pollCnt < n
  | .awaitComplete _ n :: _ => pollCnt < n
  | .raise _ :: _ => False
  | [] => False

/-- R43: while an operation runs, a bus is active and the sequencer stands before a register access. -/
abbrev PhaseOk (s : State) : Prop :=
  match s.phase with
  | .idle => True
  | .run _ rest => s.activeBase ≠ none ∧ AtAccess s.pollCnt rest

/-- The invariant of the machine. -/
structure MachineInv (s : State) : Prop where
  valid : s.cfg.Valid
  selector : SelectorOk s
  buffer : BufferOk s
  phase : PhaseOk s

/-! ## What a wait meets -/

/-- The value the `n`-th of successive status reads is answered, counting from 0 (R167). -/
def statusAnswer (b : BusId) : Nat → State → Byte
  | 0, s => s.answer b .crSr
  | n + 1, s => statusAnswer b n (s.pollRead b)

/-- The trace of `n` successive status reads (R21). -/
def statusReads (b : BusId) : Nat → State → List Access
  | 0, _ => []
  | n + 1, s => .read (baseOf s.cfg b) .crSr (s.answer b .crSr) :: statusReads b n (s.pollRead b)

/-- The state after `n` successive status reads (R167). -/
def afterPolls (b : BusId) : Nat → State → State
  | 0, s => s
  | n + 1, s => afterPolls b n (s.pollRead b)

/-- BUSY set in the first `k` status values (R162): the wait goes on. -/
def StillBusy (b : BusId) (k : Nat) (s : State) : Prop := ∀ j < k, SR.busy (statusAnswer b j s) = true

/-- The first status value with BUSY clear is the `k`-th (R162). -/
def NotBusyAt (b : BusId) (k : Nat) (s : State) : Prop :=
  StillBusy b k s ∧ SR.busy (statusAnswer b k s) = false

/-- TIP set and ARB-LOST clear in the first `k` status values (R163): the wait goes on. -/
def StillTransferring (b : BusId) (k : Nat) (s : State) : Prop :=
  ∀ j < k, SR.arbLost (statusAnswer b j s) = false ∧ SR.tip (statusAnswer b j s) = true

/-- The `k`-th status value shows the transfer complete, arbitration kept until then (R163). -/
def CompleteAt (b : BusId) (k : Nat) (s : State) : Prop :=
  StillTransferring b k s ∧ SR.arbLost (statusAnswer b k s) = false ∧ SR.tip (statusAnswer b k s) = false

/-- The `k`-th status value is the first with ARB-LOST set, the transfer still under way until then. -/
def ArbLostAt (b : BusId) (k : Nat) (s : State) : Prop :=
  StillTransferring b k s ∧ SR.arbLost (statusAnswer b k s) = true

/-- R252, `NotBusyWithin(k)`: among the first `k` status reads one has BUSY clear. -/
def NotBusyWithin (b : BusId) (k : Nat) (s : State) : Prop := ∃ j < k, SR.busy (statusAnswer b j s) = false

/-- R252, `CompletesWithin(k)`: among the first `k` status reads one has TIP clear. The reads are counted as if the
wait went on (log 27, DESIGN CHOICE): one that ends at a set ARB-LOST makes fewer. -/
def CompletesWithin (b : BusId) (k : Nat) (s : State) : Prop := ∃ j < k, SR.tip (statusAnswer b j s) = false

/-- The `k`-th status value is the first with TIP clear. -/
def FirstTipClear (b : BusId) (k : Nat) (s : State) : Prop :=
  (∀ j < k, SR.tip (statusAnswer b j s) = true) ∧ SR.tip (statusAnswer b k s) = false

/-- R252, `NoArbLoss`: no status read up to and including the first with TIP clear has ARB-LOST set. The rule leaves
open what it says where no status value shows TIP clear. DESIGN CHOICE, log 27: it then holds, even with ARB-LOST set
in one of them, and reads are counted as if the wait went on. Statements take it only together with `CompletesWithin`
(`StepPremises`), where neither matters. -/
def NoArbLoss (b : BusId) (s : State) : Prop :=
  ∀ k, FirstTipClear b k s → ∀ j ≤ k, SR.arbLost (statusAnswer b j s) = false

/-- R252, `Acked`, for any expectation: the status value that first shows TIP clear meets it (R164). Where none shows
TIP clear it holds, as `NoArbLoss` does (DESIGN CHOICE, log 27). -/
def AckMet (b : BusId) (e : AckExpectation) (s : State) : Prop :=
  ∀ k, FirstTipClear b k s → ackJudge e (SR.rxack (statusAnswer b k s)) = .met

/-- R252: the premises of one step, in the state in which it begins. `NoArbLoss` and `AckMet` stand beside
`CompletesWithin` only, so some status value shows TIP clear where they are judged (log 27). -/
def StepPremises (b : BusId) (m : SeqStep) (s : State) : Prop :=
  match m with
  | .write _ _ => True
  | .read _ _ => True
  | .awaitNotBusy n => NotBusyWithin b n s
  | .awaitComplete e n => CompletesWithin b n s ∧ NoArbLoss b s ∧ AckMet b e s
  | .raise _ => False

/-- R252: the premises of every wait of an operation, each in the state in which the wait begins. -/
def Premises (b : BusId) : List SeqStep → State → Prop
  | [], _ => True
  | m :: ms, s => StepPremises b m s ∧ Premises b ms (runStep b m s).1

/-! ## Bounds and closed sets -/

/-- R242: the upper bounds on the number of accesses of an operation; a row of the byte formats is one write. -/
def accessBound (p : Params) : Instr → Nat
  | .selectBus _ => 0
  | .currentBus => 0
  | .initController _ _ => p.budgetBusy + 7
  | .readBlock _ _ n m => p.budgetBusy + (n + 2) * (p.budgetXfer + 3) + m * (p.budgetXfer + 2)
  | .writeBlock _ _ n bs => p.budgetBusy + (n + 1 + bs.length) * (p.budgetXfer + 3)
  | .probe _ => p.budgetBusy + 3 * (p.budgetXfer + 3) + (p.budgetXfer + 2)
  | .readRegister _ => 1
  | .writeRegister _ _ => 1
  | .sendByte _ _ _ => 2
  | .sendStop => 1
  | .awaitBusNotBusy b => b
  | .awaitTransferComplete _ b => b + 1
  | .readByte _ => p.budgetXfer + 2
  | .resetBus => p.budgetBusy + 2
  | .startAddressed _ _ => p.budgetXfer + 3
  | .addressWithOffset _ _ n _ => (n + 2) * (p.budgetXfer + 3)
  | .cmdWr | .cmdWrStart | .cmdWrStop | .cmdWrStartStop | .cmdRd | .cmdRdLast | .cmdStop | .cmdResetRd
  | .cmdIack | .addrW _ | .addrR _ | .ctrDisable | .ctrEnable => 1

/-- R112: the closed set of values the sequencer ever writes to CR. -/
def commandSet : List Byte := [0x10, 0x90, 0x50, 0xD0, 0x20, 0x68, 0x41, 0x28, 0x01]

/-- The operations that change `ACTIVE_BASE` (R42). -/
def mayActivate : Instr → Bool
  | .selectBus _ | .initController _ _ => true
  | _ => false

/-- The operations that change `OUT_BYTE` (R48). -/
def mayOutByte : Instr → Bool
  | .readRegister _ | .readByte _ => true
  | _ => false

/-- The operations that use `DATA_BUF` (R47). -/
def mayBuffer : Instr → Bool
  | .readBlock _ _ _ _ | .writeBlock _ _ _ _ | .probe _ => true
  | _ => false

/-- The register write a row of formats CR, ADDR and CTR stands for (R101, R105, R112). -/
def rowByte : Instr → Option (RegOffset × Byte)
  | .cmdWr => some (.crSr, 0x10)
  | .cmdWrStart => some (.crSr, 0x90)
  | .cmdWrStop => some (.crSr, 0x50)
  | .cmdWrStartStop => some (.crSr, 0xD0)
  | .cmdRd => some (.crSr, 0x20)
  | .cmdRdLast => some (.crSr, 0x68)
  | .cmdStop => some (.crSr, 0x41)
  | .cmdResetRd => some (.crSr, 0x28)
  | .cmdIack => some (.crSr, 0x01)
  | .addrW c => some (.txrRxr, c ++ 0#1)
  | .addrR c => some (.txrRxr, c ++ 1#1)
  | .ctrDisable => some (.ctr, 0x00)
  | .ctrEnable => some (.ctr, 0x80)
  | _ => none

/-- The operations that clear and count `POLL_CNT` (R45): those that hold a wait. -/
def mayPoll : Instr → Bool
  | .initController _ _ | .readBlock _ _ _ _ | .writeBlock _ _ _ _ | .probe _ | .awaitBusNotBusy _
  | .awaitTransferComplete _ _ | .readByte _ | .resetBus | .startAddressed _ _
  | .addressWithOffset _ _ _ _ => true
  | _ => false

/-- Which operation writes which register (R32 to R39). -/
def mayWrite : Instr → RegOffset → Bool
  | .initController _ _, off => off = .prerLo || off = .prerHi || off = .ctr || off = .crSr
  | .writeRegister n _, off => offsetOf n = some off
  | .sendByte _ _ _, off | .startAddressed _ _, off | .addressWithOffset _ _ _ _, off
  | .readBlock _ _ _ _, off | .writeBlock _ _ _ _, off | .probe _, off => off = .txrRxr || off = .crSr
  | .sendStop, off | .awaitTransferComplete _ _, off | .readByte _, off | .resetBus, off => off = .crSr
  | .selectBus _, _ | .currentBus, _ | .readRegister _, _ | .awaitBusNotBusy _, _ => false
  | i, off => (rowByte i).map Prod.fst = some off

/-- Which operation reads which register (R32 to R39). -/
def mayRead : Instr → RegOffset → Bool
  | .readRegister n, off => offsetOf n = some off
  | .readByte _, off | .readBlock _ _ _ _, off | .probe _, off => off = .txrRxr || off = .crSr
  | .initController _ _, off | .awaitBusNotBusy _, off | .awaitTransferComplete _ _, off | .resetBus, off
  | .startAddressed _ _, off | .addressWithOffset _ _ _ _, off | .writeBlock _ _ _ _, off => off = .crSr
  | _, _ => false

/-- The write-side register of an offset (R31). -/
def writeSide (c : Controller) : RegOffset → Byte
  | .prerLo => c.prerLo
  | .prerHi => c.prerHi
  | .ctr => c.ctr
  | .txrRxr => c.txr
  | .crSr => c.cr
  | .sladr => c.sladr

/-- The last byte a trace writes to an offset, if any, else `old`. -/
def lastWritten (off : RegOffset) : List Access → Byte → Byte
  | [], old => old
  | .write _ o v :: rest, old => lastWritten off rest (if o = off then v else old)
  | .read _ _ _ :: rest, old => lastWritten off rest old

/-- The writes of a trace, in order. -/
def writesOf : List Access → List (RegOffset × Byte)
  | [] => []
  | .write _ off v :: rest => (off, v) :: writesOf rest
  | .read _ _ _ :: rest => writesOf rest

/-- The bytes a trace reads from RXR, in order. -/
def receivedOf : List Access → List Byte
  | [] => []
  | .read _ .txrRxr v :: rest => v :: receivedOf rest
  | .read _ _ _ :: rest => receivedOf rest
  | .write _ _ _ :: rest => receivedOf rest

/-- The writes of the address phase (R190, R191): the address byte with START, the register-address bytes as
body bytes, for a read the repeated start. -/
def addressWrites (c : BitVec 7) (r : BitVec 32) (n : Nat) (d : Direction) : List (RegOffset × Byte) :=
  [(.txrRxr, c ++ 0#1), (.crSr, 0x90)] ++
    (regAddrBytes r n).flatMap (fun v => [(.txrRxr, v), (.crSr, 0x10)]) ++
    match d with
    | .read => [(.txrRxr, c ++ 1#1), (.crSr, 0x90)]
    | .write => []

/-- The writes of the data phase of `writeBlock` (R193): every byte a body byte, the last with STOP. -/
def payloadWrites : List Byte → List (RegOffset × Byte)
  | [] => []
  | [v] => [(.txrRxr, v), (.crSr, 0x50)]
  | v :: w :: rest => [(.txrRxr, v), (.crSr, 0x10)] ++ payloadWrites (w :: rest)

/-- R250: the instance answers as the ideal environment does: SimBlock with `srQ` empty and `srDefault` 0x00. R250
leaves the receive answers open, so they are parameters here: the queue `rxQ` and the default `rxDefault`. -/
def IdealEnv (b : BusId) (rxQ : List Byte) (rxDefault : Byte) (s : State) : Prop :=
  (s.ctl b).env = .sim { srQ := [], srDefault := 0x00, rxQ := rxQ, rxDefault := rxDefault }

/-- R250: the answers SimBlock gives to `m` receive reads: from `rxQ`, then `rxDefault`. -/
def simReceived (rxQ : List Byte) (rxDefault : Byte) (m : Nat) : List Byte :=
  rxQ.take m ++ List.replicate (m - rxQ.length) rxDefault

/-- The trace of one byte sent in the ideal environment: TXR, CR, one status read (R190, R191, R193). -/
def idealSend (base : Addr) (v cmd : Byte) : List Access :=
  [.write base .txrRxr v, .write base .crSr cmd, .read base .crSr 0x00]

/-- The trace of one byte received in the ideal environment: CR, one status read, RXR (R165). -/
def idealReceive (base : Addr) (cmd v : Byte) : List Access :=
  [.write base .crSr cmd, .read base .crSr 0x00, .read base .txrRxr v]

/-- The trace of the address phase in the ideal environment (R191). -/
def idealAddress (base : Addr) (c : BitVec 7) (r : BitVec 32) (n : Nat) (d : Direction) : List Access :=
  idealSend base (c ++ 0#1) 0x90 ++ (regAddrBytes r n).flatMap (fun v => idealSend base v 0x10) ++
    match d with
    | .read => idealSend base (c ++ 1#1) 0x90
    | .write => []

/-- The trace of the received bytes in the ideal environment, the last one terminal (R192). -/
def idealReceiveAll (base : Addr) : List Byte → List Access
  | [] => []
  | [v] => idealReceive base 0x68 v
  | v :: w :: rest => idealReceive base 0x20 v ++ idealReceiveAll base (w :: rest)

/-- The trace of the payload in the ideal environment, the last byte with STOP (R193). -/
def idealSendAll (base : Addr) : List Byte → List Access
  | [] => []
  | [v] => idealSend base v 0x50
  | v :: w :: rest => idealSend base v 0x10 ++ idealSendAll base (w :: rest)

/-- The register writes of an operation in pseudocode order, all of which are made when every wait of it meets its
premises (R160, R161, R165, R166, R190 to R194, R220; the command bytes are the readings D8 to D11, log 14). The
byte rows are `rowByte`. -/
def operationWrites (p : Params) : Instr → List (RegOffset × Byte)
  | .initController hz _ =>
    match prescaler p.inputClockHz hz with
    | none => []
    | some prer => [(.ctr, 0x00), (.crSr, 0x01), (.prerLo, prescalerLo prer), (.prerHi, prescalerHi prer),
        (.ctr, 0x80), (.crSr, 0x28), (.crSr, 0x41)]
  | .readBlock c r n m =>
    addressWrites c r n .read ++ List.replicate (m - 1) (.crSr, 0x20) ++ (if m = 0 then [] else [(.crSr, 0x68)])
  | .writeBlock c r n bs => addressWrites c r n .write ++ payloadWrites bs
  | .probe c => addressWrites c 0 1 .read ++ [(.crSr, 0x68)]
  | .writeRegister n v =>
    match offsetOf n with
    | none => []
    | some off => [(off, v)]
  | .sendByte v start stop => [(.txrRxr, v),
      (.crSr, 0x10#8 ||| (if start then 0x80#8 else 0#8) ||| (if stop then 0x40#8 else 0#8))]
  | .sendStop => [(.crSr, 0x41)]
  | .readByte stop => [(.crSr, if stop then 0x68 else 0x20)]
  | .resetBus => [(.crSr, 0x28), (.crSr, 0x41)]
  | .startAddressed c d => [(.txrRxr, c ++ directionBit d), (.crSr, 0x90)]
  | .addressWithOffset c r n d => addressWrites c r n d
  | i => (rowByte i).toList

/-- The commands among some writes that ask for a data byte (R108). -/
def dataReads (w : List (RegOffset × Byte)) : Nat := w.countP fun x => x == (.crSr, 0x20) || x == (.crSr, 0x68)

/-- No write at all, or a command last: where every transfer-complete wait stands (R160, R165, R190). -/
def EndsInCommand (w : List (RegOffset × Byte)) : Prop := w = [] ∨ ∃ w' v, w = w' ++ [(.crSr, v)]

/-- The acknowledge expectation an operation can find violated (R165, R190, R191, R193): a host's own in
`awaitTransferComplete`, RequireAck in the operations that send address or payload bytes. -/
def judgedExpectation : Instr → Option AckExpectation
  | .awaitTransferComplete bits _ => ackOfBits bits
  | .startAddressed _ _ | .addressWithOffset _ _ _ _ | .readBlock _ _ _ _ | .writeBlock _ _ _ _
  | .probe _ => some .requireAck
  | .selectBus _ | .currentBus | .initController _ _ | .readRegister _ | .writeRegister _ _ | .sendByte _ _ _
  | .sendStop | .awaitBusNotBusy _ | .readByte _ | .resetBus | .cmdWr | .cmdWrStart | .cmdWrStop
  | .cmdWrStartStop | .cmdRd | .cmdRdLast | .cmdStop | .cmdResetRd | .cmdIack | .addrW _ | .addrR _
  | .ctrDisable | .ctrEnable => none

/-- The budget of the bus-not-busy wait an operation holds (R169). -/
def busyBudget (p : Params) : Instr → Nat
  | .awaitBusNotBusy n => n
  | _ => p.budgetBusy

/-- The budget of the transfer-complete waits an operation holds (R169). -/
def xferBudget (p : Params) : Instr → Nat
  | .awaitTransferComplete _ n => n
  | _ => p.budgetXfer

/-- The next state of an outcome, when there is one. -/
def nextState : Host.Outcome State Fault Refusal → Option State
  | .next t => some t
  | .fault _ => none
  | .refused _ => none

/-- A safe outcome: the machine has a next state. -/
abbrev Safe (o : Host.Outcome State Fault Refusal) : Prop := (nextState o).isSome

/-- Two states that differ at most in what reset leaves unspecified: the contents of the register blocks,
the operand registers, `POLL_CNT`, `RESULT`, `DATA_BUF`, `OUT_INDEX`, `OUT_BYTE` (R52), and in how many free
values were drawn. The environments and the history are the same. -/
structure SameButUnspecified (s t : State) : Prop where
  cfg : t.cfg = s.cfg
  env0 : t.ctl0.env = s.ctl0.env
  env1 : t.ctl1.env = s.ctl1.env
  activeBase : t.activeBase = s.activeBase
  phase : t.phase = s.phase
  requests : t.requests = s.requests
  history : t.history = s.history

end Sys2Proof.Machine
end

