-- ==== Sys2Proof/Certificates/Slice0/Obligations.lean ====
section
/-! DEFINITION. The statements for the provers. Every statement quantifies over all states, so over all
parameters, all environments (`free`, every script of answers, every SimBlock) and all contents of the
registers that reset leaves unspecified. -/

open Sys2Proof
open Sys2Proof.Machine

/-! ## Reset and the step -/

/-- R290, R52: after reset `ACTIVE_BASE` is unset and `PHASE` is `IDLE` (the model's form of `PHASE`, log 26); no
access has been made (the history is the record of R21's trace). -/
def Obligations.ResetSelectsNoBusAndIsIdle : Prop :=
  State.reset.activeBase = none ∧ State.reset.phase = .idle ∧ State.reset.history = []

/-- The invariant holds after reset (the register values there are the model's, log 3). The parameters are log 2,
`MAX_BLOCK` at least 1 is log 9, `DATA_BUF` as a list is log 19. -/
def Obligations.ResetMeetsTheInvariant : Prop := MachineInv State.reset

/-- Between operations a step takes the host's next request (R22) and is exec of the instruction it decodes to
(R115), at the state without that request. That one step then runs the whole operation is the model's choice (log 1,
DESIGN CHOICE, beside the one access of D32), and so is the queue of requests (log 8, DESIGN CHOICE). -/
def Obligations.StepRunsTheDecodedInstruction : Prop :=
  ∀ (s : State) (w : Encoded) (rest : List Encoded) (i : Instr), s.phase = .idle → s.requests = w :: rest →
    decode w = .ok i → step s = exec i { s with requests := rest }

/-- With no request the sequencer waits in `IDLE` (R290; the queue is log 8, DESIGN CHOICE). A word that is no row is
refused by name: the model's choice (log 12, DESIGN CHOICE; that bytes can be presented alone is log 11, DESIGN
CHOICE), which no rule states. -/
def Obligations.StepWaitsAndRefusesNonRows : Prop :=
  (∀ s : State, s.phase = .idle → s.requests = [] → step s = .next s) ∧
  (∀ (s : State) (w : Encoded) (rest : List Encoded) (e : DecodeError), s.phase = .idle →
    s.requests = w :: rest → decode w = .error e → step s = .refused (.undecodable e))

/-- D32, R43, R87: inside an operation every step makes exactly one register access, at the active base. (`PHASE` as
a list of steps to come is log 26, the two sizes of a step log 1, both DESIGN CHOICE.) -/
def Obligations.StepInsideAnOperationIsOneAccess : Prop :=
  ∀ (s : State) (i : Instr) (rest : List SeqStep), MachineInv s → s.phase = .run i rest →
    ∃ t a, step s = .next t ∧ t.history = s.history ++ [a] ∧ s.activeBase = some a.base

/-- D32, R43: the operation as one step is the operation made one register access at a time. From the state
in which the admitted operation stands before its first access, as many steps as it makes accesses lead to
exactly the state the meaning gives. (The two sizes of a step are log 1, DESIGN CHOICE.) -/
def Obligations.OperationIsItsAccessesOneByOne : Prop :=
  ∀ (i : Instr) (s t : State), stepsOf s.cfg i ≠ [] → exec i s = .next t →
    Host.Core.run Sys2Proof.core (t.history.length - s.history.length) (s.begun i) = .next t

/-- R142 and the model's invariant: every step keeps it, from every state that meets it. The invariant is over the
model's forms: `PHASE` as steps to come is log 26 (DESIGN CHOICE), `DATA_BUF` as a list log 19 (DEDUCED), the
parameters logs 2 and 9 (DESIGN CHOICE), the size of a step log 1 (DESIGN CHOICE). -/
def Obligations.StepKeepsTheInvariant : Prop :=
  ∀ s t : State, MachineInv s → step s = .next t → MachineInv t

/-! ## Encodings -/

/-- Every instruction, with every operand, is decoded from its encoding. -/
def Obligations.DecodeOfEncodeIsTheInstruction : Prop := ∀ i : Instr, decode (encode i) = .ok i

/-- In the byte formats every word has one meaning: a byte that decodes to a row is that row's encoding. -/
def Obligations.EncodeOfDecodeIsTheByte : Prop :=
  (∀ (v : Byte) (i : Instr), decode (.cr v) = .ok i → encode i = .cr v) ∧
  (∀ (v : Byte) (i : Instr), decode (.addr v) = .ok i → encode i = .addr v) ∧
  (∀ (v : Byte) (i : Instr), decode (.ctr v) = .ok i → encode i = .ctr v)

/-- R115: the code selects the operation, whatever the operand inputs are; R112, R101, R105: exactly the listed
command bytes and control values are rows, and every byte is an address byte. (That the bytes are presented alone and
that others are rejected is the model's, log 11 and log 12, DESIGN CHOICE.) -/
def Obligations.DecoderAcceptsExactlyTheAssignedWords : Prop :=
  (∀ r : Request, ∃ i, decode (.req r) = .ok i) ∧
  (∀ v : Byte, (∃ i, decode (.cr v) = .ok i) ↔ v ∈ commandSet) ∧
  (∀ v : Byte, ∃ i, decode (.addr v) = .ok i) ∧
  (∀ v : Byte, (∃ i, decode (.ctr v) = .ok i) ↔ v = 0x00 ∨ v = 0x80)

/-- Words written out from the tables of R115, R112, R105 and R101 decode to the rows they stand for. -/
def Obligations.KnownWordsDecode : Prop :=
  decode (.req { op := 0b0011#4, chipAddress := 0x50, registerAddress := 0xFA, addressLength := 1, length := 6 })
    = .ok (.readBlock 0x50 0xFA 1 6) ∧
  decode (.req { op := 0b1000#4, value := 0x7E, start := 0#1, stop := 1#1 }) = .ok (.sendByte 0x7E false true) ∧
  decode (.req { op := 0b1110#4, chipAddress := 0x50, isRead := 1#1 }) = .ok (.startAddressed 0x50 .read) ∧
  decode (.cr 0b01101000#8) = .ok .cmdRdLast ∧ decode (.cr 0b10010000#8) = .ok .cmdWrStart ∧
  decode (.addr 0b10100001#8) = .ok (.addrR 0x50) ∧ decode (.ctr 0b10000000#8) = .ok .ctrEnable

/-- R77: the read/write bit is bit 0, the chip address occupies bits 7..1. -/
def Obligations.AddressByteHoldsChipAndDirection : Prop :=
  ∀ (c : BitVec 7) (d : Direction), (addrByte c d).extractLsb' 1 7 = c ∧
    ((addrByte c d).getLsbD 0 = true ↔ d = .read)

/-- R107, R108, R110, R111 (the spec's readings D8 to D11): the other command bytes. -/
def Obligations.CommandBytesOfTheOperations : Prop :=
  CR.sendByteCommand false false = 0x10 ∧ CR.sendByteCommand true false = 0x90 ∧
  CR.sendByteCommand false true = 0x50 ∧ CR.sendByteCommand true true = 0xD0 ∧
  CR.readByteCommand false = 0x20 ∧ CR.readByteCommand true = 0x68 ∧
  CR.resetReadCommand = 0x28 ∧ CR.irqAckCommand = 0x01

/-- R113: for `n` in 1..4 the bytes are `(registerAddress >> (8*k)) & 0xFF` for `k` from `n-1` down to 0, most
significant first; for `n = 0` there is none; and the rule's three examples. -/
def Obligations.RegisterAddressBytesMostSignificantFirst : Prop :=
  (∀ (r : BitVec 32) (n : Nat), (regAddrBytes r n).length = n ∧
    ∀ k < n, (regAddrBytes r n)[n - 1 - k]? = some (BitVec.ofNat 8 ((r.toNat >>> (8 * k)) % 256))) ∧
  regAddrBytes 0x1234 2 = [0x12, 0x34] ∧ regAddrBytes 0xFA 1 = [0xFA] ∧ regAddrBytes 0x1234 1 = [0x34]

/-- R70, R71: with valid parameters the effective address of a register of an instance is that register and
no other, and no other address holds a register. -/
def Obligations.RegisterAddressesAreUnambiguous : Prop :=
  ∀ (p : Params) (a : Addr) (b : BusId) (off : RegOffset), p.Valid →
    (locate p a = some (b, off) ↔ a = effectiveAddr (baseOf p b) off)

/-- R164 (with the spec's choice D15 for RequireNack): the table of the acknowledge detector. -/
def Obligations.AcknowledgeJudgementTable : Prop :=
  ackJudge .dontCare false = .met ∧ ackJudge .dontCare true = .met ∧
  ackJudge .requireAck false = .met ∧ ackJudge .requireAck true = .violated ∧
  ackJudge .requireNack false = .violated ∧ ackJudge .requireNack true = .met

/-- R103, R101: the bits of a status value and of a control value are at their masks. -/
def Obligations.StatusAndControlBitsAreAtTheirPlaces : Prop :=
  (∀ v : Byte, SR.rxack v = v.getLsbD 7 ∧ SR.busy v = v.getLsbD 6 ∧ SR.arbLost v = v.getLsbD 5 ∧
    SR.slaveMode v = v.getLsbD 4 ∧ SR.slaveDataAvail v = v.getLsbD 3 ∧ SR.slaveDataReq v = v.getLsbD 2 ∧
    SR.tip v = v.getLsbD 1 ∧ SR.irqFlag v = v.getLsbD 0) ∧
  (∀ v : Byte, CTR.coreEnable v = v.getLsbD 7 ∧ CTR.interruptEnable v = v.getLsbD 6 ∧
    CTR.slaveEnable v = v.getLsbD 5)

/-- R250: SimBlock answers status reads and receive reads from their queues, then with their defaults, and any other
read with 0x00. The environment is held per instance (log 22, DESIGN CHOICE). -/
def Obligations.SimBlockAnswersFromItsQueues : Prop :=
  ∀ (s : State) (b : BusId) (k : SimBlock), (s.ctl b).env = .sim k →
    s.answer b .crSr = k.srQ.headD k.srDefault ∧
    ((s.regRead b .crSr).ctl b).env = .sim { k with srQ := k.srQ.tail } ∧
    s.answer b .txrRxr = k.rxQ.headD k.rxDefault ∧
    ((s.regRead b .txrRxr).ctl b).env = .sim { k with rxQ := k.rxQ.tail } ∧
    (∀ off, off ≠ .crSr → off ≠ .txrRxr → s.answer b off = 0x00 ∧ ((s.regRead b off).ctl b).env = .sim k) ∧
    (∀ off v, ((s.regWrite b off v).ctl b).env = .sim k)

/-- R221, R222 (readings D12, D13): the prescaler, and the three cases in which there is none. D12 and D13 are log
17 (DESIGN CHOICE). -/
def Obligations.PrescalerExistsExactlyWhenRepresentable : Prop :=
  ∀ input hz : Nat,
    (prescaler input hz = none ↔ hz = 0 ∨ input / (5 * hz) = 0 ∨ 65535 < input / (5 * hz) - 1) ∧
    (∀ p, prescaler input hz = some p → p = input / (5 * hz) - 1 ∧ p ≤ 65535)

/-- R224: the generated clock is at least the requested one. The floored division is the spec's D13 (log 17, DESIGN
CHOICE). -/
def Obligations.GeneratedClockIsAtLeastTheRequested : Prop :=
  ∀ input hz p : Nat, prescaler input hz = some p → hz * (5 * (p + 1)) ≤ input

/-- R104: `PRERlo = P[7:0]` and `PRERhi = P[15:8]` of a 16-bit prescaler; P = 99 gives 0x63 and 0. -/
def Obligations.PrescalerSplit : Prop :=
  (∀ P : BitVec 16, prescalerLo P.toNat = P.extractLsb' 0 8 ∧ prescalerHi P.toNat = P.extractLsb' 8 8) ∧
  prescalerLo 99 = 0x63 ∧ prescalerHi 99 = 0x00 ∧
  offsetNat .prerLo = 0x0 ∧ offsetNat .prerHi = 0x1

/-! ## Requests -/

/-- R123: exactly the illegal requests are refused. R123 speaks of operations. That the thirteen byte rows are requests
at all, admitted while `PHASE` is `IDLE` and a bus is active and refused otherwise, is the model's choice (log 11,
DESIGN CHOICE); that their access is refused with no base is R71. That a refusal ends the run under a name is log 12
(DESIGN CHOICE). -/
def Obligations.ExactlyIllegalRequestsAreRefused : Prop :=
  ∀ (i : Instr) (s : State), (∃ r, exec i s = .refused r) ↔ Illegal i s

/-- R242, R271: every other request, of every instruction, runs to a next state with `PHASE` back at `IDLE`,
whatever the environment answers: it only adds accesses, and the parameters stay. (The byte rows as requests are
log 11, DESIGN CHOICE.) -/
def Obligations.LegalRequestsRunToIdle : Prop :=
  ∀ (i : Instr) (s : State), SelectorOk s → ¬ Illegal i s →
    ∃ t, exec i s = .next t ∧ t.phase = .idle ∧ t.cfg = s.cfg ∧ s.history <+: t.history

/-- R242: the bounds on the number of accesses; R150, R151: one for `readRegister` and `writeRegister`; R140, R141:
none for the Bus Selector. That a byte row makes one access is the model's choice (log 11, DESIGN CHOICE). The
bounds of `resetBus` and `initialize` take no transfer-complete wait (D10, log 15, DESIGN CHOICE). -/
def Obligations.AccessesAreBounded : Prop :=
  ∀ (i : Instr) (s t : State), exec i s = .next t →
    s.history <+: t.history ∧ t.history.length ≤ s.history.length + accessBound s.cfg i

/-- R241: whether an operation has its next state never depends on the environment or the history. -/
def Obligations.NextStateExistsWhateverTheEnvironment : Prop :=
  ∀ (i : Instr) (s : State) (e0 e1 : Environment) (h : List Access),
    Safe (exec i s) ↔
      Safe (exec i { s with ctl0 := { s.ctl0 with env := e0 }, ctl1 := { s.ctl1 with env := e1 }, history := h })

/-! ## Bus Selector -/

/-- R140: an index in range selects its instance; any other fails with `InvalidBus` and leaves the selection.
Nothing else changes but `RESULT` and the latched operand. That the index is latched and, with the other operand
registers, kept after the operation, a rejected one too, is the model's choice (log 28, DESIGN CHOICE); that the
outputs survive is its reading (log 6, DEDUCED). -/
def Obligations.SelectBusSelectsOrFails : Prop :=
  (∀ (s : State) (b : BusId), s.phase = .idle →
    exec (.selectBus (busIndexOf b)) s = .next { s with
      activeBase := some (baseOf s.cfg b), result := .ok
      operands := { s.operands with busIndex := busIndexOf b } }) ∧
  (∀ (s : State) (n : Nat), s.phase = .idle → 2 ≤ n →
    exec (.selectBus n) s = .next { s with
      result := .err .invalidBus, operands := { s.operands with busIndex := n } })

/-- R141: `currentBus` returns the index of the active instance; with none it fails with `InvalidBus`. It makes no
access and changes no selection. S1: `selectBus(i)` then `currentBus()` returns `i`. (What `OUT_INDEX` holds after
the failure is a free value, and that `OUT_BYTE` and `DATA_BUF` survive it is the model's reading: log 6, DEDUCED.)
That the operand registers keep their values after the operation is the model's choice (log 28, DESIGN CHOICE). -/
def Obligations.CurrentBusReturnsTheActiveIndex : Prop :=
  (∀ (s : State) (b : BusId), Ready s b →
    exec .currentBus s = .next { s with outIndex := busIndexOf b, result := .ok }) ∧
  (∀ s : State, s.phase = .idle → s.activeBase = none →
    ∃ t, exec .currentBus s = .next t ∧ t.result = .err .invalidBus ∧ t.activeBase = none ∧
      t.history = s.history ∧ t.ctl0 = s.ctl0 ∧ t.ctl1 = s.ctl1 ∧ t.outByte = s.outByte ∧
      t.dataBuf = s.dataBuf ∧ t.operands = s.operands ∧ t.pollCnt = s.pollCnt) ∧
  (∀ (s : State) (b : BusId), s.cfg.Valid → s.phase = .idle →
    ∃ t u, exec (.selectBus (busIndexOf b)) s = .next t ∧ exec .currentBus t = .next u ∧
      u.result = .ok ∧ u.outIndex = busIndexOf b)

/-! ## Register Access -/

/-- R150, R71: one read of the register, answered by the environment, delivered in `OUT_BYTE`. That the write-side
registers keep their bytes and that RXR or SR holds the answer afterwards is the model's reading (log 5, DEDUCED). -/
def Obligations.ReadRegisterIsOneAccess : Prop :=
  ∀ (s : State) (b : BusId) (n : Nat) (off : RegOffset), Ready s b → offsetOf n = some off →
    ∃ t, exec (.readRegister n) s = .next t ∧ t.result = .ok ∧ t.outByte = s.answer b off ∧
      t.history = s.history ++ [.read (baseOf s.cfg b) off (s.answer b off)] ∧
      (∀ off', writeSide (t.ctl b) off' = writeSide (s.ctl b) off') ∧
      (off = .txrRxr → (t.ctl b).rxr = s.answer b off) ∧ (off = .crSr → (t.ctl b).sr = s.answer b off)

/-- R151: one write of the byte, whatever its bits, to the write side of the register. R151 says that the block
states nothing more: that the write-side register holds the byte afterwards, CR included, and that the others, RXR and
SR are as before is the model's reading (log 5, DEDUCED; unsafe for a CR that clears itself), that the environment's
answers stay as they were its form of the environment (log 4, DESIGN CHOICE). -/
def Obligations.WriteRegisterIsOneAccess : Prop :=
  ∀ (s : State) (b : BusId) (n : Nat) (off : RegOffset) (v : Byte), Ready s b → offsetOf n = some off →
    ∃ t, exec (.writeRegister n v) s = .next t ∧ t.result = .ok ∧
      t.history = s.history ++ [.write (baseOf s.cfg b) off v] ∧ writeSide (t.ctl b) off = v ∧
      (∀ off', off' ≠ off → writeSide (t.ctl b) off' = writeSide (s.ctl b) off') ∧
      (t.ctl b).rxr = (s.ctl b).rxr ∧ (t.ctl b).sr = (s.ctl b).sr ∧ (t.ctl b).env = (s.ctl b).env

/-- R101, R105, R112: each row of formats CR, ADDR and CTR is one write of its byte to its register. That such a
byte is presented alone, latches no operand and sets no result is the model's choice (log 11, DESIGN CHOICE). That
CR, TXR or CTR holds the byte afterwards and that RXR, SR and the rest keep theirs is its reading (log 5, DEDUCED;
unsafe for a CR that clears itself). That operands and `POLL_CNT` of earlier operations are still there is log 28
(DESIGN CHOICE). -/
def Obligations.ByteRowsWriteTheirByte : Prop :=
  ∀ (s : State) (b : BusId) (i : Instr) (off : RegOffset) (v : Byte), Ready s b → rowByte i = some (off, v) →
    ∃ t, exec i s = .next t ∧ t.history = s.history ++ [.write (baseOf s.cfg b) off v] ∧
      writeSide (t.ctl b) off = v ∧
      (∀ off', off' ≠ off → writeSide (t.ctl b) off' = writeSide (s.ctl b) off') ∧
      (t.ctl b).rxr = (s.ctl b).rxr ∧ (t.ctl b).sr = (s.ctl b).sr ∧ t.result = s.result ∧
      t.operands = s.operands ∧ t.pollCnt = s.pollCnt

/-! ## Primitive Sequencer -/

/-- R160: the byte to TXR, then the command to CR; no read, no failure. (The command byte is the spec's reading D8,
log 14.) What TXR and CR hold afterwards is the model's reading (log 5, DEDUCED; unsafe for a CR that clears
itself). -/
def Obligations.SendByteWritesTxrThenCr : Prop :=
  ∀ (s : State) (b : BusId) (v : Byte) (start stop : Bool), Ready s b →
    ∃ t, exec (.sendByte v start stop) s = .next t ∧ t.result = .ok ∧
      t.history = s.history ++ [.write (baseOf s.cfg b) .txrRxr v,
        .write (baseOf s.cfg b) .crSr
          (0x10#8 ||| (if start then 0x80#8 else 0#8) ||| (if stop then 0x40#8 else 0#8))] ∧
      (t.ctl b).txr = v ∧
      (t.ctl b).cr = (0x10#8 ||| (if start then 0x80#8 else 0#8) ||| (if stop then 0x40#8 else 0#8))

/-- R109: the command byte of `sendStop` is STOP | IRQ-ACK = 0x41; R161: writing it is the one access of
`sendStop`, nothing goes to TXR, no failure. What CR and TXR hold afterwards is the model's reading (log 5, DEDUCED;
unsafe for a CR that clears itself). -/
def Obligations.SendStopWritesTheStopCommand : Prop :=
  CR.stop ||| CR.irqAck = 0x41 ∧ CR.stop = 0x40 ∧ CR.irqAck = 0x01 ∧
  ∀ (s : State) (b : BusId), Ready s b →
    ∃ t, exec .sendStop s = .next t ∧ t.result = .ok ∧
      t.history = s.history ++ [.write (baseOf s.cfg b) .crSr (CR.stop ||| CR.irqAck)] ∧
      (t.ctl b).cr = 0x41 ∧ (t.ctl b).txr = (s.ctl b).txr

/-- R162: success on the first status value with BUSY clear, within the budget, after exactly that many reads;
`Busy` after exactly the budget. Only BUSY is judged. That `POLL_CNT` keeps its count after the wait is the model's
choice (log 28, DESIGN CHOICE). -/
def Obligations.AwaitBusNotBusyCountsExactly : Prop :=
  (∀ (s : State) (b : BusId) (budget k : Nat), Ready s b → k < budget → NotBusyAt b k s →
    ∃ t, exec (.awaitBusNotBusy budget) s = .next t ∧ t.result = .ok ∧ t.pollCnt = k + 1 ∧
      t.history = s.history ++ statusReads b (k + 1) s) ∧
  (∀ (s : State) (b : BusId) (budget : Nat), Ready s b → StillBusy b budget s →
    ∃ t, exec (.awaitBusNotBusy budget) s = .next t ∧ t.result = .err .busy ∧ t.pollCnt = budget ∧
      t.history = s.history ++ statusReads b budget s)

/-- R163, R270: the transfer-complete wait. Success, or `NotAcknowledged` with one stop command, at the first status
value with TIP clear; `ArbitrationLost` at once, whatever that value's other bits and the expectation, with no
write; `Timeout` after exactly the budget, with no write. (Which expectation is violated is `ackJudge`;
RequireNack's violation is the spec's choice D15, the order of the tests its reading D14.) D14, D15 and the stop D16
are log 16 (DESIGN CHOICE). That `POLL_CNT` keeps its count after the wait is the model's choice (log 28, DESIGN
CHOICE). -/
def Obligations.AwaitTransferCompleteJudgesInOrder : Prop :=
  ∀ (s : State) (b : BusId) (bits : BitVec 2) (e : AckExpectation) (budget : Nat), Ready s b →
    ackOfBits bits = some e →
    (∀ k < budget, CompleteAt b k s → ackJudge e (SR.rxack (statusAnswer b k s)) = .met →
      ∃ t, exec (.awaitTransferComplete bits budget) s = .next t ∧ t.result = .ok ∧ t.pollCnt = k + 1 ∧
        t.history = s.history ++ statusReads b (k + 1) s) ∧
    (∀ k < budget, CompleteAt b k s → ackJudge e (SR.rxack (statusAnswer b k s)) = .violated →
      ∃ t, exec (.awaitTransferComplete bits budget) s = .next t ∧ t.result = .err .notAcknowledged ∧
        t.pollCnt = k + 1 ∧
        t.history = s.history ++ statusReads b (k + 1) s ++ [.write (baseOf s.cfg b) .crSr 0x41]) ∧
    (∀ k < budget, ArbLostAt b k s →
      ∃ t, exec (.awaitTransferComplete bits budget) s = .next t ∧ t.result = .err .arbitrationLost ∧
        t.pollCnt = k + 1 ∧ t.history = s.history ++ statusReads b (k + 1) s) ∧
    (StillTransferring b budget s →
      ∃ t, exec (.awaitTransferComplete bits budget) s = .next t ∧ t.result = .err .timeout ∧
        t.pollCnt = budget ∧ t.history = s.history ++ statusReads b budget s)

/-- R165: the read command, the wait without judging RXACK, then RXR goes to `OUT_BYTE`. On a failure RXR is not
read, and the failure is never `NotAcknowledged`. (That RXR holds the byte read is the model's reading, log 5,
DEDUCED; the command bytes are D9, log 14, the order of the tests is D14, log 16.) -/
def Obligations.ReadByteReturnsTheReceiveRegister : Prop :=
  ∀ (s u : State) (b : BusId) (stop : Bool), Ready s b →
    u = s.regWrite b .crSr (if stop then 0x68 else 0x20) →
    (∀ k < s.cfg.budgetXfer, CompleteAt b k u →
      ∃ t, exec (.readByte stop) s = .next t ∧ t.result = .ok ∧
        t.outByte = (afterPolls b (k + 1) u).answer b .txrRxr ∧ (t.ctl b).rxr = t.outByte ∧
        t.history = s.history ++ [.write (baseOf s.cfg b) .crSr (if stop then 0x68 else 0x20)] ++
          statusReads b (k + 1) u ++ [.read (baseOf s.cfg b) .txrRxr t.outByte]) ∧
    (∀ k < s.cfg.budgetXfer, ArbLostAt b k u →
      ∃ t, exec (.readByte stop) s = .next t ∧ t.result = .err .arbitrationLost ∧
        t.history = s.history ++ [.write (baseOf s.cfg b) .crSr (if stop then 0x68 else 0x20)] ++
          statusReads b (k + 1) u) ∧
    (StillTransferring b s.cfg.budgetXfer u →
      ∃ t, exec (.readByte stop) s = .next t ∧ t.result = .err .timeout ∧
        t.history = s.history ++ [.write (baseOf s.cfg b) .crSr (if stop then 0x68 else 0x20)] ++
          statusReads b s.cfg.budgetXfer u)

/-- R166: the dummy read command, the stop command, the bus-not-busy wait. (The spec's reading D10: log 14 for the
byte, log 15 for no transfer-complete wait between.) The wait alone is unsafe for a claim that `resetBus` succeeds
(log 15, DESIGN CHOICE). -/
def Obligations.ResetBusForcesReadStopAndWait : Prop :=
  ∀ (s u : State) (b : BusId), Ready s b → u = (s.regWrite b .crSr 0x28).regWrite b .crSr 0x41 →
    (∀ k < s.cfg.budgetBusy, NotBusyAt b k u →
      ∃ t, exec .resetBus s = .next t ∧ t.result = .ok ∧
        t.history = s.history ++ [.write (baseOf s.cfg b) .crSr 0x28, .write (baseOf s.cfg b) .crSr 0x41] ++
          statusReads b (k + 1) u) ∧
    (StillBusy b s.cfg.budgetBusy u →
      ∃ t, exec .resetBus s = .next t ∧ t.result = .err .busy ∧
        t.history = s.history ++ [.write (baseOf s.cfg b) .crSr 0x28, .write (baseOf s.cfg b) .crSr 0x41] ++
          statusReads b s.cfg.budgetBusy u)

/-! ## Transaction Protocol -/

/-- R190: the address byte with START, then the wait that requires an acknowledge: its four ends. (The command
byte is D8, log 14; the order of the tests and the stop are D14 and D16, log 16.) -/
def Obligations.StartAddressedSendsTheAddressByte : Prop :=
  ∀ (s u : State) (b : BusId) (c : BitVec 7) (d : Direction) (pre : List Access), Ready s b →
    u = (s.regWrite b .txrRxr (c ++ directionBit d)).regWrite b .crSr 0x90 →
    pre = s.history ++ [.write (baseOf s.cfg b) .txrRxr (c ++ directionBit d),
      .write (baseOf s.cfg b) .crSr 0x90] →
    (∀ k < s.cfg.budgetXfer, CompleteAt b k u → SR.rxack (statusAnswer b k u) = false →
      ∃ t, exec (.startAddressed c d) s = .next t ∧ t.result = .ok ∧
        t.history = pre ++ statusReads b (k + 1) u) ∧
    (∀ k < s.cfg.budgetXfer, CompleteAt b k u → SR.rxack (statusAnswer b k u) = true →
      ∃ t, exec (.startAddressed c d) s = .next t ∧ t.result = .err .notAcknowledged ∧
        t.history = pre ++ statusReads b (k + 1) u ++ [.write (baseOf s.cfg b) .crSr 0x41]) ∧
    (∀ k < s.cfg.budgetXfer, ArbLostAt b k u →
      ∃ t, exec (.startAddressed c d) s = .next t ∧ t.result = .err .arbitrationLost ∧
        t.history = pre ++ statusReads b (k + 1) u) ∧
    (StillTransferring b s.cfg.budgetXfer u →
      ∃ t, exec (.startAddressed c d) s = .next t ∧ t.result = .err .timeout ∧
        t.history = pre ++ statusReads b s.cfg.budgetXfer u)

/-- R191, R252: where every wait meets its premises, `addressWithOffset` completes with exactly the writes of the
address phase, in order. (Where one does not: OperationsWriteTheirListUpToTheFailure. The premises are read as log
27 has it, DESIGN CHOICE.) The command bytes 0x90 and 0x10 are the spec's reading D8 (log 14, DEDUCED, unsafe for a
claim about traces). -/
def Obligations.AddressWithOffsetSendsTheAddressPhase : Prop :=
  ∀ (s : State) (b : BusId) (c : BitVec 7) (r : BitVec 32) (n : Nat) (d : Direction), Ready s b → n ≤ 4 →
    Premises b (addressWithOffsetSteps s.cfg c r n d) (s.latch (.addressWithOffset c r n d)) →
    ∃ t l, exec (.addressWithOffset c r n d) s = .next t ∧ t.result = .ok ∧ t.history = s.history ++ l ∧
      writesOf l = addressWrites c r n d ∧ receivedOf l = []

/-- R192, R252: where every wait meets its premises, `readBlock` completes: the address phase for a read, then one
read command per byte, the terminal one (0x68) last; `DATA_BUF` holds exactly the bytes read from RXR, in order.
(Where a wait does not meet them: OperationsWriteTheirListUpToTheFailure. Length 0 is D29, log 20. The premises are
read as log 27 has it, DESIGN CHOICE.) The command bytes are the spec's readings D8 (0x90, 0x10) and D9 (0x20,
0x68): log 14, DEDUCED, unsafe for a claim about traces. `DATA_BUF` as the list of its bytes is log 19 (DEDUCED). -/
def Obligations.ReadBlockDeliversTheReceivedBytes : Prop :=
  ∀ (s : State) (b : BusId) (c : BitVec 7) (r : BitVec 32) (n m : Nat), Ready s b → n ≤ 4 →
    m ≤ s.cfg.maxBlock →
    Premises b (readBlockSteps s.cfg c r n m) (s.latch (.readBlock c r n m)) →
    ∃ t l, exec (.readBlock c r n m) s = .next t ∧ t.result = .ok ∧ t.history = s.history ++ l ∧
      t.dataBuf = receivedOf l ∧ t.dataBuf.length = m ∧
      writesOf l = addressWrites c r n .read ++ List.replicate (m - 1) (.crSr, 0x20) ++
        (if m = 0 then [] else [(.crSr, 0x68)])

/-- R193, R252: where every wait meets its premises, `writeBlock` completes: the address phase for a write, then
every payload byte in order, the last one with STOP. (Where a wait does not meet them:
OperationsWriteTheirListUpToTheFailure. No bytes is D29, log 20. The premises are read as log 27 has it, DESIGN
CHOICE.) The command bytes 0x90, 0x10 and 0x50 are the spec's reading D8 (log 14, DEDUCED, unsafe for a claim about
traces). -/
def Obligations.WriteBlockSendsThePayload : Prop :=
  ∀ (s : State) (b : BusId) (c : BitVec 7) (r : BitVec 32) (n : Nat) (bytes : List Byte), Ready s b → n ≤ 4 →
    bytes.length ≤ s.cfg.maxBlock →
    Premises b (writeBlockSteps s.cfg c r n bytes) (s.latch (.writeBlock c r n bytes)) →
    ∃ t l, exec (.writeBlock c r n bytes) s = .next t ∧ t.result = .ok ∧ t.history = s.history ++ l ∧
      writesOf l = addressWrites c r n .write ++ payloadWrites bytes ∧ receivedOf l = []

/-- R194: `probe` ends as `readBlock(chipAddress, 0, 1, 1)` ends, whatever the environment answers: the same
result, kind included, the same accesses, the same register blocks; so with every wait's premises met (R252)
it reports the device present. (What the register blocks hold is the model's reading, log 5, DEDUCED;
the premises are read as log 27 has it, DESIGN CHOICE.) -/
def Obligations.ProbeEndsAsItsReadBlock : Prop :=
  ∀ (s : State) (b : BusId) (c : BitVec 7), Ready s b →
    ∃ t u, exec (.probe c) s = .next t ∧ exec (.readBlock c 0 1 1) s = .next u ∧ t.result = u.result ∧
      t.history = u.history ∧ t.ctl0 = u.ctl0 ∧ t.ctl1 = u.ctl1 ∧
      (Premises b (probeSteps s.cfg c) (s.latch (.probe c)) → t.result = .ok ∧ t.result.present = true)

/-- R192, R250: the whole trace of `readBlock` in the ideal environment, whatever its receive queue `q` and receive
default `d` are: the bytes received are those SimBlock answers, first from the queue, then the default; `1 + 3 + 3n
+ 3 + 3m` accesses. The command bytes are the spec's readings D8 (0x90, 0x10) and D9 (0x20, 0x68): log 14, DEDUCED,
unsafe for a claim about traces. `m = 0`, of which R192 gives no count, ending with Ok without a stop is the spec's
choice D29 (log 20, DESIGN CHOICE, unsafe). `DATA_BUF` as a list is log 19 (DEDUCED). The environment is held per
instance (log 22, DESIGN CHOICE). -/
def Obligations.ReadBlockTraceInTheIdealEnvironment : Prop :=
  ∀ (s : State) (b : BusId) (c : BitVec 7) (r : BitVec 32) (n m : Nat) (q : List Byte) (d : Byte), Ready s b →
    n ≤ 4 → m ≤ s.cfg.maxBlock → 0 < s.cfg.budgetBusy → 0 < s.cfg.budgetXfer → IdealEnv b q d s →
    ∃ t, exec (.readBlock c r n m) s = .next t ∧ t.result = .ok ∧ t.dataBuf = simReceived q d m ∧
      IdealEnv b (q.drop m) d t ∧
      t.history = s.history ++ [.read (baseOf s.cfg b) .crSr 0x00] ++
        idealAddress (baseOf s.cfg b) c r n .read ++ idealReceiveAll (baseOf s.cfg b) (simReceived q d m) ∧
      t.history.length = s.history.length + (1 + 3 + 3 * n + 3 + 3 * m)

/-- R193, R250: the whole trace of `writeBlock` in the ideal environment, whatever its receive queue `q` and receive
default `d` are, which it leaves alone; `1 + 3 + 3n + 3m` accesses. The command bytes 0x90, 0x10 and 0x50 are the
spec's reading D8 (log 14, DEDUCED, unsafe for a claim about traces). The empty payload ending with Ok without a
stop is the spec's choice D29 (log 20, DESIGN CHOICE, unsafe). The environment is held per instance (log 22, DESIGN
CHOICE). -/
def Obligations.WriteBlockTraceInTheIdealEnvironment : Prop :=
  ∀ (s : State) (b : BusId) (c : BitVec 7) (r : BitVec 32) (n : Nat) (bytes q : List Byte) (d : Byte), Ready s b →
    n ≤ 4 → bytes.length ≤ s.cfg.maxBlock → 0 < s.cfg.budgetBusy → 0 < s.cfg.budgetXfer → IdealEnv b q d s →
    ∃ t, exec (.writeBlock c r n bytes) s = .next t ∧ t.result = .ok ∧ IdealEnv b q d t ∧
      t.history = s.history ++ [.read (baseOf s.cfg b) .crSr 0x00] ++
        idealAddress (baseOf s.cfg b) c r n .write ++ idealSendAll (baseOf s.cfg b) bytes ∧
      t.history.length = s.history.length + (1 + 3 + 3 * n + 3 * bytes.length)

/-- R196, R243: what a successful `readBlock` with at least one byte asks of the bus, whatever the environment
answered on the way. (Reading a command byte as start, byte, stop is `commandItems`, log 23; every command here is
one of R112's.) The command bytes are the spec's readings D8 (0x90, 0x10) and D9 (0x20, 0x68): log 14, DEDUCED,
unsafe for a claim about traces. -/
def Obligations.ReadBlockFramingOnTheBus : Prop :=
  ∀ (s t : State) (c : BitVec 7) (r : BitVec 32) (n m : Nat) (txr : Byte),
    exec (.readBlock c r n (m + 1)) s = .next t → t.result = .ok →
    wireItems txr (t.history.drop s.history.length) =
      [.start, .send (c ++ 0#1)] ++ (regAddrBytes r n).map .send ++ [.start, .send (c ++ 1#1)] ++
        List.replicate m (.receive false) ++ [.receive true, .stop]

/-- R196, R243: what a successful `writeBlock` with at least one byte asks of the bus. (`commandItems` as in
ReadBlockFramingOnTheBus, log 23.) The command bytes 0x90, 0x10 and 0x50 are the spec's reading D8 (log 14, DEDUCED,
unsafe for a claim about traces). -/
def Obligations.WriteBlockFramingOnTheBus : Prop :=
  ∀ (s t : State) (c : BitVec 7) (r : BitVec 32) (n : Nat) (v : Byte) (vs : List Byte) (txr : Byte),
    exec (.writeBlock c r n (v :: vs)) s = .next t → t.result = .ok →
    wireItems txr (t.history.drop s.history.length) =
      [.start, .send (c ++ 0#1)] ++ (regAddrBytes r n ++ v :: vs).map .send ++ [.stop]

/-- R302, D29: a block operation without data bytes, when it succeeds, has asked for no stop. (The spec's choice
D29, log 20; `commandItems` is log 23.) The command bytes are the spec's reading D8 (log 14, DEDUCED, unsafe for a
claim about traces). -/
def Obligations.ZeroLengthBlocksAskNoStop : Prop :=
  ∀ (s t : State) (c : BitVec 7) (r : BitVec 32) (n : Nat) (i : Instr) (txr : Byte),
    i = .readBlock c r n 0 ∨ i = .writeBlock c r n [] → exec i s = .next t → t.result = .ok →
    WireItem.stop ∉ wireItems txr (t.history.drop s.history.length)

/-! ## Lifecycle -/

/-- R220, R222: a clock with no prescaler is rejected with `InvalidClock` before anything changes: no access, no
register, not even `ACTIVE_BASE`. The rules say that no state changes at all; that `RESULT` and the latched operands
are new nevertheless is the model's choice (log 17, DESIGN CHOICE). That the operand registers keep their values
after the operation is the model's choice (log 28, DESIGN CHOICE). -/
def Obligations.InitializeRejectsUnusableClocks : Prop :=
  ∀ (s : State) (hz : Nat) (a : Byte), s.phase = .idle → prescaler s.cfg.inputClockHz hz = none →
    exec (.initController hz a) s = .next { s with
      result := .err .invalidClock
      operands := { s.operands with requestedClockHz := hz, slaveAddress := a } }

/-- R220, R225: `initialize` on the active instance, or on instance 0 when none is active: disable, acknowledge,
prescaler low, prescaler high, enable, dummy read, stop, then the bus-not-busy wait. Afterwards, success or `Busy`,
the controller is enabled with interrupts and slave mode off and holds the prescaler (R225). That CR then holds 0x41
and that TXR and SLADR are as before is the model's reading (log 5, DEDUCED; unsafe for a CR that clears itself).
The CTR and command values are D10 and D11 (log 14), the wait alone after them is log 15. The spec's choice D10: a
`resetBus`, alone or in `initialize`, holds no transfer-complete wait (log 15, DESIGN CHOICE, unsafe; U20 allows the
other), so Ok and `Busy` are its only ends. -/
def Obligations.InitializeProgramsTheController : Prop :=
  ∀ (s u : State) (b : BusId) (hz P : Nat) (a : Byte) (ws : List Access), s.cfg.Valid → s.phase = .idle →
    s.activeBase = some (baseOf s.cfg b) ∨ (s.activeBase = none ∧ b = .bus0) →
    prescaler s.cfg.inputClockHz hz = some P →
    ws = [.write (baseOf s.cfg b) .ctr 0x00, .write (baseOf s.cfg b) .crSr 0x01,
      .write (baseOf s.cfg b) .prerLo (BitVec.ofNat 8 (P % 256)),
      .write (baseOf s.cfg b) .prerHi (BitVec.ofNat 8 (P / 256)), .write (baseOf s.cfg b) .ctr 0x80,
      .write (baseOf s.cfg b) .crSr 0x28, .write (baseOf s.cfg b) .crSr 0x41] →
    u = { s with history := s.history ++ ws } →
    (∀ k < s.cfg.budgetBusy, NotBusyAt b k u →
      ∃ t, exec (.initController hz a) s = .next t ∧ t.result = .ok ∧
        t.activeBase = some (baseOf s.cfg b) ∧ t.history = s.history ++ ws ++ statusReads b (k + 1) u ∧
        (t.ctl b).prerLo = BitVec.ofNat 8 (P % 256) ∧ (t.ctl b).prerHi = BitVec.ofNat 8 (P / 256) ∧
        (t.ctl b).ctr = 0x80 ∧ (t.ctl b).cr = 0x41 ∧ (t.ctl b).txr = (s.ctl b).txr ∧
        (t.ctl b).sladr = (s.ctl b).sladr) ∧
    (StillBusy b s.cfg.budgetBusy u →
      ∃ t, exec (.initController hz a) s = .next t ∧ t.result = .err .busy ∧
        t.activeBase = some (baseOf s.cfg b) ∧
        t.history = s.history ++ ws ++ statusReads b s.cfg.budgetBusy u ∧
        (t.ctl b).prerLo = BitVec.ofNat 8 (P % 256) ∧ (t.ctl b).prerHi = BitVec.ofNat 8 (P / 256) ∧
        (t.ctl b).ctr = 0x80 ∧ (t.ctl b).cr = 0x41 ∧ (t.ctl b).txr = (s.ctl b).txr ∧
        (t.ctl b).sladr = (s.ctl b).sladr)

/-- R223: `slaveAddress` changes nothing but the operand register that latches it (R44; log 18, DEDUCED; for a
rejected clock log 17, DESIGN CHOICE). That the operand registers keep their values after the operation is the
model's choice (log 28, DESIGN CHOICE). -/
def Obligations.SlaveAddressIsUnused : Prop :=
  ∀ (s t : State) (hz : Nat) (a a' : Byte), exec (.initController hz a) s = .next t →
    exec (.initController hz a') s = .next { t with operands := { t.operands with slaveAddress := a' } }

/-! ## Failures -/

/-- R263 to R266, R271: the trace ends with what the failure is about and nothing after it, but for the stop of
`NotAcknowledged`; a wait that ran out read exactly its budget of status values, all showing the bus busy, or the
transfer under way with arbitration kept; `NotAcknowledged` read a status value that shows the transfer complete and
whose RXACK violates the expectation of the wait, RequireAck for every operation but `awaitTransferComplete`. (The
order of the tests, RequireNack and the stop are the spec's D14 to D16, log 16.) That `POLL_CNT` keeps its count
after the wait is the model's choice (log 28, DESIGN CHOICE). -/
def Obligations.FailuresEndTheTraceTheyExplain : Prop :=
  ∀ (i : Instr) (s t : State) (k : ErrorKind), rowByte i = none → exec i s = .next t → t.result = .err k →
    ∃ l base, t.history = s.history ++ l ∧
      (match k with
      | .invalidBus => l = []
      | .invalidClock => l = []
      | .busy => ∃ l' vs, l = l' ++ List.map (Access.read base .crSr) vs ∧
          vs.length = busyBudget s.cfg i ∧ t.pollCnt = vs.length ∧ ∀ v ∈ vs, SR.busy v = true
      | .timeout => ∃ l' vs, l = l' ++ List.map (Access.read base .crSr) vs ∧
          vs.length = xferBudget s.cfg i ∧ t.pollCnt = vs.length ∧
          ∀ v ∈ vs, SR.arbLost v = false ∧ SR.tip v = true
      | .arbitrationLost => ∃ l' v, l = l' ++ [.read base .crSr v] ∧ SR.arbLost v = true
      | .notAcknowledged => ∃ l' v, l = l' ++ [.read base .crSr v, .write base .crSr 0x41] ∧
          SR.arbLost v = false ∧ SR.tip v = false ∧
          ∃ e, judgedExpectation i = some e ∧ ackJudge e (SR.rxack v) = .violated)

/-- R252: an operation that makes register accesses ends with `Ok` exactly when every one of its waits meets its
premises. (For RequireNack the premise `Acked` is the spec's choice D15, log 16. The premises are read as log 27 has
it, DESIGN CHOICE: only the conjunction of the three of a transfer-complete wait is exact.) The spec's choice D10: a
`resetBus`, alone or in `initialize`, holds no transfer-complete wait (log 15, DESIGN CHOICE, unsafe; U20 allows the
other), so its success has no premise of such a wait. -/
def Obligations.OkExactlyWhenThePremisesHold : Prop :=
  ∀ (i : Instr) (s t : State) (b : BusId), s.cfg.Valid → stepsOf s.cfg i ≠ [] → exec i s = .next t →
    t.activeBase = some (baseOf t.cfg b) →
    (t.result = .ok ↔ Premises b (stepsOf s.cfg i) ((s.latch i).chooseBus i))

/-- R260: which operation can end with which failure kind. The spec's choice D10: a `resetBus`, alone or in
`initialize`, holds no transfer-complete wait (log 15, DESIGN CHOICE, unsafe; U20 allows the other), so they never
end with `Timeout` or `ArbitrationLost`. That `RequireNack` violated is `NotAcknowledged` is D15 (log 16, DESIGN
CHOICE). -/
def Obligations.FailureKindsOfEachOperation : Prop :=
  ∀ (i : Instr) (s t : State) (k : ErrorKind), rowByte i = none → exec i s = .next t → t.result = .err k →
    (match k with
    | .invalidBus => (∃ n, i = .selectBus n) ∨ i = .currentBus
    | .invalidClock => ∃ hz a, i = .initController hz a
    | .busy => (∃ n, i = .awaitBusNotBusy n) ∨ i = .resetBus ∨ (∃ hz a, i = .initController hz a) ∨
        mayBuffer i = true
    | .timeout => (∃ e n, i = .awaitTransferComplete e n) ∨ (∃ sp, i = .readByte sp) ∨
        (∃ c d, i = .startAddressed c d) ∨ (∃ c r n d, i = .addressWithOffset c r n d) ∨ mayBuffer i = true
    | .arbitrationLost => (∃ e n, i = .awaitTransferComplete e n) ∨ (∃ sp, i = .readByte sp) ∨
        (∃ c d, i = .startAddressed c d) ∨ (∃ c r n d, i = .addressWithOffset c r n d) ∨ mayBuffer i = true
    | .notAcknowledged => (∃ e n, i = .awaitTransferComplete e n) ∨ (∃ c d, i = .startAddressed c d) ∨
        (∃ c r n d, i = .addressWithOffset c r n d) ∨ mayBuffer i = true)

/-! ## Frames and closed sets -/

/-- R30, R42 to R48: what an instruction leaves of the sequencer's registers. That `OUT_INDEX`, `OUT_BYTE` and
`DATA_BUF` survive the failure of an operation that does not deliver them is the model's reading (log 6, DEDUCED,
unsafe; U14 allows any value). That `RESULT` and the operands are set by no byte row is its choice (log 11, DESIGN
CHOICE), that the operand registers hold the host's operands only is log 18 (DEDUCED), that a rejected clock leaves
them latched log 17 (DESIGN CHOICE). That operands, `POLL_CNT` and outputs of earlier operations are kept until the
next one that sets them is log 28 (DESIGN CHOICE). -/
def Obligations.FrameOfTheSequencerRegisters : Prop :=
  ∀ (i : Instr) (s t : State), exec i s = .next t →
    t.cfg = s.cfg ∧ t.requests = s.requests ∧ t.phase = s.phase ∧
    t.operands = latchOperands s.operands i ∧
    (mayActivate i = false → t.activeBase = s.activeBase) ∧
    (i ≠ .currentBus → t.outIndex = s.outIndex) ∧
    (mayOutByte i = false → t.outByte = s.outByte) ∧
    (mayBuffer i = false → t.dataBuf = s.dataBuf) ∧
    (mayPoll i = false → t.pollCnt = s.pollCnt) ∧
    ((rowByte i).isSome → t.result = s.result)

/-- R32 to R39, R41, R92: what an instruction leaves of the register blocks. The block of an instance that is
not active is untouched; in the active one a write-side register that the instruction does not write, and a
read-side register that it does not read, keeps its value. That registers keep their values between accesses is the
model's reading (log 5, DEDUCED, unsafe): by R36 RXR holds the byte last received, and R38 leaves SR to the
environment. The byte rows are log 11 (DESIGN CHOICE). -/
def Obligations.FrameOfTheRegisterBlocks : Prop :=
  ∀ (i : Instr) (s t : State) (b : BusId), exec i s = .next t →
    (t.activeBase ≠ some (baseOf s.cfg b) → t.ctl b = s.ctl b) ∧
    (∀ off, mayWrite i off = false → writeSide (t.ctl b) off = writeSide (s.ctl b) off) ∧
    (mayRead i .txrRxr = false → (t.ctl b).rxr = (s.ctl b).rxr) ∧
    (mayRead i .crSr = false → (t.ctl b).sr = (s.ctl b).sr)

/-- R32 to R39, R92, R152: every access an instruction makes is at the active base, and a write or a read of a
register only where the rule of the instruction has one. (The write of a byte row is log 11, DESIGN CHOICE.) -/
def Obligations.AccessesAreThoseOfTheOperation : Prop :=
  ∀ (i : Instr) (s t : State), exec i s = .next t →
    ∃ l, t.history = s.history ++ l ∧
      (∀ base off v, Access.write base off v ∈ l → t.activeBase = some base ∧ mayWrite i off = true) ∧
      (∀ base off v, Access.read base off v ∈ l → t.activeBase = some base ∧ mayRead i off = true)

/-- After an instruction a write-side register of the active instance holds the last byte the instruction wrote to
it (R151, R31), and the value it had if there is none. What a register holds between writes is the model's reading
(log 5, DEDUCED; unsafe for a CR that clears itself); the byte rows are log 11 (DESIGN CHOICE). -/
def Obligations.RegistersHoldTheLastByteWritten : Prop :=
  ∀ (i : Instr) (s t : State) (b : BusId) (off : RegOffset), s.cfg.Valid → exec i s = .next t →
    t.activeBase = some (baseOf s.cfg b) →
    writeSide (t.ctl b) off =
      lastWritten off (t.history.drop s.history.length) (writeSide (s.ctl b) off)

/-- R112, R34, R269: no operation but a host's `writeRegister` writes to CR a value outside the closed set, or to
CTR a value other than 0x00 and 0x80. (The values are the readings D8 to D11, log 14; the byte rows are log 11.) -/
def Obligations.OperationsWriteOnlyTheListedBytes : Prop :=
  ∀ (i : Instr) (s t : State), (∀ n v, i ≠ .writeRegister n v) → exec i s = .next t →
    (∀ v, (RegOffset.crSr, v) ∈ writesOf (t.history.drop s.history.length) → v ∈ commandSet) ∧
    (∀ v, (RegOffset.ctr, v) ∈ writesOf (t.history.drop s.history.length) → v = 0x00 ∨ v = 0x80)

/-- R52: what reset leaves unspecified cannot influence any operation's trace, result or delivered output. (A byte
row sets no result, log 11, DESIGN CHOICE.) -/
def Obligations.UnspecifiedResetValuesDoNotMatter : Prop :=
  ∀ (i : Instr) (s s' t : State), SameButUnspecified s s' → exec i s = .next t →
    ∃ t', exec i s' = .next t' ∧ SameButUnspecified t t' ∧
      (rowByte i = none → t'.result = t.result) ∧
      (rowByte i = none → t.result = .ok →
        (i = .currentBus → t'.outIndex = t.outIndex) ∧ (mayOutByte i = true → t'.outByte = t.outByte) ∧
        (mayBuffer i = true → t'.dataBuf = t.dataBuf))

/-- R142: at every moment `ACTIVE_BASE` is unset, `BASE[0]` or `BASE[1]`: it is so after reset and every step
keeps it so; and selecting an out-of-range index is rejected without changing the active selection. -/
def Obligations.SelectorInvariant : Prop :=
  SelectorOk State.reset ∧ (∀ s t : State, SelectorOk s → step s = .next t → SelectorOk t) ∧
  (∀ (s : State) (n : Nat), s.phase = .idle → 2 ≤ n →
    ∃ t, exec (.selectBus n) s = .next t ∧ t.result = .err .invalidBus ∧ t.activeBase = s.activeBase)

/-! ## How far an operation comes -/

/-- R20, R195, R271, R272: with `Ok` an operation has made exactly the register writes of its pseudocode, in order.
With a failure it has made a prefix of them, up to the command of the wait that failed, and none after it but the one
stop of `NotAcknowledged`; of a byte asked for last it has not read RXR, the ones before it it has. A bus found busy
stops a block operation before its first write, `resetBus` and `initialize` after their last. (The command bytes are
the readings D8 to D11, log 14; `resetBus` follows D10, log 15; the stop is D16, log 16; blocks without data run as
D29 has it, log 20.) -/
def Obligations.OperationsWriteTheirListUpToTheFailure : Prop :=
  ∀ (i : Instr) (s t : State), rowByte i = none → exec i s = .next t →
    ∃ l, t.history = s.history ++ l ∧
      (t.result = .ok → writesOf l = operationWrites s.cfg i) ∧
      (∀ k, t.result = .err k → ∃ made, made <+: operationWrites s.cfg i ∧ EndsInCommand made ∧
        writesOf l = made ++ (if k = .notAcknowledged then [(.crSr, 0x41)] else []) ∧
        (receivedOf l).length = dataReads made - 1 ∧
        (k = .busy → made = if mayBuffer i then [] else operationWrites s.cfg i))
end

