-- ==== Sys2Proof/Laws/State.lean ====
section
/-! SUPPORT. One lemma per field per update of the state, so that no later proof unfolds a record update. -/

namespace Sys2Proof.Machine

namespace State

/-! ## The register blocks -/

@[simp] theorem ctl_bus0 (s : State) : s.ctl .bus0 = s.ctl0 := rfl
@[simp] theorem ctl_bus1 (s : State) : s.ctl .bus1 = s.ctl1 := rfl

@[simp] theorem ctl_setCtl_same (s : State) (b : BusId) (c : Controller) : (s.setCtl b c).ctl b = c := by
  cases b <;> rfl

theorem ctl_setCtl_ne (s : State) {b b' : BusId} (h : b' ≠ b) (c : Controller) :
    (s.setCtl b c).ctl b' = s.ctl b' := by
  cases b <;> cases b' <;> first | rfl | exact absurd rfl h

/-! ## `setCtl` -/

@[simp] theorem setCtl_cfg (s : State) (b : BusId) (c : Controller) : (s.setCtl b c).cfg = s.cfg := by cases b <;> rfl
@[simp] theorem setCtl_activeBase (s : State) (b : BusId) (c : Controller) : (s.setCtl b c).activeBase = s.activeBase := by cases b <;> rfl
@[simp] theorem setCtl_phase (s : State) (b : BusId) (c : Controller) : (s.setCtl b c).phase = s.phase := by cases b <;> rfl
@[simp] theorem setCtl_operands (s : State) (b : BusId) (c : Controller) : (s.setCtl b c).operands = s.operands := by cases b <;> rfl
@[simp] theorem setCtl_pollCnt (s : State) (b : BusId) (c : Controller) : (s.setCtl b c).pollCnt = s.pollCnt := by cases b <;> rfl
@[simp] theorem setCtl_result (s : State) (b : BusId) (c : Controller) : (s.setCtl b c).result = s.result := by cases b <;> rfl
@[simp] theorem setCtl_dataBuf (s : State) (b : BusId) (c : Controller) : (s.setCtl b c).dataBuf = s.dataBuf := by cases b <;> rfl
@[simp] theorem setCtl_outIndex (s : State) (b : BusId) (c : Controller) : (s.setCtl b c).outIndex = s.outIndex := by cases b <;> rfl
@[simp] theorem setCtl_outByte (s : State) (b : BusId) (c : Controller) : (s.setCtl b c).outByte = s.outByte := by cases b <;> rfl
@[simp] theorem setCtl_requests (s : State) (b : BusId) (c : Controller) : (s.setCtl b c).requests = s.requests := by cases b <;> rfl
@[simp] theorem setCtl_history (s : State) (b : BusId) (c : Controller) : (s.setCtl b c).history = s.history := by cases b <;> rfl
@[simp] theorem setCtl_draws (s : State) (b : BusId) (c : Controller) : (s.setCtl b c).draws = s.draws := by cases b <;> rfl

/-! ## `record` -/

@[simp] theorem record_cfg (s : State) (a : Access) : (s.record a).cfg = s.cfg := rfl
@[simp] theorem record_ctl0 (s : State) (a : Access) : (s.record a).ctl0 = s.ctl0 := rfl
@[simp] theorem record_ctl1 (s : State) (a : Access) : (s.record a).ctl1 = s.ctl1 := rfl
@[simp] theorem record_activeBase (s : State) (a : Access) : (s.record a).activeBase = s.activeBase := rfl
@[simp] theorem record_phase (s : State) (a : Access) : (s.record a).phase = s.phase := rfl
@[simp] theorem record_operands (s : State) (a : Access) : (s.record a).operands = s.operands := rfl
@[simp] theorem record_pollCnt (s : State) (a : Access) : (s.record a).pollCnt = s.pollCnt := rfl
@[simp] theorem record_result (s : State) (a : Access) : (s.record a).result = s.result := rfl
@[simp] theorem record_dataBuf (s : State) (a : Access) : (s.record a).dataBuf = s.dataBuf := rfl
@[simp] theorem record_outIndex (s : State) (a : Access) : (s.record a).outIndex = s.outIndex := rfl
@[simp] theorem record_outByte (s : State) (a : Access) : (s.record a).outByte = s.outByte := rfl
@[simp] theorem record_requests (s : State) (a : Access) : (s.record a).requests = s.requests := rfl
@[simp] theorem record_draws (s : State) (a : Access) : (s.record a).draws = s.draws := rfl
@[simp] theorem record_history (s : State) (a : Access) : (s.record a).history = s.history ++ [a] := rfl

@[simp] theorem record_ctl (s : State) (a : Access) (b : BusId) : (s.record a).ctl b = s.ctl b := by cases b <;> rfl

/-! ## `regWrite` -/

@[simp] theorem regWrite_cfg (b : BusId) (off : RegOffset) (v : Byte) (s : State) : (s.regWrite b off v).cfg = s.cfg := by simp [regWrite]
@[simp] theorem regWrite_activeBase (b : BusId) (off : RegOffset) (v : Byte) (s : State) : (s.regWrite b off v).activeBase = s.activeBase := by simp [regWrite]
@[simp] theorem regWrite_phase (b : BusId) (off : RegOffset) (v : Byte) (s : State) : (s.regWrite b off v).phase = s.phase := by simp [regWrite]
@[simp] theorem regWrite_operands (b : BusId) (off : RegOffset) (v : Byte) (s : State) : (s.regWrite b off v).operands = s.operands := by simp [regWrite]
@[simp] theorem regWrite_pollCnt (b : BusId) (off : RegOffset) (v : Byte) (s : State) : (s.regWrite b off v).pollCnt = s.pollCnt := by simp [regWrite]
@[simp] theorem regWrite_result (b : BusId) (off : RegOffset) (v : Byte) (s : State) : (s.regWrite b off v).result = s.result := by simp [regWrite]
@[simp] theorem regWrite_dataBuf (b : BusId) (off : RegOffset) (v : Byte) (s : State) : (s.regWrite b off v).dataBuf = s.dataBuf := by simp [regWrite]
@[simp] theorem regWrite_outIndex (b : BusId) (off : RegOffset) (v : Byte) (s : State) : (s.regWrite b off v).outIndex = s.outIndex := by simp [regWrite]
@[simp] theorem regWrite_outByte (b : BusId) (off : RegOffset) (v : Byte) (s : State) : (s.regWrite b off v).outByte = s.outByte := by simp [regWrite]
@[simp] theorem regWrite_requests (b : BusId) (off : RegOffset) (v : Byte) (s : State) : (s.regWrite b off v).requests = s.requests := by simp [regWrite]
@[simp] theorem regWrite_draws (b : BusId) (off : RegOffset) (v : Byte) (s : State) : (s.regWrite b off v).draws = s.draws := by simp [regWrite]
@[simp] theorem regWrite_history (b : BusId) (off : RegOffset) (v : Byte) (s : State) : (s.regWrite b off v).history = s.history ++ [.write (baseOf s.cfg b) off v] := by simp [regWrite]

@[simp] theorem regWrite_ctl_same (b : BusId) (off : RegOffset) (v : Byte) (s : State) :
    (s.regWrite b off v).ctl b = (s.ctl b).write off v := by simp [regWrite]

theorem regWrite_ctl_ne {b b' : BusId} (h : b' ≠ b) (off : RegOffset) (v : Byte) (s : State) :
    (s.regWrite b off v).ctl b' = s.ctl b' := by simp [regWrite, ctl_setCtl_ne s h]

/-! ## `regRead` -/

@[simp] theorem regRead_cfg (b : BusId) (off : RegOffset) (s : State) : (s.regRead b off).cfg = s.cfg := by simp [regRead]
@[simp] theorem regRead_activeBase (b : BusId) (off : RegOffset) (s : State) : (s.regRead b off).activeBase = s.activeBase := by simp [regRead]
@[simp] theorem regRead_phase (b : BusId) (off : RegOffset) (s : State) : (s.regRead b off).phase = s.phase := by simp [regRead]
@[simp] theorem regRead_operands (b : BusId) (off : RegOffset) (s : State) : (s.regRead b off).operands = s.operands := by simp [regRead]
@[simp] theorem regRead_pollCnt (b : BusId) (off : RegOffset) (s : State) : (s.regRead b off).pollCnt = s.pollCnt := by simp [regRead]
@[simp] theorem regRead_result (b : BusId) (off : RegOffset) (s : State) : (s.regRead b off).result = s.result := by simp [regRead]
@[simp] theorem regRead_dataBuf (b : BusId) (off : RegOffset) (s : State) : (s.regRead b off).dataBuf = s.dataBuf := by simp [regRead]
@[simp] theorem regRead_outIndex (b : BusId) (off : RegOffset) (s : State) : (s.regRead b off).outIndex = s.outIndex := by simp [regRead]
@[simp] theorem regRead_outByte (b : BusId) (off : RegOffset) (s : State) : (s.regRead b off).outByte = s.outByte := by simp [regRead]
@[simp] theorem regRead_requests (b : BusId) (off : RegOffset) (s : State) : (s.regRead b off).requests = s.requests := by simp [regRead]
@[simp] theorem regRead_draws (b : BusId) (off : RegOffset) (s : State) : (s.regRead b off).draws = s.draws := by simp [regRead]
@[simp] theorem regRead_history (b : BusId) (off : RegOffset) (s : State) : (s.regRead b off).history = s.history ++ [.read (baseOf s.cfg b) off (s.answer b off)] := by simp [regRead]

@[simp] theorem regRead_ctl_same (b : BusId) (off : RegOffset) (s : State) :
    (s.regRead b off).ctl b = s.ctlAfterRead b off := by simp [regRead]

theorem regRead_ctl_ne {b b' : BusId} (h : b' ≠ b) (off : RegOffset) (s : State) :
    (s.regRead b off).ctl b' = s.ctl b' := by simp [regRead, ctl_setCtl_ne s h]

/-! ## `setPoll` -/

@[simp] theorem setPoll_cfg (s : State) (n : Nat) : (s.setPoll n).cfg = s.cfg := rfl
@[simp] theorem setPoll_ctl0 (s : State) (n : Nat) : (s.setPoll n).ctl0 = s.ctl0 := rfl
@[simp] theorem setPoll_ctl1 (s : State) (n : Nat) : (s.setPoll n).ctl1 = s.ctl1 := rfl
@[simp] theorem setPoll_activeBase (s : State) (n : Nat) : (s.setPoll n).activeBase = s.activeBase := rfl
@[simp] theorem setPoll_phase (s : State) (n : Nat) : (s.setPoll n).phase = s.phase := rfl
@[simp] theorem setPoll_operands (s : State) (n : Nat) : (s.setPoll n).operands = s.operands := rfl
@[simp] theorem setPoll_result (s : State) (n : Nat) : (s.setPoll n).result = s.result := rfl
@[simp] theorem setPoll_dataBuf (s : State) (n : Nat) : (s.setPoll n).dataBuf = s.dataBuf := rfl
@[simp] theorem setPoll_outIndex (s : State) (n : Nat) : (s.setPoll n).outIndex = s.outIndex := rfl
@[simp] theorem setPoll_outByte (s : State) (n : Nat) : (s.setPoll n).outByte = s.outByte := rfl
@[simp] theorem setPoll_requests (s : State) (n : Nat) : (s.setPoll n).requests = s.requests := rfl
@[simp] theorem setPoll_history (s : State) (n : Nat) : (s.setPoll n).history = s.history := rfl
@[simp] theorem setPoll_draws (s : State) (n : Nat) : (s.setPoll n).draws = s.draws := rfl
@[simp] theorem setPoll_pollCnt (s : State) (n : Nat) : (s.setPoll n).pollCnt = n := rfl

@[simp] theorem setPoll_ctl (s : State) (n : Nat) (b : BusId) : (s.setPoll n).ctl b = s.ctl b := by cases b <;> rfl
@[simp] theorem setPoll_setPoll (s : State) (m n : Nat) : (s.setPoll m).setPoll n = s.setPoll n := rfl

/-! ## `pollRead` -/

@[simp] theorem pollRead_cfg (b : BusId) (s : State) : (s.pollRead b).cfg = s.cfg := by simp [pollRead]
@[simp] theorem pollRead_activeBase (b : BusId) (s : State) : (s.pollRead b).activeBase = s.activeBase := by simp [pollRead]
@[simp] theorem pollRead_phase (b : BusId) (s : State) : (s.pollRead b).phase = s.phase := by simp [pollRead]
@[simp] theorem pollRead_operands (b : BusId) (s : State) : (s.pollRead b).operands = s.operands := by simp [pollRead]
@[simp] theorem pollRead_result (b : BusId) (s : State) : (s.pollRead b).result = s.result := by simp [pollRead]
@[simp] theorem pollRead_dataBuf (b : BusId) (s : State) : (s.pollRead b).dataBuf = s.dataBuf := by simp [pollRead]
@[simp] theorem pollRead_outIndex (b : BusId) (s : State) : (s.pollRead b).outIndex = s.outIndex := by simp [pollRead]
@[simp] theorem pollRead_outByte (b : BusId) (s : State) : (s.pollRead b).outByte = s.outByte := by simp [pollRead]
@[simp] theorem pollRead_requests (b : BusId) (s : State) : (s.pollRead b).requests = s.requests := by simp [pollRead]
@[simp] theorem pollRead_draws (b : BusId) (s : State) : (s.pollRead b).draws = s.draws := by simp [pollRead]
@[simp] theorem pollRead_history (b : BusId) (s : State) : (s.pollRead b).history = s.history ++ [.read (baseOf s.cfg b) .crSr (s.answer b .crSr)] := by simp [pollRead]
@[simp] theorem pollRead_pollCnt (b : BusId) (s : State) : (s.pollRead b).pollCnt = s.pollCnt + 1 := by simp [pollRead]

@[simp] theorem pollRead_ctl_same (b : BusId) (s : State) :
    (s.pollRead b).ctl b = s.ctlAfterRead b .crSr := by simp [pollRead]

theorem pollRead_ctl_ne {b b' : BusId} (h : b' ≠ b) (s : State) : (s.pollRead b).ctl b' = s.ctl b' := by
  simp [pollRead, regRead_ctl_ne h]

/-! ## `deliver` -/

@[simp] theorem deliver_cfg (s : State) (d : Dest) (v : Byte) : (s.deliver d v).cfg = s.cfg := by cases d <;> rfl
@[simp] theorem deliver_ctl0 (s : State) (d : Dest) (v : Byte) : (s.deliver d v).ctl0 = s.ctl0 := by cases d <;> rfl
@[simp] theorem deliver_ctl1 (s : State) (d : Dest) (v : Byte) : (s.deliver d v).ctl1 = s.ctl1 := by cases d <;> rfl
@[simp] theorem deliver_activeBase (s : State) (d : Dest) (v : Byte) : (s.deliver d v).activeBase = s.activeBase := by cases d <;> rfl
@[simp] theorem deliver_phase (s : State) (d : Dest) (v : Byte) : (s.deliver d v).phase = s.phase := by cases d <;> rfl
@[simp] theorem deliver_operands (s : State) (d : Dest) (v : Byte) : (s.deliver d v).operands = s.operands := by cases d <;> rfl
@[simp] theorem deliver_pollCnt (s : State) (d : Dest) (v : Byte) : (s.deliver d v).pollCnt = s.pollCnt := by cases d <;> rfl
@[simp] theorem deliver_result (s : State) (d : Dest) (v : Byte) : (s.deliver d v).result = s.result := by cases d <;> rfl
@[simp] theorem deliver_outIndex (s : State) (d : Dest) (v : Byte) : (s.deliver d v).outIndex = s.outIndex := by cases d <;> rfl
@[simp] theorem deliver_requests (s : State) (d : Dest) (v : Byte) : (s.deliver d v).requests = s.requests := by cases d <;> rfl
@[simp] theorem deliver_history (s : State) (d : Dest) (v : Byte) : (s.deliver d v).history = s.history := by cases d <;> rfl
@[simp] theorem deliver_draws (s : State) (d : Dest) (v : Byte) : (s.deliver d v).draws = s.draws := by cases d <;> rfl

@[simp] theorem deliver_outByte_outByte (s : State) (v : Byte) : (s.deliver .outByte v).outByte = v := rfl
@[simp] theorem deliver_outByte_dataBuf (s : State) (v : Byte) : (s.deliver .outByte v).dataBuf = s.dataBuf := rfl
@[simp] theorem deliver_dataBuf_outByte (s : State) (v : Byte) : (s.deliver .dataBuf v).outByte = s.outByte := rfl
@[simp] theorem deliver_dataBuf_dataBuf (s : State) (v : Byte) :
    (s.deliver .dataBuf v).dataBuf = s.dataBuf ++ [v] := rfl
@[simp] theorem deliver_ctl (s : State) (d : Dest) (v : Byte) (b : BusId) : (s.deliver d v).ctl b = s.ctl b := by
  cases d <;> cases b <;> rfl

/-! ## `succeed` -/

@[simp] theorem succeed_cfg (s : State) : s.succeed.cfg = s.cfg := rfl
@[simp] theorem succeed_ctl0 (s : State) : s.succeed.ctl0 = s.ctl0 := rfl
@[simp] theorem succeed_ctl1 (s : State) : s.succeed.ctl1 = s.ctl1 := rfl
@[simp] theorem succeed_activeBase (s : State) : s.succeed.activeBase = s.activeBase := rfl
@[simp] theorem succeed_operands (s : State) : s.succeed.operands = s.operands := rfl
@[simp] theorem succeed_pollCnt (s : State) : s.succeed.pollCnt = s.pollCnt := rfl
@[simp] theorem succeed_dataBuf (s : State) : s.succeed.dataBuf = s.dataBuf := rfl
@[simp] theorem succeed_outIndex (s : State) : s.succeed.outIndex = s.outIndex := rfl
@[simp] theorem succeed_outByte (s : State) : s.succeed.outByte = s.outByte := rfl
@[simp] theorem succeed_requests (s : State) : s.succeed.requests = s.requests := rfl
@[simp] theorem succeed_history (s : State) : s.succeed.history = s.history := rfl
@[simp] theorem succeed_draws (s : State) : s.succeed.draws = s.draws := rfl
@[simp] theorem succeed_phase (s : State) : s.succeed.phase = .idle := rfl
@[simp] theorem succeed_result (s : State) : s.succeed.result = .ok := rfl

@[simp] theorem succeed_ctl (s : State) (b : BusId) : s.succeed.ctl b = s.ctl b := by cases b <;> rfl

/-! ## `raise` -/

@[simp] theorem raise_cfg (k : ErrorKind) (s : State) : (s.raise k).cfg = s.cfg := rfl
@[simp] theorem raise_ctl0 (k : ErrorKind) (s : State) : (s.raise k).ctl0 = s.ctl0 := rfl
@[simp] theorem raise_ctl1 (k : ErrorKind) (s : State) : (s.raise k).ctl1 = s.ctl1 := rfl
@[simp] theorem raise_activeBase (k : ErrorKind) (s : State) : (s.raise k).activeBase = s.activeBase := rfl
@[simp] theorem raise_operands (k : ErrorKind) (s : State) : (s.raise k).operands = s.operands := rfl
@[simp] theorem raise_pollCnt (k : ErrorKind) (s : State) : (s.raise k).pollCnt = s.pollCnt := rfl
@[simp] theorem raise_dataBuf (k : ErrorKind) (s : State) : (s.raise k).dataBuf = s.dataBuf := rfl
@[simp] theorem raise_outIndex (k : ErrorKind) (s : State) : (s.raise k).outIndex = s.outIndex := rfl
@[simp] theorem raise_outByte (k : ErrorKind) (s : State) : (s.raise k).outByte = s.outByte := rfl
@[simp] theorem raise_requests (k : ErrorKind) (s : State) : (s.raise k).requests = s.requests := rfl
@[simp] theorem raise_history (k : ErrorKind) (s : State) : (s.raise k).history = s.history := rfl
@[simp] theorem raise_draws (k : ErrorKind) (s : State) : (s.raise k).draws = s.draws := rfl
@[simp] theorem raise_phase (k : ErrorKind) (s : State) : (s.raise k).phase = .idle := rfl
@[simp] theorem raise_result (k : ErrorKind) (s : State) : (s.raise k).result = .err k := rfl

@[simp] theorem raise_ctl (k : ErrorKind) (s : State) (b : BusId) : (s.raise k).ctl b = s.ctl b := by cases b <;> rfl

/-! ## `failWith` -/

@[simp] theorem failWith_cfg (i : Instr) (k : ErrorKind) (s : State) : (s.failWith i k).cfg = s.cfg := by cases i <;> rfl
@[simp] theorem failWith_ctl0 (i : Instr) (k : ErrorKind) (s : State) : (s.failWith i k).ctl0 = s.ctl0 := by cases i <;> rfl
@[simp] theorem failWith_ctl1 (i : Instr) (k : ErrorKind) (s : State) : (s.failWith i k).ctl1 = s.ctl1 := by cases i <;> rfl
@[simp] theorem failWith_activeBase (i : Instr) (k : ErrorKind) (s : State) : (s.failWith i k).activeBase = s.activeBase := by cases i <;> rfl
@[simp] theorem failWith_operands (i : Instr) (k : ErrorKind) (s : State) : (s.failWith i k).operands = s.operands := by cases i <;> rfl
@[simp] theorem failWith_pollCnt (i : Instr) (k : ErrorKind) (s : State) : (s.failWith i k).pollCnt = s.pollCnt := by cases i <;> rfl
@[simp] theorem failWith_requests (i : Instr) (k : ErrorKind) (s : State) : (s.failWith i k).requests = s.requests := by cases i <;> rfl
@[simp] theorem failWith_history (i : Instr) (k : ErrorKind) (s : State) : (s.failWith i k).history = s.history := by cases i <;> rfl
@[simp] theorem failWith_phase (i : Instr) (k : ErrorKind) (s : State) : (s.failWith i k).phase = .idle := by cases i <;> rfl
@[simp] theorem failWith_result (i : Instr) (k : ErrorKind) (s : State) : (s.failWith i k).result = .err k := by cases i <;> rfl

@[simp] theorem failWith_ctl (i : Instr) (k : ErrorKind) (s : State) (b : BusId) : (s.failWith i k).ctl b = s.ctl b := by
  cases i <;> cases b <;> rfl

/-! ## `latch` -/

@[simp] theorem latch_cfg (i : Instr) (s : State) : (s.latch i).cfg = s.cfg := by cases i <;> rfl
@[simp] theorem latch_ctl0 (i : Instr) (s : State) : (s.latch i).ctl0 = s.ctl0 := by cases i <;> rfl
@[simp] theorem latch_ctl1 (i : Instr) (s : State) : (s.latch i).ctl1 = s.ctl1 := by cases i <;> rfl
@[simp] theorem latch_activeBase (i : Instr) (s : State) : (s.latch i).activeBase = s.activeBase := by cases i <;> rfl
@[simp] theorem latch_phase (i : Instr) (s : State) : (s.latch i).phase = s.phase := by cases i <;> rfl
@[simp] theorem latch_pollCnt (i : Instr) (s : State) : (s.latch i).pollCnt = s.pollCnt := by cases i <;> rfl
@[simp] theorem latch_result (i : Instr) (s : State) : (s.latch i).result = s.result := by cases i <;> rfl
@[simp] theorem latch_outIndex (i : Instr) (s : State) : (s.latch i).outIndex = s.outIndex := by cases i <;> rfl
@[simp] theorem latch_outByte (i : Instr) (s : State) : (s.latch i).outByte = s.outByte := by cases i <;> rfl
@[simp] theorem latch_requests (i : Instr) (s : State) : (s.latch i).requests = s.requests := by cases i <;> rfl
@[simp] theorem latch_history (i : Instr) (s : State) : (s.latch i).history = s.history := by cases i <;> rfl
@[simp] theorem latch_draws (i : Instr) (s : State) : (s.latch i).draws = s.draws := by cases i <;> rfl
@[simp] theorem latch_operands (i : Instr) (s : State) : (s.latch i).operands = latchOperands s.operands i := by cases i <;> rfl

@[simp] theorem latch_ctl (i : Instr) (s : State) (b : BusId) : (s.latch i).ctl b = s.ctl b := by
  cases i <;> cases b <;> rfl

/-! ## `setActive` -/

@[simp] theorem setActive_cfg (b : BusId) (s : State) : (s.setActive b).cfg = s.cfg := rfl
@[simp] theorem setActive_ctl0 (b : BusId) (s : State) : (s.setActive b).ctl0 = s.ctl0 := rfl
@[simp] theorem setActive_ctl1 (b : BusId) (s : State) : (s.setActive b).ctl1 = s.ctl1 := rfl
@[simp] theorem setActive_phase (b : BusId) (s : State) : (s.setActive b).phase = s.phase := rfl
@[simp] theorem setActive_operands (b : BusId) (s : State) : (s.setActive b).operands = s.operands := rfl
@[simp] theorem setActive_pollCnt (b : BusId) (s : State) : (s.setActive b).pollCnt = s.pollCnt := rfl
@[simp] theorem setActive_result (b : BusId) (s : State) : (s.setActive b).result = s.result := rfl
@[simp] theorem setActive_dataBuf (b : BusId) (s : State) : (s.setActive b).dataBuf = s.dataBuf := rfl
@[simp] theorem setActive_outIndex (b : BusId) (s : State) : (s.setActive b).outIndex = s.outIndex := rfl
@[simp] theorem setActive_outByte (b : BusId) (s : State) : (s.setActive b).outByte = s.outByte := rfl
@[simp] theorem setActive_requests (b : BusId) (s : State) : (s.setActive b).requests = s.requests := rfl
@[simp] theorem setActive_history (b : BusId) (s : State) : (s.setActive b).history = s.history := rfl
@[simp] theorem setActive_draws (b : BusId) (s : State) : (s.setActive b).draws = s.draws := rfl
@[simp] theorem setActive_activeBase (b : BusId) (s : State) : (s.setActive b).activeBase = some (baseOf s.cfg b) := rfl

@[simp] theorem setActive_ctl (b b' : BusId) (s : State) : (s.setActive b).ctl b' = s.ctl b' := by cases b' <;> rfl

/-! ## `resolveBus` -/

@[simp] theorem resolveBus_cfg (s : State) : s.resolveBus.cfg = s.cfg := by unfold resolveBus; split <;> rfl
@[simp] theorem resolveBus_ctl0 (s : State) : s.resolveBus.ctl0 = s.ctl0 := by unfold resolveBus; split <;> rfl
@[simp] theorem resolveBus_ctl1 (s : State) : s.resolveBus.ctl1 = s.ctl1 := by unfold resolveBus; split <;> rfl
@[simp] theorem resolveBus_phase (s : State) : s.resolveBus.phase = s.phase := by unfold resolveBus; split <;> rfl
@[simp] theorem resolveBus_operands (s : State) : s.resolveBus.operands = s.operands := by unfold resolveBus; split <;> rfl
@[simp] theorem resolveBus_pollCnt (s : State) : s.resolveBus.pollCnt = s.pollCnt := by unfold resolveBus; split <;> rfl
@[simp] theorem resolveBus_result (s : State) : s.resolveBus.result = s.result := by unfold resolveBus; split <;> rfl
@[simp] theorem resolveBus_dataBuf (s : State) : s.resolveBus.dataBuf = s.dataBuf := by unfold resolveBus; split <;> rfl
@[simp] theorem resolveBus_outIndex (s : State) : s.resolveBus.outIndex = s.outIndex := by unfold resolveBus; split <;> rfl
@[simp] theorem resolveBus_outByte (s : State) : s.resolveBus.outByte = s.outByte := by unfold resolveBus; split <;> rfl
@[simp] theorem resolveBus_requests (s : State) : s.resolveBus.requests = s.requests := by unfold resolveBus; split <;> rfl
@[simp] theorem resolveBus_history (s : State) : s.resolveBus.history = s.history := by unfold resolveBus; split <;> rfl
@[simp] theorem resolveBus_draws (s : State) : s.resolveBus.draws = s.draws := by unfold resolveBus; split <;> rfl

@[simp] theorem resolveBus_ctl (s : State) (b : BusId) : s.resolveBus.ctl b = s.ctl b := by
  unfold resolveBus; split <;> simp
theorem resolveBus_unset (s : State) (h : s.activeBase = none) :
    s.resolveBus.activeBase = some (baseOf s.cfg defaultBus) := by simp [resolveBus, h]
theorem resolveBus_set (s : State) {a : Addr} (h : s.activeBase = some a) : s.resolveBus = s := by
  simp [resolveBus, h]

/-! ## `setOutIndex` -/

@[simp] theorem setOutIndex_cfg (n : Nat) (s : State) : (s.setOutIndex n).cfg = s.cfg := rfl
@[simp] theorem setOutIndex_ctl0 (n : Nat) (s : State) : (s.setOutIndex n).ctl0 = s.ctl0 := rfl
@[simp] theorem setOutIndex_ctl1 (n : Nat) (s : State) : (s.setOutIndex n).ctl1 = s.ctl1 := rfl
@[simp] theorem setOutIndex_activeBase (n : Nat) (s : State) : (s.setOutIndex n).activeBase = s.activeBase := rfl
@[simp] theorem setOutIndex_phase (n : Nat) (s : State) : (s.setOutIndex n).phase = s.phase := rfl
@[simp] theorem setOutIndex_operands (n : Nat) (s : State) : (s.setOutIndex n).operands = s.operands := rfl
@[simp] theorem setOutIndex_pollCnt (n : Nat) (s : State) : (s.setOutIndex n).pollCnt = s.pollCnt := rfl
@[simp] theorem setOutIndex_result (n : Nat) (s : State) : (s.setOutIndex n).result = s.result := rfl
@[simp] theorem setOutIndex_dataBuf (n : Nat) (s : State) : (s.setOutIndex n).dataBuf = s.dataBuf := rfl
@[simp] theorem setOutIndex_outByte (n : Nat) (s : State) : (s.setOutIndex n).outByte = s.outByte := rfl
@[simp] theorem setOutIndex_requests (n : Nat) (s : State) : (s.setOutIndex n).requests = s.requests := rfl
@[simp] theorem setOutIndex_history (n : Nat) (s : State) : (s.setOutIndex n).history = s.history := rfl
@[simp] theorem setOutIndex_draws (n : Nat) (s : State) : (s.setOutIndex n).draws = s.draws := rfl
@[simp] theorem setOutIndex_outIndex (n : Nat) (s : State) : (s.setOutIndex n).outIndex = n := rfl
@[simp] theorem setOutIndex_ctl (n : Nat) (s : State) (b : BusId) : (s.setOutIndex n).ctl b = s.ctl b := by cases b <;> rfl

/-! ## `setPhase` -/

@[simp] theorem setPhase_cfg (s : State) (p : Phase) : (s.setPhase p).cfg = s.cfg := rfl
@[simp] theorem setPhase_ctl0 (s : State) (p : Phase) : (s.setPhase p).ctl0 = s.ctl0 := rfl
@[simp] theorem setPhase_ctl1 (s : State) (p : Phase) : (s.setPhase p).ctl1 = s.ctl1 := rfl
@[simp] theorem setPhase_activeBase (s : State) (p : Phase) : (s.setPhase p).activeBase = s.activeBase := rfl
@[simp] theorem setPhase_operands (s : State) (p : Phase) : (s.setPhase p).operands = s.operands := rfl
@[simp] theorem setPhase_pollCnt (s : State) (p : Phase) : (s.setPhase p).pollCnt = s.pollCnt := rfl
@[simp] theorem setPhase_result (s : State) (p : Phase) : (s.setPhase p).result = s.result := rfl
@[simp] theorem setPhase_dataBuf (s : State) (p : Phase) : (s.setPhase p).dataBuf = s.dataBuf := rfl
@[simp] theorem setPhase_outIndex (s : State) (p : Phase) : (s.setPhase p).outIndex = s.outIndex := rfl
@[simp] theorem setPhase_outByte (s : State) (p : Phase) : (s.setPhase p).outByte = s.outByte := rfl
@[simp] theorem setPhase_requests (s : State) (p : Phase) : (s.setPhase p).requests = s.requests := rfl
@[simp] theorem setPhase_history (s : State) (p : Phase) : (s.setPhase p).history = s.history := rfl
@[simp] theorem setPhase_draws (s : State) (p : Phase) : (s.setPhase p).draws = s.draws := rfl
@[simp] theorem setPhase_phase (s : State) (p : Phase) : (s.setPhase p).phase = p := rfl

@[simp] theorem setPhase_ctl (s : State) (p : Phase) (b : BusId) : (s.setPhase p).ctl b = s.ctl b := by cases b <;> rfl

end State

end Sys2Proof.Machine
end

