-- ==== Sys2Proof/Laws/Ops.lean ====
section
/-! SUPPORT. What the shared operations can do, said once: the answers of the environment, the two waits, the
steps of an operation and their frame, the admission of a request. -/

namespace Sys2Proof.Machine

/-! ## Answers -/

theorem answer_congr {b : BusId} {s t : State} (off : RegOffset) (hc : t.cfg = s.cfg)
    (he : (t.ctl b).env = (s.ctl b).env) (hh : t.history = s.history) : t.answer b off = s.answer b off := by
  simp [State.answer, hc, he, hh]

@[simp] theorem answer_setPoll (b : BusId) (off : RegOffset) (s : State) (n : Nat) :
    (s.setPoll n).answer b off = s.answer b off := answer_congr off rfl (by simp) rfl

@[simp] theorem answer_latch (b : BusId) (off : RegOffset) (i : Instr) (s : State) :
    (s.latch i).answer b off = s.answer b off := answer_congr off (by simp) (by simp) (by simp)

@[simp] theorem answer_setPhase (b : BusId) (off : RegOffset) (s : State) (p : Phase) :
    (s.setPhase p).answer b off = s.answer b off := answer_congr off rfl (by simp) rfl

@[simp] theorem ctlAfterRead_setPoll (b : BusId) (off : RegOffset) (s : State) (n : Nat) :
    (s.setPoll n).ctlAfterRead b off = s.ctlAfterRead b off := by simp [State.ctlAfterRead]

@[simp] theorem ctlAfterRead_env (b : BusId) (off : RegOffset) (s : State) :
    (s.ctlAfterRead b off).env = ((s.ctl b).env.answer s.history (baseOf s.cfg b) off).2 := rfl

@[simp] theorem write_env (c : Controller) (off : RegOffset) (v : Byte) : (c.write off v).env = c.env := by
  cases off <;> rfl

@[simp] theorem pollRead_setPoll_env (b b' : BusId) (s : State) (n : Nat) :
    (((s.setPoll n).pollRead b).ctl b').env = ((s.pollRead b).ctl b').env := by
  cases b <;> cases b' <;> rfl

/-- Two states with the same parameters, the same environment of `b` and the same history meet the same
status values. -/
theorem statusAnswer_congr {b : BusId} (n : Nat) : ∀ {s t : State}, t.cfg = s.cfg →
    (t.ctl b).env = (s.ctl b).env → t.history = s.history → statusAnswer b n t = statusAnswer b n s := by
  induction n with
  | zero => intro s t hc he hh; exact answer_congr _ hc he hh
  | succ n ih =>
    intro s t hc he hh
    have ha : t.answer b .crSr = s.answer b .crSr := answer_congr _ hc he hh
    exact ih (by simpa using hc) (by simp [he, hh, hc]) (by simp [hh, hc, ha])

@[simp] theorem statusAnswer_setPoll (b : BusId) (n m : Nat) (s : State) :
    statusAnswer b n (s.setPoll m) = statusAnswer b n s := statusAnswer_congr n rfl (by simp) rfl

theorem statusReads_congr {b : BusId} (n : Nat) : ∀ {s t : State}, t.cfg = s.cfg →
    (t.ctl b).env = (s.ctl b).env → t.history = s.history → statusReads b n t = statusReads b n s := by
  induction n with
  | zero => intros; rfl
  | succ n ih =>
    intro s t hc he hh
    have ha : t.answer b .crSr = s.answer b .crSr := answer_congr _ hc he hh
    simp only [statusReads, hc, ha]
    exact congrArg _ (ih (by simpa using hc) (by simp [he, hh, hc]) (by simp [hh, hc, ha]))

@[simp] theorem statusReads_setPoll (b : BusId) (n m : Nat) (s : State) :
    statusReads b n (s.setPoll m) = statusReads b n s := statusReads_congr n rfl (by simp) rfl

@[simp] theorem statusReads_length (b : BusId) (n : Nat) (s : State) : (statusReads b n s).length = n := by
  induction n generalizing s with
  | zero => rfl
  | succ n ih => simp [statusReads, ih]

/-! ## Successive status reads -/

theorem afterPolls_history (b : BusId) (n : Nat) (s : State) :
    (afterPolls b n s).history = s.history ++ statusReads b n s := by
  induction n generalizing s with
  | zero => simp [afterPolls, statusReads]
  | succ n ih => simp [afterPolls, statusReads, ih]

theorem afterPolls_pollCnt (b : BusId) (n : Nat) (s : State) :
    (afterPolls b n s).pollCnt = s.pollCnt + n := by
  induction n generalizing s with
  | zero => rfl
  | succ n ih => simp [afterPolls, ih]; omega

/-! ## The frame of the steps -/

/-- What the steps of an operation on instance `b` leave as it was, and the accesses they add. -/
structure StepsFrame (b : BusId) (s t : State) : Prop where
  cfg : t.cfg = s.cfg
  activeBase : t.activeBase = s.activeBase
  phase : t.phase = s.phase
  operands : t.operands = s.operands
  result : t.result = s.result
  outIndex : t.outIndex = s.outIndex
  requests : t.requests = s.requests
  draws : t.draws = s.draws
  other : ∀ b', b' ≠ b → t.ctl b' = s.ctl b'
  history : ∃ l, t.history = s.history ++ l ∧ ∀ a ∈ l, a.base = baseOf s.cfg b

namespace StepsFrame

theorem refl (b : BusId) (s : State) : StepsFrame b s s :=
  ⟨rfl, rfl, rfl, rfl, rfl, rfl, rfl, rfl, fun _ _ => rfl, [], by simp, by simp⟩

theorem trans {b : BusId} {s t u : State} (h : StepsFrame b s t) (k : StepsFrame b t u) : StepsFrame b s u := by
  obtain ⟨l, hl, hb⟩ := h.history
  obtain ⟨m, hm, hb'⟩ := k.history
  refine ⟨k.cfg.trans h.cfg, k.activeBase.trans h.activeBase, k.phase.trans h.phase, k.operands.trans h.operands,
    k.result.trans h.result, k.outIndex.trans h.outIndex, k.requests.trans h.requests, k.draws.trans h.draws,
    fun b' hb' => (k.other b' hb').trans (h.other b' hb'), l ++ m, by simp [hm, hl], ?_⟩
  intro a ha
  rcases List.mem_append.1 ha with ha | ha
  · exact hb a ha
  · rw [hb' a ha, h.cfg]

end StepsFrame

theorem regWrite_frame (b : BusId) (off : RegOffset) (v : Byte) (s : State) :
    StepsFrame b s (s.regWrite b off v) :=
  ⟨by simp, by simp, by simp, by simp, by simp, by simp, by simp, by simp,
    fun _ h => State.regWrite_ctl_ne h off v s, _, State.regWrite_history b off v s, by simp [Access.base]⟩

theorem regRead_frame (b : BusId) (off : RegOffset) (s : State) : StepsFrame b s (s.regRead b off) :=
  ⟨by simp, by simp, by simp, by simp, by simp, by simp, by simp, by simp,
    fun _ h => State.regRead_ctl_ne h off s, _, State.regRead_history b off s, by simp [Access.base]⟩

theorem setPoll_frame (b : BusId) (s : State) (n : Nat) : StepsFrame b s (s.setPoll n) :=
  ⟨rfl, rfl, rfl, rfl, rfl, rfl, rfl, rfl, fun _ _ => by simp, [], by simp, by simp⟩

theorem deliver_frame (b : BusId) (s : State) (d : Dest) (v : Byte) : StepsFrame b s (s.deliver d v) :=
  ⟨by simp, by simp, by simp, by simp, by simp, by simp, by simp, by simp, fun _ _ => by simp, [],
    by simp, by simp⟩

theorem pollRead_frame (b : BusId) (s : State) : StepsFrame b s (s.pollRead b) :=
  (regRead_frame b .crSr s).trans (setPoll_frame b _ _)

theorem afterPolls_frame (b : BusId) (n : Nat) (s : State) : StepsFrame b s (afterPolls b n s) := by
  induction n generalizing s with
  | zero => exact StepsFrame.refl b s
  | succ n ih => exact (pollRead_frame b s).trans (ih _)

/-! ## The waits -/

/-- Everything the bus-not-busy wait can do: success at the first status value with BUSY clear, or `Busy`
after exactly the budget. -/
theorem pollNotBusy_cases (b : BusId) (n : Nat) (s : State) :
    (∃ k < n, NotBusyAt b k s ∧ pollNotBusy b n s = (afterPolls b (k + 1) s, none)) ∨
      (StillBusy b n s ∧ pollNotBusy b n s = (afterPolls b n s, some .busy)) := by
  induction n generalizing s with
  | zero => exact .inr ⟨fun _ h => absurd h (Nat.not_lt_zero _), rfl⟩
  | succ n ih =>
    by_cases hb : SR.busy (s.answer b .crSr) = true
    · have hcons : ∀ {k}, StillBusy b k (s.pollRead b) → StillBusy b (k + 1) s := by
        intro k h j hj
        cases j with
        | zero => exact hb
        | succ j => exact h j (by omega)
      rcases ih (s.pollRead b) with ⟨k, hk, ⟨hn, hc⟩, he⟩ | ⟨hs, he⟩
      · exact .inl ⟨k + 1, by omega, ⟨hcons hn, hc⟩, by simp [pollNotBusy, hb, he, afterPolls]⟩
      · exact .inr ⟨hcons hs, by simp [pollNotBusy, hb, he, afterPolls]⟩
    · refine .inl ⟨0, by omega, ⟨fun _ h => absurd h (Nat.not_lt_zero _), by simpa [statusAnswer] using hb⟩, ?_⟩
      simp [pollNotBusy, hb, afterPolls]

/-- Everything the transfer-complete wait can do. -/
theorem pollComplete_cases (b : BusId) (e : AckExpectation) (n : Nat) (s : State) :
    (∃ k < n, ArbLostAt b k s ∧
        pollComplete b e n s = (afterPolls b (k + 1) s, some .arbitrationLost)) ∨
      (∃ k < n, CompleteAt b k s ∧ ackJudge e (SR.rxack (statusAnswer b k s)) = .met ∧
        pollComplete b e n s = (afterPolls b (k + 1) s, none)) ∨
      (∃ k < n, CompleteAt b k s ∧ ackJudge e (SR.rxack (statusAnswer b k s)) = .violated ∧
        pollComplete b e n s =
          ((afterPolls b (k + 1) s).regWrite b .crSr CR.sendStopCommand, some .notAcknowledged)) ∨
      (StillTransferring b n s ∧ pollComplete b e n s = (afterPolls b n s, some .timeout)) := by
  induction n generalizing s with
  | zero => exact .inr (.inr (.inr ⟨fun _ h => absurd h (Nat.not_lt_zero _), rfl⟩))
  | succ n ih =>
    have h0 : StillTransferring b 0 s := fun _ h => absurd h (Nat.not_lt_zero _)
    by_cases ha : SR.arbLost (s.answer b .crSr) = true
    · exact .inl ⟨0, by omega, ⟨h0, ha⟩, by simp [pollComplete, ha, afterPolls]⟩
    have ha' : SR.arbLost (s.answer b .crSr) = false := by simpa using ha
    by_cases ht : SR.tip (s.answer b .crSr) = true
    · have hcons : ∀ {k}, StillTransferring b k (s.pollRead b) → StillTransferring b (k + 1) s := by
        intro k h j hj
        cases j with
        | zero => exact ⟨ha', ht⟩
        | succ j => exact h j (by omega)
      have hunf : pollComplete b e (n + 1) s = pollComplete b e n (s.pollRead b) := by
        simp [pollComplete, ha', ht]
      rcases ih (s.pollRead b) with ⟨k, hk, ⟨hs, hx⟩, he⟩ | ⟨k, hk, ⟨hs, hx⟩, hj, he⟩ |
          ⟨k, hk, ⟨hs, hx⟩, hj, he⟩ | ⟨hs, he⟩
      · exact .inl ⟨k + 1, by omega, ⟨hcons hs, hx⟩, hunf.trans he⟩
      · exact .inr (.inl ⟨k + 1, by omega, ⟨hcons hs, hx⟩, hj, hunf.trans he⟩)
      · exact .inr (.inr (.inl ⟨k + 1, by omega, ⟨hcons hs, hx⟩, hj, hunf.trans he⟩))
      · exact .inr (.inr (.inr ⟨hcons hs, hunf.trans he⟩))
    have ht' : SR.tip (s.answer b .crSr) = false := by simpa using ht
    cases hj : ackJudge e (SR.rxack (s.answer b .crSr)) with
    | met =>
      exact .inr (.inl ⟨0, by omega, ⟨h0, ha', ht'⟩, hj, by simp [pollComplete, ha', ht', hj, afterPolls]⟩)
    | violated =>
      exact .inr (.inr (.inl ⟨0, by omega, ⟨h0, ha', ht'⟩, hj, by
        simp [pollComplete, ha', ht', hj, afterPolls]⟩))

theorem pollNotBusy_frame (b : BusId) (n : Nat) (s : State) : StepsFrame b s (pollNotBusy b n s).1 := by
  rcases pollNotBusy_cases b n s with ⟨k, _, _, h⟩ | ⟨_, h⟩ <;> rw [h] <;> exact afterPolls_frame b _ s

theorem pollComplete_frame (b : BusId) (e : AckExpectation) (n : Nat) (s : State) :
    StepsFrame b s (pollComplete b e n s).1 := by
  rcases pollComplete_cases b e n s with ⟨k, _, _, h⟩ | ⟨k, _, _, _, h⟩ | ⟨k, _, _, _, h⟩ | ⟨_, h⟩ <;> rw [h]
  · exact afterPolls_frame b _ s
  · exact afterPolls_frame b _ s
  · exact (afterPolls_frame b _ s).trans (regWrite_frame b _ _ _)
  · exact afterPolls_frame b _ s

/-! ## The steps -/

theorem runStep_frame (b : BusId) (m : SeqStep) (s : State) : StepsFrame b s (runStep b m s).1 := by
  cases m with
  | write off v => exact regWrite_frame b off v s
  | read off d => exact (regRead_frame b off s).trans (deliver_frame b _ d _)
  | awaitNotBusy n => exact (setPoll_frame b s 0).trans (pollNotBusy_frame b n _)
  | awaitComplete e n => exact (setPoll_frame b s 0).trans (pollComplete_frame b e n _)
  | raise k => exact StepsFrame.refl b s

theorem runSteps_cons_ok {b : BusId} {m : SeqStep} {s t : State} (ms : List SeqStep)
    (h : runStep b m s = (t, none)) : runSteps b (m :: ms) s = runSteps b ms t := by simp [runSteps, h]

theorem runSteps_cons_err {b : BusId} {m : SeqStep} {s t : State} {k : ErrorKind} (ms : List SeqStep)
    (h : runStep b m s = (t, some k)) : runSteps b (m :: ms) s = (t, some k) := by simp [runSteps, h]

@[simp] theorem runSteps_nil (b : BusId) (s : State) : runSteps b [] s = (s, none) := rfl

@[simp] theorem runSteps_write (b : BusId) (off : RegOffset) (v : Byte) (ms : List SeqStep) (s : State) :
    runSteps b (.write off v :: ms) s = runSteps b ms (s.regWrite b off v) := runSteps_cons_ok ms rfl

@[simp] theorem runSteps_read (b : BusId) (off : RegOffset) (d : Dest) (ms : List SeqStep) (s : State) :
    runSteps b (.read off d :: ms) s = runSteps b ms ((s.regRead b off).deliver d (s.answer b off)) :=
  runSteps_cons_ok ms rfl

/-- R20: steps appended are run after the steps before them, unless those fail. -/
theorem runSteps_append (b : BusId) (l m : List SeqStep) (s : State) :
    runSteps b (l ++ m) s =
      match runSteps b l s with
      | (t, none) => runSteps b m t
      | (t, some k) => (t, some k) := by
  induction l generalizing s with
  | nil => rfl
  | cons x xs ih =>
    rcases h : runStep b x s with ⟨t, _ | k⟩
    · rw [List.cons_append, runSteps_cons_ok _ h, runSteps_cons_ok _ h, ih]
    · rw [List.cons_append, runSteps_cons_err _ h, runSteps_cons_err _ h]

theorem runSteps_frame (b : BusId) (l : List SeqStep) (s : State) : StepsFrame b s (runSteps b l s).1 := by
  induction l generalizing s with
  | nil => exact StepsFrame.refl b s
  | cons x xs ih =>
    have hx := runStep_frame b x s
    rcases h : runStep b x s with ⟨t, _ | k⟩
    · rw [h] at hx; rw [runSteps_cons_ok _ h]; exact hx.trans (ih t)
    · rw [h] at hx; rw [runSteps_cons_err _ h]; exact hx

/-! ## The end of an operation -/

@[simp] theorem finish_ok (i : Instr) (s : State) : State.finish i (s, none) = s.succeed := rfl
@[simp] theorem finish_err (i : Instr) (s : State) (k : ErrorKind) :
    State.finish i (s, some k) = s.failWith i k := rfl

theorem finish_phase (i : Instr) (r : State × Option ErrorKind) : (State.finish i r).phase = .idle := by
  rcases r with ⟨s, _ | k⟩ <;> simp

theorem finish_history (i : Instr) (r : State × Option ErrorKind) :
    (State.finish i r).history = r.1.history := by
  rcases r with ⟨s, _ | k⟩ <;> simp

theorem finish_cfg (i : Instr) (r : State × Option ErrorKind) : (State.finish i r).cfg = r.1.cfg := by
  rcases r with ⟨s, _ | k⟩ <;> simp

theorem finish_ctl (i : Instr) (r : State × Option ErrorKind) (b : BusId) :
    (State.finish i r).ctl b = r.1.ctl b := by
  rcases r with ⟨s, _ | k⟩ <;> simp

theorem finish_result_ok_iff (i : Instr) (r : State × Option ErrorKind) :
    (State.finish i r).result = .ok ↔ r.2 = none := by
  rcases r with ⟨s, _ | k⟩ <;> simp

/-! ## The base addresses -/

theorem busAt_baseOf {p : Params} (h : p.Valid) (b : BusId) : busAt p (baseOf p b) = some b := by
  cases b with
  | bus0 => simp [busAt, baseOf]
  | bus1 =>
    have hne : p.base1 ≠ p.base0 := by
      intro he; rcases h with ⟨_, _, hd, _⟩; rw [he] at hd; omega
    simp [busAt, baseOf, hne]

theorem busOfIndex_eq_some {n : Nat} {b : BusId} : busOfIndex n = some b ↔ n = busIndexOf b := by
  match n with
  | 0 => cases b <;> simp [busOfIndex, busIndexOf]
  | 1 => cases b <;> simp [busOfIndex, busIndexOf]
  | n + 2 => cases b <;> simp [busOfIndex, busIndexOf]

theorem busOfIndex_eq_none {n : Nat} : busOfIndex n = none ↔ 2 ≤ n := by
  match n with
  | 0 => simp [busOfIndex]
  | 1 => simp [busOfIndex]
  | n + 2 => simp [busOfIndex]

/-! ## Admission -/

theorem Ready.activeBus {s : State} {b : BusId} (h : Ready s b) : s.activeBus = some (some b) := by
  simp [State.activeBus, h.active, busAt_baseOf h.valid]

theorem whenIdle_idle {s : State} (h : s.phase = .idle) (go : State → Host.Outcome State Fault Refusal) :
    whenIdle s go = go s := by simp [whenIdle, h]

theorem withActiveBus_ready {s : State} {b : BusId} (h : s.activeBus = some (some b))
    (go : BusId → Host.Outcome State Fault Refusal) : withActiveBus s go = go b := by
  simp [withActiveBus, h]

@[simp] theorem activeBus_latch (s : State) (i : Instr) : (s.latch i).activeBus = s.activeBus := by
  simp [State.activeBus]

/-- An admitted request: the steps run on the active instance, then the result is set. -/
theorem perform_ready {s : State} {b : BusId} (h : Ready s b) (i : Instr) (steps : List SeqStep) :
    perform i steps s = .next (State.finish i (runSteps b steps (s.latch i))) := by
  simp [perform, whenIdle_idle h.idle, runOnActive, withActiveBus, h.activeBus]

theorem writeByteRow_ready {s : State} {b : BusId} (h : Ready s b) (off : RegOffset) (v : Byte) :
    writeByteRow off v s = .next (s.regWrite b off v) := by
  simp [writeByteRow, whenIdle_idle h.idle, withActiveBus, h.activeBus]

/-- Everything `perform` can do when it answers a next state. -/
theorem perform_next {i : Instr} {steps : List SeqStep} {s t : State} (h : perform i steps s = .next t) :
    s.phase = .idle ∧ ∃ b, s.activeBus = some (some b) ∧
      t = State.finish i (runSteps b steps (s.latch i)) := by
  unfold perform whenIdle at h
  split at h
  next hp =>
    refine ⟨hp, ?_⟩
    simp only [runOnActive, withActiveBus, activeBus_latch] at h
    split at h
    · exact absurd h (by simp)
    · exact absurd h (by simp)
    next b hb => exact ⟨b, hb, by simpa using h.symm⟩
  · exact absurd h (by simp)

end Sys2Proof.Machine
end

