-- ==== Sys2Proof/Laws/Exec.lean ====
section
/-! SUPPORT. What `exec` can do, said once for all instructions: `exec_next` takes apart an answer `next t`
into the few shapes there are, so that no proof over all instructions unfolds a meaning. -/

namespace Sys2Proof.Machine

theorem addrByte_write (c : BitVec 7) : addrByte c .write = c ++ 0#1 := by revert c; decide
theorem addrByte_read (c : BitVec 7) : addrByte c .read = c ++ 1#1 := by revert c; decide

theorem offsetAssigned_eq (n : Nat) : offsetAssigned n = (offsetOf n).isSome := by
  unfold offsetOf offsetAssigned
  split <;> simp_all

theorem ack_ne_three_eq (v : BitVec 2) : (v != 3#2) = (ackOfBits v).isSome := by revert v; decide

/-- With the selector invariant a set `ACTIVE_BASE` selects an instance. -/
theorem SelectorOk.activeBus {s : State} (h : SelectorOk s) (hn : s.activeBase ≠ none) :
    ∃ b, s.activeBus = some (some b) := by
  rcases h with h | h | h
  · exact absurd h hn
  · exact ⟨.bus0, by simp [State.activeBus, h, busAt]⟩
  · by_cases he : s.cfg.base1 = s.cfg.base0
    · exact ⟨.bus0, by simp [State.activeBus, h, busAt, he]⟩
    · exact ⟨.bus1, by simp [State.activeBus, h, busAt, he]⟩

theorem activeBus_some {s : State} {b : BusId} (h : s.activeBus = some (some b)) :
    s.activeBase = some (baseOf s.cfg b) := by
  unfold State.activeBus at h
  cases ha : s.activeBase with
  | none => rw [ha] at h; cases h
  | some a =>
    rw [ha] at h
    simp only [Option.map_some, Option.some.injEq, busAt] at h
    split at h
    next he => cases h; rw [he]; rfl
    next => split at h
            next he => cases h; rw [he]; rfl
            next => cases h

theorem activeBus_none_iff (s : State) : s.activeBus = none ↔ s.activeBase = none := by
  cases h : s.activeBase <;> simp [State.activeBus, h]

/-! ## Admission -/

theorem withActiveBus_refused (s : State) (f : BusId → State) :
    (∃ r, withActiveBus s (fun b => .next (f b)) = .refused r) ↔ s.activeBase = none := by
  rw [← activeBus_none_iff]
  unfold withActiveBus
  rcases s.activeBus with _ | _ | b <;> simp

theorem perform_refused {i : Instr} {steps : List SeqStep} {s : State} :
    (∃ r, perform i steps s = .refused r) ↔ s.phase ≠ .idle ∨ s.activeBase = none := by
  cases hp : s.phase with
  | idle =>
    rw [perform, whenIdle_idle hp, runOnActive, withActiveBus_refused]
    simp
  | run j rest => simp [perform, whenIdle, hp]

theorem writeByteRow_refused {off : RegOffset} {v : Byte} {s : State} :
    (∃ r, writeByteRow off v s = .refused r) ↔ s.phase ≠ .idle ∨ s.activeBase = none := by
  cases hp : s.phase with
  | idle =>
    rw [writeByteRow, whenIdle_idle hp, withActiveBus_refused]
    simp
  | run j rest => simp [writeByteRow, whenIdle, hp]

theorem writeByteRow_next {off : RegOffset} {v : Byte} {s t : State} (h : writeByteRow off v s = .next t) :
    s.phase = .idle ∧ ∃ b, s.activeBus = some (some b) ∧ t = s.regWrite b off v := by
  cases hp : s.phase with
  | run j rest => simp [writeByteRow, whenIdle, hp] at h
  | idle =>
    rw [writeByteRow, whenIdle_idle hp, withActiveBus] at h
    rcases hb : s.activeBus with _ | _ | b
    · simp [hb] at h
    · simp [hb] at h
    · exact ⟨rfl, b, rfl, by simpa [hb] using h.symm⟩

/-! ## The answer `next` -/

/-- The shapes of an answer `next t` of `exec i s`. -/
inductive ExecNext (i : Instr) (s : State) : State → Prop where
  /-- `selectBus`, in range -/
  | selected (b : BusId) (hi : i = .selectBus (busIndexOf b)) : ExecNext i s ((s.latch i).setActive b).succeed
  /-- `selectBus`, out of range -/
  | notSelected (n : Nat) (hi : i = .selectBus n) (hn : 2 ≤ n) :
      ExecNext i s ((s.latch i).failWith i .invalidBus)
  /-- `currentBus` with an active instance -/
  | index (b : BusId) (hi : i = .currentBus) (hb : s.activeBus = some (some b)) :
      ExecNext i s (s.setOutIndex (busIndexOf b)).succeed
  /-- `currentBus` with none -/
  | noIndex (hi : i = .currentBus) (hb : ∀ b, s.activeBus ≠ some (some b)) :
      ExecNext i s (s.failWith i .invalidBus)
  /-- `initialize` with an unusable clock -/
  | badClock (hz : Nat) (a : Byte) (hi : i = .initController hz a)
      (hp : prescaler s.cfg.inputClockHz hz = none) : ExecNext i s ((s.latch i).failWith i .invalidClock)
  /-- a row of the byte formats -/
  | row (off : RegOffset) (v : Byte) (b : BusId) (hr : rowByte i = some (off, v))
      (hb : s.activeBus = some (some b)) : ExecNext i s (s.regWrite b off v)
  /-- an operation that makes register accesses -/
  | ran (b : BusId) (hb : ((s.latch i).chooseBus i).activeBus = some (some b)) (hs : stepsOf s.cfg i ≠ [])
      (hr : rowByte i = none) (hl : blockLength i ≤ s.cfg.maxBlock) :
      ExecNext i s (State.finish i (runSteps b (stepsOf s.cfg i) ((s.latch i).chooseBus i)))

/-- Everything `exec` can do when it answers a next state. -/
theorem exec_next {i : Instr} {s t : State} (h : exec i s = .next t) : s.phase = .idle ∧ ExecNext i s t := by
  have ops : ∀ {steps}, stepsOf s.cfg i = steps → steps ≠ [] → rowByte i = none →
      blockLength i ≤ s.cfg.maxBlock → (∀ u : State, u.chooseBus i = u) → perform i steps s = .next t →
      s.phase = .idle ∧ ExecNext i s t := by
    intro steps hs hne hr hl hc hp
    obtain ⟨hi, b, hb, ht⟩ := perform_next hp
    have := ExecNext.ran (i := i) (s := s) b (by rw [hc]; simpa using hb) (by rw [hs]; exact hne) hr hl
    rw [hs, hc, ← ht] at this
    exact ⟨hi, this⟩
  have row : ∀ {off v}, rowByte i = some (off, v) → writeByteRow off v s = .next t →
      s.phase = .idle ∧ ExecNext i s t := by
    intro off v hr hp
    obtain ⟨hi, b, hb, rfl⟩ := writeByteRow_next hp
    exact ⟨hi, .row off v b hr hb⟩
  have idle : ∀ {go}, whenIdle s go = .next t → s.phase = .idle ∧ go s = .next t := by
    intro go hg
    unfold whenIdle at hg
    split at hg
    next hp => exact ⟨hp, hg⟩
    next => cases hg
  cases i with
  | selectBus n =>
    rw [exec, execSelectBus] at h
    obtain ⟨hp, hg⟩ := idle h
    refine ⟨hp, ?_⟩
    dsimp only at hg
    cases hb : busOfIndex n with
    | none =>
      rw [hb] at hg
      cases hg
      exact .notSelected n rfl (busOfIndex_eq_none.1 hb)
    | some b =>
      rw [hb] at hg
      cases hg
      obtain rfl := busOfIndex_eq_some.1 hb
      exact .selected b rfl
  | currentBus =>
    rw [exec, execCurrentBus] at h
    obtain ⟨hp, hg⟩ := idle h
    refine ⟨hp, ?_⟩
    rcases hb : s.activeBus with _ | _ | b <;> rw [hb] at hg <;> cases hg
    · exact .noIndex rfl (by simp [hb])
    · exact .noIndex rfl (by simp [hb])
    · exact .index b rfl hb
  | initController hz a =>
    rw [exec, execInitController] at h
    obtain ⟨hp, hg⟩ := idle h
    refine ⟨hp, ?_⟩
    dsimp only at hg
    rw [State.latch_cfg] at hg
    cases hs : prescaler s.cfg.inputClockHz hz with
    | none => rw [hs] at hg; cases hg; exact .badClock hz a rfl hs
    | some prer =>
      rw [hs] at hg
      dsimp only [runOnActive, withActiveBus] at hg
      rcases hb : (s.latch (.initController hz a)).resolveBus.activeBus with _ | _ | b <;> rw [hb] at hg <;>
        cases hg
      have := ExecNext.ran (i := .initController hz a) (s := s) b hb (by simp [stepsOf, hs, initSteps]) rfl
        (Nat.zero_le _)
      simpa [stepsOf, hs, State.chooseBus] using this
  | readRegister n =>
    simp only [exec, execReadRegister] at h
    split at h
    · cases h
    next off ho =>
      exact ops (by simp [stepsOf, ho]) (by simp [readRegisterSteps]) rfl (Nat.zero_le _) (fun _ => rfl) h
  | writeRegister n v =>
    simp only [exec, execWriteRegister] at h
    split at h
    · cases h
    next off ho =>
      exact ops (by simp [stepsOf, ho]) (by simp [writeRegisterSteps]) rfl (Nat.zero_le _) (fun _ => rfl) h
  | awaitTransferComplete e n =>
    simp only [exec, execAwaitTransferComplete] at h
    split at h
    · cases h
    next e' ho => exact ops (by simp [stepsOf, ho]) (by simp) rfl (Nat.zero_le _) (fun _ => rfl) h
  | readBlock c r n m =>
    simp only [exec, execReadBlock] at h
    split at h
    · cases h
    split at h
    · cases h
    next hm =>
      exact ops rfl (by simp [stepsOf, readBlockSteps]) rfl (Nat.le_of_not_lt hm) (fun _ => rfl) h
  | writeBlock c r n bs =>
    simp only [exec, execWriteBlock] at h
    split at h
    · cases h
    split at h
    · cases h
    next hm => exact ops rfl (by simp [stepsOf, writeBlockSteps]) rfl (Nat.le_of_not_lt hm) (fun _ => rfl) h
  | addressWithOffset c r n d =>
    simp only [exec, execAddressWithOffset] at h
    split at h
    · cases h
    exact ops rfl (by simp [stepsOf, addressWithOffsetSteps, startAddressedSteps, sendAckedSteps, sendByteSteps]) rfl
      (Nat.zero_le _) (fun _ => rfl) h
  | probe c => exact ops rfl (by simp [stepsOf, probeSteps, readBlockSteps]) rfl (Nat.zero_le _) (fun _ => rfl) h
  | sendByte v st sp => exact ops rfl (by simp [stepsOf, sendByteSteps]) rfl (Nat.zero_le _) (fun _ => rfl) h
  | sendStop => exact ops rfl (by simp [stepsOf, sendStopSteps]) rfl (Nat.zero_le _) (fun _ => rfl) h
  | awaitBusNotBusy n => exact ops rfl (by simp [stepsOf]) rfl (Nat.zero_le _) (fun _ => rfl) h
  | readByte sp => exact ops rfl (by simp [stepsOf, readByteSteps]) rfl (Nat.zero_le _) (fun _ => rfl) h
  | resetBus => exact ops rfl (by simp [stepsOf, resetBusSteps]) rfl (Nat.zero_le _) (fun _ => rfl) h
  | startAddressed c d =>
    exact ops rfl (by simp [stepsOf, startAddressedSteps, sendAckedSteps, sendByteSteps]) rfl (Nat.zero_le _)
      (fun _ => rfl) h
  | addrW c => exact row rfl (by rw [← addrByte_write]; exact h)
  | addrR c => exact row rfl (by rw [← addrByte_read]; exact h)
  | cmdWr | cmdWrStart | cmdWrStop | cmdWrStartStop | cmdRd | cmdRdLast | cmdStop | cmdResetRd | cmdIack
  | ctrDisable | ctrEnable => exact row rfl h

end Sys2Proof.Machine
end

