-- ==== Sys2Proof/Laws/PerInstr.lean ====
section
/-! SUPPORT. Statements made of every instruction as syntax, one lemma per constructor. The table rows are
written out here from spec/opcode_table.json, apart from the encoder. -/

namespace Sys2Proof.Laws.EncodesAsItsRow

/-- The formats of the opcode table. -/
inductive Format where
  | req
  | cr
  | addr
  | ctr
deriving DecidableEq, Repr

/-- One row of spec/opcode_table.json. -/
structure Row where
  format : Format
  mask : Nat
  bits : Nat
deriving DecidableEq, Repr

/-- The row of an instruction. -/
def row : Instr → Row
  | .selectBus _ => ⟨.req, 0xF, 0x0⟩
  | .currentBus => ⟨.req, 0xF, 0x1⟩
  | .initController _ _ => ⟨.req, 0xF, 0x2⟩
  | .readBlock _ _ _ _ => ⟨.req, 0xF, 0x3⟩
  | .writeBlock _ _ _ _ => ⟨.req, 0xF, 0x4⟩
  | .probe _ => ⟨.req, 0xF, 0x5⟩
  | .readRegister _ => ⟨.req, 0xF, 0x6⟩
  | .writeRegister _ _ => ⟨.req, 0xF, 0x7⟩
  | .sendByte _ _ _ => ⟨.req, 0xF, 0x8⟩
  | .sendStop => ⟨.req, 0xF, 0x9⟩
  | .awaitBusNotBusy _ => ⟨.req, 0xF, 0xA⟩
  | .awaitTransferComplete _ _ => ⟨.req, 0xF, 0xB⟩
  | .readByte _ => ⟨.req, 0xF, 0xC⟩
  | .resetBus => ⟨.req, 0xF, 0xD⟩
  | .startAddressed _ _ => ⟨.req, 0xF, 0xE⟩
  | .addressWithOffset _ _ _ _ => ⟨.req, 0xF, 0xF⟩
  | .cmdWr => ⟨.cr, 0xFF, 0x10⟩
  | .cmdWrStart => ⟨.cr, 0xFF, 0x90⟩
  | .cmdWrStop => ⟨.cr, 0xFF, 0x50⟩
  | .cmdWrStartStop => ⟨.cr, 0xFF, 0xD0⟩
  | .cmdRd => ⟨.cr, 0xFF, 0x20⟩
  | .cmdRdLast => ⟨.cr, 0xFF, 0x68⟩
  | .cmdStop => ⟨.cr, 0xFF, 0x41⟩
  | .cmdResetRd => ⟨.cr, 0xFF, 0x28⟩
  | .cmdIack => ⟨.cr, 0xFF, 0x01⟩
  | .addrW _ => ⟨.addr, 0x01, 0x00⟩
  | .addrR _ => ⟨.addr, 0x01, 0x01⟩
  | .ctrDisable => ⟨.ctr, 0xFF, 0x00⟩
  | .ctrEnable => ⟨.ctr, 0xFF, 0x80⟩

/-- The format of an encoded word and its bits: the operation code, or the byte. -/
def bitsOf : Encoded → Option (Format × Nat)
  | .req r => some (.req, r.op.toNat)
  | .cr b => some (.cr, b.toNat)
  | .addr b => some (.addr, b.toNat)
  | .ctr b => some (.ctr, b.toNat)
  | .other _ _ => none

/-- The encoded word is of the row's format and its fixed bits are the row's. -/
def Statement (i : Instr) : Prop :=
  ∃ w, bitsOf (encode i) = some ((row i).format, w) ∧ w &&& (row i).mask = (row i).bits

theorem selectBus (a : Nat) : Statement (.selectBus a) := ⟨0x0, rfl, by simp [row]⟩

theorem currentBus : Statement .currentBus := ⟨0x1, rfl, by simp [row]⟩

theorem initController (a : Nat) (b : Byte) : Statement (.initController a b) := ⟨0x2, rfl, by simp [row]⟩

theorem readBlock (a : BitVec 7) (b : BitVec 32) (c : Nat) (d : Nat) : Statement (.readBlock a b c d) := ⟨0x3, rfl, by simp [row]⟩

theorem writeBlock (a : BitVec 7) (b : BitVec 32) (c : Nat) (d : List Byte) : Statement (.writeBlock a b c d) := ⟨0x4, rfl, by simp [row]⟩

theorem probe (a : BitVec 7) : Statement (.probe a) := ⟨0x5, rfl, by simp [row]⟩

theorem readRegister (a : Nat) : Statement (.readRegister a) := ⟨0x6, rfl, by simp [row]⟩

theorem writeRegister (a : Nat) (b : Byte) : Statement (.writeRegister a b) := ⟨0x7, rfl, by simp [row]⟩

theorem sendByte (a : Byte) (b : Bool) (c : Bool) : Statement (.sendByte a b c) := ⟨0x8, rfl, by simp [row]⟩

theorem sendStop : Statement .sendStop := ⟨0x9, rfl, by simp [row]⟩

theorem awaitBusNotBusy (a : Nat) : Statement (.awaitBusNotBusy a) := ⟨0xA, rfl, by simp [row]⟩

theorem awaitTransferComplete (a : BitVec 2) (b : Nat) : Statement (.awaitTransferComplete a b) := ⟨0xB, rfl, by simp [row]⟩

theorem readByte (a : Bool) : Statement (.readByte a) := ⟨0xC, rfl, by simp [row]⟩

theorem resetBus : Statement .resetBus := ⟨0xD, rfl, by simp [row]⟩

theorem startAddressed (a : BitVec 7) (b : Direction) : Statement (.startAddressed a b) := ⟨0xE, rfl, by simp [row]⟩

theorem addressWithOffset (a : BitVec 7) (b : BitVec 32) (c : Nat) (d : Direction) : Statement (.addressWithOffset a b c d) := ⟨0xF, rfl, by simp [row]⟩

theorem cmdWr : Statement .cmdWr := ⟨0x10, rfl, by simp [row]⟩

theorem cmdWrStart : Statement .cmdWrStart := ⟨0x90, rfl, by simp [row]⟩

theorem cmdWrStop : Statement .cmdWrStop := ⟨0x50, rfl, by simp [row]⟩

theorem cmdWrStartStop : Statement .cmdWrStartStop := ⟨0xD0, rfl, by simp [row]⟩

theorem cmdRd : Statement .cmdRd := ⟨0x20, rfl, by simp [row]⟩

theorem cmdRdLast : Statement .cmdRdLast := ⟨0x68, rfl, by simp [row]⟩

theorem cmdStop : Statement .cmdStop := ⟨0x41, rfl, by simp [row]⟩

theorem cmdResetRd : Statement .cmdResetRd := ⟨0x28, rfl, by simp [row]⟩

theorem cmdIack : Statement .cmdIack := ⟨0x01, rfl, by simp [row]⟩

theorem addrW (c : BitVec 7) : Statement (.addrW c) :=
  ⟨_, rfl, by revert c; decide⟩

theorem addrR (c : BitVec 7) : Statement (.addrR c) :=
  ⟨_, rfl, by revert c; decide⟩

theorem ctrDisable : Statement .ctrDisable := ⟨0x00, rfl, by simp [row]⟩

theorem ctrEnable : Statement .ctrEnable := ⟨0x80, rfl, by simp [row]⟩

end Sys2Proof.Laws.EncodesAsItsRow
end

