-- ==== Sys2Proof/Laws/Trace.lean ====
section
/-! SUPPORT. The accesses that steps make, and the register contents they leave, read off the trace. -/

namespace Sys2Proof.Machine

/-! ## Which accesses a step makes -/

/-- An access that one step of an operation on instance `b` can make (R162, R163, R152). -/
def StepAccess (b : BusId) (p : Params) (m : SeqStep) (a : Access) : Prop :=
  match m with
  | .write off v => a = .write (baseOf p b) off v
  | .read off _ => ∃ v, a = .read (baseOf p b) off v
  | .awaitNotBusy _ => ∃ v, a = .read (baseOf p b) .crSr v
  | .awaitComplete e _ =>
    (∃ v, a = .read (baseOf p b) .crSr v) ∨ (e ≠ .dontCare ∧ a = .write (baseOf p b) .crSr 0x41)
  | .raise _ => False

theorem statusReads_access (b : BusId) (n : Nat) (s : State) (a : Access) (h : a ∈ statusReads b n s) :
    ∃ v, a = .read (baseOf s.cfg b) .crSr v := by
  induction n generalizing s with
  | zero => simp [statusReads] at h
  | succ n ih =>
    rcases List.mem_cons.1 h with h | h
    · exact ⟨_, h⟩
    · simpa using ih _ h

theorem runStep_accesses (b : BusId) (m : SeqStep) (s : State) :
    ∃ l, (runStep b m s).1.history = s.history ++ l ∧ ∀ a ∈ l, StepAccess b s.cfg m a := by
  cases m with
  | write off v => exact ⟨_, by simp [runStep]; rfl, by simp [StepAccess]⟩
  | read off d => exact ⟨_, by simp [runStep]; rfl, by simp [StepAccess]⟩
  | raise k => exact ⟨[], by simp [runStep], by simp⟩
  | awaitNotBusy n =>
    have hr : ∀ k, ∀ a ∈ statusReads b k s, StepAccess b s.cfg (.awaitNotBusy n) a :=
      fun k a ha => statusReads_access b k s a ha
    rcases pollNotBusy_cases b n (s.setPoll 0) with ⟨k, _, _, h⟩ | ⟨_, h⟩
    · exact ⟨_, by simp [runStep, h, afterPolls_history]; rfl, hr _⟩
    · exact ⟨_, by simp [runStep, h, afterPolls_history]; rfl, hr _⟩
  | awaitComplete e n =>
    have hr : ∀ k, ∀ a ∈ statusReads b k s, StepAccess b s.cfg (.awaitComplete e n) a :=
      fun k a ha => .inl (statusReads_access b k s a ha)
    rcases pollComplete_cases b e n (s.setPoll 0) with ⟨k, _, _, h⟩ | ⟨k, _, _, _, h⟩ | ⟨k, _, _, hj, h⟩ |
      ⟨_, h⟩
    · exact ⟨_, by simp [runStep, h, afterPolls_history]; rfl, hr _⟩
    · exact ⟨_, by simp [runStep, h, afterPolls_history]; rfl, hr _⟩
    · refine ⟨statusReads b (k + 1) s ++ [.write (baseOf s.cfg b) .crSr 0x41], ?_, ?_⟩
      · have hc := (afterPolls_frame b (k + 1) (s.setPoll 0)).cfg
        simp [runStep, h, afterPolls_history, hc, CR.sendStopCommand, CR.stop, CR.irqAck]
      · intro a ha
        rcases List.mem_append.1 ha with ha | ha
        · exact hr _ a ha
        · refine .inr ⟨?_, by simpa using ha⟩
          rintro rfl
          simp [ackJudge] at hj
    · exact ⟨_, by simp [runStep, h, afterPolls_history]; rfl, hr _⟩

/-- Every access of an operation is one that one of its steps can make. -/
theorem runSteps_accesses (b : BusId) (ms : List SeqStep) (s : State) :
    ∃ l, (runSteps b ms s).1.history = s.history ++ l ∧ ∀ a ∈ l, ∃ m ∈ ms, StepAccess b s.cfg m a := by
  induction ms generalizing s with
  | nil => exact ⟨[], by simp, by simp⟩
  | cons m ms ih =>
    obtain ⟨l, hl, ha⟩ := runStep_accesses b m s
    have hf := runStep_frame b m s
    rcases h : runStep b m s with ⟨t, _ | k⟩
    · rw [h] at hl hf
      rw [runSteps_cons_ok _ h]
      obtain ⟨l', hl', ha'⟩ := ih t
      refine ⟨l ++ l', by rw [hl', ← List.append_assoc]; exact congrArg (· ++ l') hl, ?_⟩
      intro a hm
      rcases List.mem_append.1 hm with hm | hm
      · exact ⟨m, by simp, ha a hm⟩
      · obtain ⟨m', hm', hs⟩ := ha' a hm
        exact ⟨m', by simp [hm'], by rw [← hf.cfg]; exact hs⟩
    · rw [h] at hl
      rw [runSteps_cons_err _ h]
      exact ⟨l, hl, fun a hm => ⟨m, by simp, ha a hm⟩⟩

/-! ## The register contents after a trace -/

/-- The last answer a trace was given at an offset, if any, else `old`. -/
def lastRead (off : RegOffset) : List Access → Byte → Byte
  | [], old => old
  | .read _ o v :: rest, old => lastRead off rest (if o = off then v else old)
  | .write _ _ _ :: rest, old => lastRead off rest old

theorem lastWritten_append (off : RegOffset) (l m : List Access) (old : Byte) :
    lastWritten off (l ++ m) old = lastWritten off m (lastWritten off l old) := by
  induction l generalizing old with
  | nil => rfl
  | cons a l ih => cases a <;> simp [lastWritten, ih]

theorem lastRead_append (off : RegOffset) (l m : List Access) (old : Byte) :
    lastRead off (l ++ m) old = lastRead off m (lastRead off l old) := by
  induction l generalizing old with
  | nil => rfl
  | cons a l ih => cases a <;> simp [lastRead, ih]

theorem lastWritten_of_not_mem (off : RegOffset) (l : List Access) (old : Byte)
    (h : ∀ base v, Access.write base off v ∉ l) : lastWritten off l old = old := by
  induction l generalizing old with
  | nil => rfl
  | cons a l ih =>
    have hl : ∀ base v, Access.write base off v ∉ l := fun base v hm => h base v (by simp [hm])
    cases a with
    | read base o v => simpa [lastWritten] using ih old hl
    | write base o v =>
      have ho : o ≠ off := by rintro rfl; exact h base v (by simp)
      simpa [lastWritten, ho] using ih old hl

theorem lastRead_of_not_mem (off : RegOffset) (l : List Access) (old : Byte)
    (h : ∀ base v, Access.read base off v ∉ l) : lastRead off l old = old := by
  induction l generalizing old with
  | nil => rfl
  | cons a l ih =>
    have hl : ∀ base v, Access.read base off v ∉ l := fun base v hm => h base v (by simp [hm])
    cases a with
    | write base o v => simpa [lastRead] using ih old hl
    | read base o v =>
      have ho : o ≠ off := by rintro rfl; exact h base v (by simp)
      simpa [lastRead, ho] using ih old hl

/-- The register block of instance `b` after the accesses `l`: every write-side register holds the last byte
written to it, RXR and SR the last answer (log 5). -/
structure BlockAfter (b : BusId) (l : List Access) (s t : State) : Prop where
  history : t.history = s.history ++ l
  write : ∀ off, writeSide (t.ctl b) off = lastWritten off l (writeSide (s.ctl b) off)
  rxr : (t.ctl b).rxr = lastRead .txrRxr l (s.ctl b).rxr
  sr : (t.ctl b).sr = lastRead .crSr l (s.ctl b).sr

theorem BlockAfter.trans {b : BusId} {l m : List Access} {s t u : State} (h : BlockAfter b l s t)
    (k : BlockAfter b m t u) : BlockAfter b (l ++ m) s u :=
  ⟨by simp [k.history, h.history], fun off => by rw [k.write, h.write, lastWritten_append],
    by rw [k.rxr, h.rxr, lastRead_append], by rw [k.sr, h.sr, lastRead_append]⟩

/-- A change that is no access. -/
theorem BlockAfter.of_eq {b : BusId} {s t : State} (hh : t.history = s.history) (hc : t.ctl b = s.ctl b) :
    BlockAfter b [] s t := ⟨by simp [hh], fun off => by rw [hc]; rfl, by rw [hc]; rfl, by rw [hc]; rfl⟩

theorem writeSide_write (c : Controller) (off off' : RegOffset) (v : Byte) :
    writeSide (c.write off v) off' = if off = off' then v else writeSide c off' := by
  cases off <;> cases off' <;> rfl

@[simp] theorem write_rxr (c : Controller) (off : RegOffset) (v : Byte) : (c.write off v).rxr = c.rxr := by
  cases off <;> rfl
@[simp] theorem write_sr (c : Controller) (off : RegOffset) (v : Byte) : (c.write off v).sr = c.sr := by
  cases off <;> rfl

theorem regWrite_block (b : BusId) (off : RegOffset) (v : Byte) (s : State) :
    BlockAfter b [.write (baseOf s.cfg b) off v] s (s.regWrite b off v) :=
  ⟨by simp, fun off' => by simp [lastWritten, writeSide_write], by simp [lastRead], by simp [lastRead]⟩

theorem regRead_block (b : BusId) (off : RegOffset) (s : State) :
    BlockAfter b [.read (baseOf s.cfg b) off (s.answer b off)] s (s.regRead b off) := by
  refine ⟨by simp, fun off' => ?_, ?_, ?_⟩
  · cases off <;> cases off' <;> simp [lastWritten, State.ctlAfterRead, Controller.observe, writeSide]
  · cases off <;> simp [lastRead, State.ctlAfterRead, Controller.observe]
  · cases off <;> simp [lastRead, State.ctlAfterRead, Controller.observe]

theorem pollRead_block (b : BusId) (s : State) :
    BlockAfter b [.read (baseOf s.cfg b) .crSr (s.answer b .crSr)] s (s.pollRead b) :=
  (regRead_block b .crSr s).trans (.of_eq (by simp [State.pollRead]) (by simp [State.pollRead]))

theorem afterPolls_block (b : BusId) (n : Nat) (s : State) :
    BlockAfter b (statusReads b n s) s (afterPolls b n s) := by
  induction n generalizing s with
  | zero => exact .of_eq rfl rfl
  | succ n ih => exact (pollRead_block b s).trans (ih _)

theorem runStep_block (b : BusId) (m : SeqStep) (s : State) :
    ∃ l, BlockAfter b l s (runStep b m s).1 := by
  have hp : BlockAfter b [] s (s.setPoll 0) := .of_eq rfl (by simp)
  cases m with
  | write off v => exact ⟨_, regWrite_block b off v s⟩
  | read off d => exact ⟨_, (regRead_block b off s).trans (.of_eq (by simp [runStep]) (by simp [runStep]))⟩
  | raise k => exact ⟨_, .of_eq rfl rfl⟩
  | awaitNotBusy n =>
    rcases pollNotBusy_cases b n (s.setPoll 0) with ⟨k, _, _, h⟩ | ⟨_, h⟩ <;> simp only [runStep, h]
    · exact ⟨_, hp.trans (afterPolls_block b _ _)⟩
    · exact ⟨_, hp.trans (afterPolls_block b _ _)⟩
  | awaitComplete e n =>
    rcases pollComplete_cases b e n (s.setPoll 0) with ⟨k, _, _, h⟩ | ⟨k, _, _, _, h⟩ | ⟨k, _, _, hj, h⟩ |
      ⟨_, h⟩ <;> simp only [runStep, h]
    · exact ⟨_, hp.trans (afterPolls_block b _ _)⟩
    · exact ⟨_, hp.trans (afterPolls_block b _ _)⟩
    · exact ⟨_, (hp.trans (afterPolls_block b _ _)).trans (regWrite_block b _ _ _)⟩
    · exact ⟨_, hp.trans (afterPolls_block b _ _)⟩

theorem runSteps_block (b : BusId) (ms : List SeqStep) (s : State) :
    ∃ l, BlockAfter b l s (runSteps b ms s).1 := by
  induction ms generalizing s with
  | nil => exact ⟨_, .of_eq rfl rfl⟩
  | cons m ms ih =>
    obtain ⟨l, hl⟩ := runStep_block b m s
    rcases h : runStep b m s with ⟨t, _ | k⟩
    · rw [h] at hl
      rw [runSteps_cons_ok _ h]
      obtain ⟨l', hl'⟩ := ih t
      exact ⟨_, hl.trans hl'⟩
    · rw [h] at hl
      rw [runSteps_cons_err _ h]
      exact ⟨_, hl⟩

end Sys2Proof.Machine
end

