-- ==== Sys2Proof/Laws/Waits.lean ====
section
/-! SUPPORT. The waits under the conditions the statements use (`NotBusyAt`, `StillBusy`, `CompleteAt`,
`ArbLostAt`, `StillTransferring`), that these conditions depend on the parameters, the environment of the
instance and the history only, and the premises of R252 read off the outcome of a wait. -/

namespace Sys2Proof.Machine

/-! ## Two states whose instance `b` is answered alike -/

/-- The same parameters, the same environment of instance `b`, the same history. -/
structure SameAnswers (b : BusId) (s t : State) : Prop where
  cfg : t.cfg = s.cfg
  env : (t.ctl b).env = (s.ctl b).env
  history : t.history = s.history

namespace SameAnswers

variable {b : BusId} {s t : State}

theorem refl (b : BusId) (s : State) : SameAnswers b s s := ⟨rfl, rfl, rfl⟩

theorem setPoll (h : SameAnswers b s t) (n m : Nat) : SameAnswers b (s.setPoll n) (t.setPoll m) :=
  ⟨h.cfg, by simpa using h.env, h.history⟩

theorem answer (h : SameAnswers b s t) (off : RegOffset) : t.answer b off = s.answer b off :=
  answer_congr off h.cfg h.env h.history

theorem statusAnswer (h : SameAnswers b s t) (n : Nat) :
    Machine.statusAnswer b n t = Machine.statusAnswer b n s := statusAnswer_congr n h.cfg h.env h.history

theorem statusReads (h : SameAnswers b s t) (n : Nat) : Machine.statusReads b n t = Machine.statusReads b n s :=
  statusReads_congr n h.cfg h.env h.history

theorem notBusyAt (h : SameAnswers b s t) (k : Nat) : NotBusyAt b k t ↔ NotBusyAt b k s := by
  simp [NotBusyAt, StillBusy, h.statusAnswer]

theorem stillBusy (h : SameAnswers b s t) (k : Nat) : StillBusy b k t ↔ StillBusy b k s := by
  simp [StillBusy, h.statusAnswer]

theorem completeAt (h : SameAnswers b s t) (k : Nat) : CompleteAt b k t ↔ CompleteAt b k s := by
  simp [CompleteAt, StillTransferring, h.statusAnswer]

theorem arbLostAt (h : SameAnswers b s t) (k : Nat) : ArbLostAt b k t ↔ ArbLostAt b k s := by
  simp [ArbLostAt, StillTransferring, h.statusAnswer]

theorem stillTransferring (h : SameAnswers b s t) (k : Nat) :
    StillTransferring b k t ↔ StillTransferring b k s := by
  simp [StillTransferring, h.statusAnswer]

theorem regWrite (h : SameAnswers b s t) (off : RegOffset) (v : Byte) :
    SameAnswers b (s.regWrite b off v) (t.regWrite b off v) :=
  ⟨by simpa using h.cfg, by simpa using h.env, by simp [h.cfg, h.history]⟩

theorem regRead (h : SameAnswers b s t) (off : RegOffset) :
    SameAnswers b (s.regRead b off) (t.regRead b off) :=
  ⟨by simpa using h.cfg, by simp [h.env, h.history, h.cfg], by simp [h.cfg, h.history, h.answer]⟩

theorem afterPolls (h : SameAnswers b s t) (n : Nat) :
    SameAnswers b (Machine.afterPolls b n s) (Machine.afterPolls b n t) := by
  induction n generalizing s t with
  | zero => exact h
  | succ n ih => exact ih ((h.regRead .crSr).setPoll _ _)

end SameAnswers

theorem sameAnswers_setPoll (b : BusId) (s : State) (n : Nat) : SameAnswers b s (s.setPoll n) :=
  ⟨rfl, by simp, rfl⟩

theorem sameAnswers_latch (b : BusId) (s : State) (i : Instr) : SameAnswers b s (s.latch i) :=
  ⟨by simp, by simp, by simp⟩

@[simp] theorem afterPolls_outByte (b : BusId) (n : Nat) (s : State) : (afterPolls b n s).outByte = s.outByte := by
  induction n generalizing s with
  | zero => rfl
  | succ n ih => simp [afterPolls, ih]

@[simp] theorem afterPolls_dataBuf (b : BusId) (n : Nat) (s : State) : (afterPolls b n s).dataBuf = s.dataBuf := by
  induction n generalizing s with
  | zero => rfl
  | succ n ih => simp [afterPolls, ih]

/-! ## The bus-not-busy wait -/

theorem pollNotBusy_of_notBusyAt {b : BusId} {n k : Nat} {s : State} (hk : k < n) (h : NotBusyAt b k s) :
    pollNotBusy b n s = (afterPolls b (k + 1) s, none) := by
  rcases pollNotBusy_cases b n s with ⟨j, hj, ⟨h1, h2⟩, he⟩ | ⟨hb, he⟩
  · have : j = k := by
      by_contra hne
      rcases Nat.lt_or_gt_of_ne hne with hlt | hlt
      · have := h.1 j hlt; simp [h2] at this
      · have := h1 k hlt; simp [h.2] at this
    rw [he, this]
  · have := hb k hk; simp [h.2] at this

theorem pollNotBusy_of_stillBusy {b : BusId} {n : Nat} {s : State} (h : StillBusy b n s) :
    pollNotBusy b n s = (afterPolls b n s, some .busy) := by
  rcases pollNotBusy_cases b n s with ⟨j, hj, ⟨h1, h2⟩, he⟩ | ⟨hb, he⟩
  · have := h j hj; simp [h2] at this
  · exact he

/-! ## The transfer-complete wait -/

/-- The first status value that ends the wait, whatever its outcome, is the `k`-th. -/
def WaitEndsAt (b : BusId) (k : Nat) (s : State) : Prop :=
  StillTransferring b k s ∧ (SR.arbLost (statusAnswer b k s) = true ∨ SR.tip (statusAnswer b k s) = false)

theorem WaitEndsAt.unique {b : BusId} {k j : Nat} {s : State} (h : WaitEndsAt b k s) (h' : WaitEndsAt b j s) :
    j = k := by
  by_contra hne
  rcases Nat.lt_or_gt_of_ne hne with hlt | hlt
  · have := h.1 j hlt; rcases h'.2 with h | h <;> simp [h] at this
  · have := h'.1 k hlt; rcases h.2 with h | h <;> simp [h] at this

theorem WaitEndsAt.not_still {b : BusId} {n j : Nat} {s : State} (h : WaitEndsAt b j s) (hj : j < n) :
    ¬ StillTransferring b n s := by
  intro hs
  have := hs j hj
  rcases h.2 with h | h <;> simp [h] at this

theorem ArbLostAt.waitEnds {b : BusId} {k : Nat} {s : State} (h : ArbLostAt b k s) : WaitEndsAt b k s :=
  ⟨h.1, .inl h.2⟩

theorem CompleteAt.waitEnds {b : BusId} {k : Nat} {s : State} (h : CompleteAt b k s) : WaitEndsAt b k s :=
  ⟨h.1, .inr h.2.2⟩

theorem pollComplete_of_met {b : BusId} {e : AckExpectation} {n k : Nat} {s : State} (hk : k < n)
    (h : CompleteAt b k s) (hj : ackJudge e (SR.rxack (statusAnswer b k s)) = .met) :
    pollComplete b e n s = (afterPolls b (k + 1) s, none) := by
  rcases pollComplete_cases b e n s with ⟨j, _, ha, he⟩ | ⟨j, _, ha, hm, he⟩ | ⟨j, _, ha, hm, he⟩ | ⟨hs, he⟩
  · obtain rfl := h.waitEnds.unique ha.waitEnds; have := ha.2; simp [h.2.1] at this
  · obtain rfl := h.waitEnds.unique ha.waitEnds; exact he
  · obtain rfl := h.waitEnds.unique ha.waitEnds; simp [hj] at hm
  · exact absurd hs (h.waitEnds.not_still hk)

theorem pollComplete_of_violated {b : BusId} {e : AckExpectation} {n k : Nat} {s : State} (hk : k < n)
    (h : CompleteAt b k s) (hj : ackJudge e (SR.rxack (statusAnswer b k s)) = .violated) :
    pollComplete b e n s =
      ((afterPolls b (k + 1) s).regWrite b .crSr CR.sendStopCommand, some .notAcknowledged) := by
  rcases pollComplete_cases b e n s with ⟨j, _, ha, he⟩ | ⟨j, _, ha, hm, he⟩ | ⟨j, _, ha, hm, he⟩ | ⟨hs, he⟩
  · obtain rfl := h.waitEnds.unique ha.waitEnds; have := ha.2; simp [h.2.1] at this
  · obtain rfl := h.waitEnds.unique ha.waitEnds; simp [hj] at hm
  · obtain rfl := h.waitEnds.unique ha.waitEnds; exact he
  · exact absurd hs (h.waitEnds.not_still hk)

theorem pollComplete_of_arbLost {b : BusId} {e : AckExpectation} {n k : Nat} {s : State} (hk : k < n)
    (h : ArbLostAt b k s) : pollComplete b e n s = (afterPolls b (k + 1) s, some .arbitrationLost) := by
  rcases pollComplete_cases b e n s with ⟨j, _, ha, he⟩ | ⟨j, _, ha, hm, he⟩ | ⟨j, _, ha, hm, he⟩ | ⟨hs, he⟩
  · obtain rfl := h.waitEnds.unique ha.waitEnds; exact he
  · obtain rfl := h.waitEnds.unique ha.waitEnds; have := ha.2.1; simp [h.2] at this
  · obtain rfl := h.waitEnds.unique ha.waitEnds; have := ha.2.1; simp [h.2] at this
  · exact absurd hs (h.waitEnds.not_still hk)

theorem pollComplete_of_stillTransferring {b : BusId} {e : AckExpectation} {n : Nat} {s : State}
    (h : StillTransferring b n s) : pollComplete b e n s = (afterPolls b n s, some .timeout) := by
  rcases pollComplete_cases b e n s with ⟨j, hj, ha, he⟩ | ⟨j, hj, ha, hm, he⟩ | ⟨j, hj, ha, hm, he⟩ | ⟨hs, he⟩
  · exact absurd h (ha.waitEnds.not_still hj)
  · exact absurd h (ha.waitEnds.not_still hj)
  · exact absurd h (ha.waitEnds.not_still hj)
  · exact he

/-! ## The premises of R252 -/

theorem notBusyWithin_iff (b : BusId) (n : Nat) (s : State) :
    NotBusyWithin b n s ↔ (pollNotBusy b n s).2 = none := by
  rcases pollNotBusy_cases b n s with ⟨k, hk, ⟨_, h1⟩, h⟩ | ⟨hb, h⟩ <;> simp [h, NotBusyWithin]
  · exact ⟨k, hk, h1⟩
  · exact hb

theorem completes_iff (b : BusId) (e : AckExpectation) (n : Nat) (s : State) :
    (CompletesWithin b n s ∧ NoArbLoss b s ∧ AckMet b e s) ↔ (pollComplete b e n s).2 = none := by
  have uniq : ∀ k, StillTransferring b k s → SR.tip (statusAnswer b k s) = false →
      ∀ j, FirstTipClear b j s → j = k := by
    intro k hs ht j ⟨h1, h2⟩
    by_contra hne
    rcases Nat.lt_or_gt_of_ne hne with h | h
    · have := (hs j h).2; simp [h2] at this
    · have := h1 k h; simp [ht] at this
  rcases pollComplete_cases b e n s with ⟨k, hk, ⟨hs, ha⟩, h⟩ | ⟨k, hk, ⟨hs, ha, ht⟩, hj, h⟩ |
    ⟨k, hk, ⟨hs, ha, ht⟩, hj, h⟩ | ⟨hs, h⟩ <;> simp [h]
  · rintro ⟨j, hj, hjt⟩ hna
    exfalso
    obtain ⟨j0, h1, h2⟩ : ∃ j0, FirstTipClear b j0 s := by
      classical
      have hex : ∃ j, SR.tip (statusAnswer b j s) = false := ⟨j, hjt⟩
      refine ⟨Nat.find hex, fun i hi => ?_, Nat.find_spec hex⟩
      simpa using Nat.find_min hex hi
    have : k ≤ j0 := by
      by_contra hlt
      have := (hs j0 (by omega)).2; simp [h2] at this
    have := hna j0 ⟨h1, h2⟩ k this
    simp [ha] at this
  · refine ⟨⟨k, hk, ht⟩, ?_, ?_⟩
    · intro j hf i hi
      obtain rfl := uniq k hs ht j hf
      rcases Nat.lt_or_eq_of_le hi with h | rfl
      · exact (hs i h).1
      · exact ha
    · intro j hf; obtain rfl := uniq k hs ht j hf; exact hj
  · intro _ _ hm
    have := hm k ⟨fun j hj => (hs j hj).2, ht⟩; simp [hj] at this
  · rintro ⟨j, hj, ht⟩; have := (hs j hj).2; simp [ht] at this

/-- R252: a step's premises are what it needs to end without a failure. -/
theorem stepPremises_iff (b : BusId) (m : SeqStep) (s : State) : StepPremises b m s ↔ (runStep b m s).2 = none := by
  cases m with
  | awaitNotBusy n =>
    rw [runStep, ← notBusyWithin_iff]
    simp [StepPremises, NotBusyWithin]
  | awaitComplete e n =>
    rw [runStep, ← completes_iff]
    simp [StepPremises, CompletesWithin, NoArbLoss, AckMet, FirstTipClear]
  | _ => simp [StepPremises, runStep]

/-- R252: the premises of every wait are what the steps need to end without a failure. -/
theorem premises_iff (b : BusId) (l : List SeqStep) (s : State) : Premises b l s ↔ (runSteps b l s).2 = none := by
  induction l generalizing s with
  | nil => simp [Premises]
  | cons m l ih =>
    simp only [Premises, stepPremises_iff, ih]
    rcases hh : runStep b m s with ⟨t, _ | k⟩
    · rw [runSteps_cons_ok _ hh]; simp
    · rw [runSteps_cons_err _ hh]; simp

/-- R271: steps that fail are steps that succeed, then the one that fails; what follows it is not reached. -/
theorem runSteps_fail {b : BusId} {l : List SeqStep} {s t : State} {k : ErrorKind}
    (h : runSteps b l s = (t, some k)) :
    ∃ pre m post u, l = pre ++ m :: post ∧ runSteps b pre s = (u, none) ∧ runStep b m u = (t, some k) := by
  induction l generalizing s with
  | nil => simp at h
  | cons x l ih =>
    rcases hx : runStep b x s with ⟨u, _ | k'⟩
    · rw [runSteps_cons_ok _ hx] at h
      obtain ⟨pre, m, post, v, rfl, h1, h2⟩ := ih h
      exact ⟨x :: pre, m, post, v, rfl, by rw [runSteps_cons_ok _ hx, h1], h2⟩
    · rw [runSteps_cons_err _ hx] at h
      exact ⟨[], x, l, s, rfl, rfl, by rw [hx, h]⟩

end Sys2Proof.Machine
end

