-- ==== Sys2Proof/Laws/Runs.lean ====
section
/-! SUPPORT. A run of steps that ends without a failure, read off the steps alone: which writes it made, how
many bytes it received and what it added to `DATA_BUF`; the steps of the address phase, the data phases and every
operation; and what a step that fails adds. -/

namespace Sys2Proof.Machine

/-! ## The bus an operation runs on -/

@[simp] theorem chooseBus_cfg (i : Instr) (s : State) : (s.chooseBus i).cfg = s.cfg := by
  cases i <;> simp [State.chooseBus]
@[simp] theorem chooseBus_history (i : Instr) (s : State) : (s.chooseBus i).history = s.history := by
  cases i <;> simp [State.chooseBus]
@[simp] theorem chooseBus_phase (i : Instr) (s : State) : (s.chooseBus i).phase = s.phase := by
  cases i <;> simp [State.chooseBus]
@[simp] theorem chooseBus_requests (i : Instr) (s : State) : (s.chooseBus i).requests = s.requests := by
  cases i <;> simp [State.chooseBus]
@[simp] theorem chooseBus_operands (i : Instr) (s : State) : (s.chooseBus i).operands = s.operands := by
  cases i <;> simp [State.chooseBus]
@[simp] theorem chooseBus_ctl (i : Instr) (s : State) (b : BusId) : (s.chooseBus i).ctl b = s.ctl b := by
  cases i <;> simp [State.chooseBus]

/-! ## What a trace writes and receives -/

theorem writesOf_append (l m : List Access) : writesOf (l ++ m) = writesOf l ++ writesOf m := by
  induction l with
  | nil => rfl
  | cons a l ih => cases a <;> simp [writesOf, ih]

theorem receivedOf_append (l m : List Access) : receivedOf (l ++ m) = receivedOf l ++ receivedOf m := by
  induction l with
  | nil => rfl
  | cons a l ih => rcases a with ⟨_, o, _⟩ | _ <;> (try cases o) <;> simp [receivedOf, ih]

theorem writesOf_statusReads (b : BusId) (n : Nat) (s : State) : writesOf (statusReads b n s) = [] := by
  induction n generalizing s with
  | zero => rfl
  | succ n ih => simp [statusReads, writesOf, ih]

theorem receivedOf_statusReads (b : BusId) (n : Nat) (s : State) : receivedOf (statusReads b n s) = [] := by
  induction n generalizing s with
  | zero => rfl
  | succ n ih => simp [statusReads, receivedOf, ih]

/-! ## What steps write and receive -/

/-- The writes of steps that do not fail. -/
def stepWrites : List SeqStep → List (RegOffset × Byte)
  | [] => []
  | .write off v :: ms => (off, v) :: stepWrites ms
  | _ :: ms => stepWrites ms

/-- How often steps read RXR. -/
def stepReceives : List SeqStep → Nat
  | [] => 0
  | .read .txrRxr _ :: ms => stepReceives ms + 1
  | _ :: ms => stepReceives ms

/-- Every read among the steps is one of RXR into `DATA_BUF`. -/
def ReadsToBuffer : List SeqStep → Prop
  | [] => True
  | .read .txrRxr .dataBuf :: ms => ReadsToBuffer ms
  | .read _ _ :: _ => False
  | _ :: ms => ReadsToBuffer ms

theorem stepWrites_append (l m : List SeqStep) : stepWrites (l ++ m) = stepWrites l ++ stepWrites m := by
  induction l with
  | nil => rfl
  | cons a l ih => cases a <;> simp [stepWrites, ih]

theorem stepReceives_append (l m : List SeqStep) : stepReceives (l ++ m) = stepReceives l + stepReceives m := by
  induction l with
  | nil => simp [stepReceives]
  | cons a l ih =>
    rcases a with _ | ⟨o, _⟩ | _ | _ | _ <;> (try cases o) <;> simp [stepReceives, ih]
    omega

theorem readsToBuffer_append (l m : List SeqStep) :
    ReadsToBuffer (l ++ m) ↔ ReadsToBuffer l ∧ ReadsToBuffer m := by
  induction l with
  | nil => simp [ReadsToBuffer]
  | cons a l ih =>
    rcases a with _ | ⟨o, d⟩ | _ | _ | _ <;> (try cases o) <;> (try cases d) <;> simp [ReadsToBuffer, ih]

/-- What steps that do not fail add to the trace and to `DATA_BUF`. -/
structure RunAdds (l : List SeqStep) (s t : State) (tr : List Access) : Prop where
  history : t.history = s.history ++ tr
  writes : writesOf tr = stepWrites l
  receives : (receivedOf tr).length = stepReceives l
  dataBuf : ReadsToBuffer l → t.dataBuf = s.dataBuf ++ receivedOf tr

theorem runStep_adds {b : BusId} {m : SeqStep} {s t : State} (h : runStep b m s = (t, none)) :
    ∃ tr, RunAdds [m] s t tr := by
  cases m with
  | write off v =>
    simp [runStep] at h; subst h
    exact ⟨_, by simp; rfl, rfl, rfl, by simp [receivedOf]⟩
  | read off d =>
    simp [runStep] at h; subst h
    exact ⟨_, by simp; rfl, rfl, by cases off <;> rfl, by cases off <;> cases d <;> simp [ReadsToBuffer, receivedOf]⟩
  | raise => simp [runStep] at h
  | awaitNotBusy n =>
    rcases pollNotBusy_cases b n (s.setPoll 0) with ⟨k, _, _, he⟩ | ⟨_, he⟩ <;> simp [runStep, he] at h
    subst h
    exact ⟨_, by simp [afterPolls_history]; rfl, by simp [writesOf_statusReads, stepWrites],
      by simp [receivedOf_statusReads, stepReceives], by simp [receivedOf_statusReads]⟩
  | awaitComplete e n =>
    rcases pollComplete_cases b e n (s.setPoll 0) with ⟨k, _, _, he⟩ | ⟨k, _, _, _, he⟩ | ⟨k, _, _, _, he⟩ |
      ⟨_, he⟩ <;> simp [runStep, he] at h
    subst h
    exact ⟨_, by simp [afterPolls_history]; rfl, by simp [writesOf_statusReads, stepWrites],
      by simp [receivedOf_statusReads, stepReceives], by simp [receivedOf_statusReads]⟩

theorem runSteps_adds {b : BusId} {l : List SeqStep} {s t : State} (h : runSteps b l s = (t, none)) :
    ∃ tr, RunAdds l s t tr := by
  induction l generalizing s with
  | nil => cases h; exact ⟨[], by simp, rfl, rfl, by simp [receivedOf]⟩
  | cons m l ih =>
    rcases hm : runStep b m s with ⟨u, _ | k⟩
    · rw [runSteps_cons_ok _ hm] at h
      obtain ⟨tr, h1, h2, h3, h4⟩ := ih h
      obtain ⟨tr0, g1, g2, g3, g4⟩ := runStep_adds hm
      refine ⟨tr0 ++ tr, by simp [h1, g1], ?_, ?_, ?_⟩
      · rw [writesOf_append, g2, h2, ← stepWrites_append]; rfl
      · rw [receivedOf_append, List.length_append, g3, h3, ← stepReceives_append]; rfl
      · intro hr
        have := (readsToBuffer_append [m] l).1 hr
        rw [h4 this.2, g4 this.1, receivedOf_append, List.append_assoc]
    · rw [runSteps_cons_err _ hm] at h; cases h

/-! ## The steps of the transactions -/

@[simp] theorem regAddrBytes_length (r : BitVec 32) (n : Nat) : (regAddrBytes r n).length = n := by
  induction n <;> simp [regAddrBytes, *]

theorem stepWrites_sendAcked (p : Params) (v : Byte) (st sp : Bool) :
    stepWrites (sendAckedSteps p v st sp) = [(.txrRxr, v), (.crSr, CR.sendByteCommand st sp)] := rfl

theorem stepReceives_sendAcked (p : Params) (v : Byte) (st sp : Bool) :
    stepReceives (sendAckedSteps p v st sp) = 0 := rfl

theorem readsToBuffer_sendAcked (p : Params) (v : Byte) (st sp : Bool) :
    ReadsToBuffer (sendAckedSteps p v st sp) := by simp [sendAckedSteps, sendByteSteps, ReadsToBuffer]

theorem bodyBytes_run (p : Params) (l : List Byte) :
    stepWrites (bodyBytesSteps p l) = l.flatMap (fun v => [(.txrRxr, v), (.crSr, 0x10)]) ∧
      stepReceives (bodyBytesSteps p l) = 0 ∧ ReadsToBuffer (bodyBytesSteps p l) := by
  have hc : CR.sendByteCommand false false = 0x10 := by decide
  induction l with
  | nil => exact ⟨rfl, rfl, trivial⟩
  | cons a l ih =>
    simp only [bodyBytesSteps, stepWrites_append, stepReceives_append, readsToBuffer_append, stepWrites_sendAcked,
      stepReceives_sendAcked, ih, hc, List.flatMap_cons]
    exact ⟨trivial, trivial, readsToBuffer_sendAcked .., trivial⟩

theorem addressPhase_run (p : Params) (c : BitVec 7) (r : BitVec 32) (n : Nat) (d : Direction) :
    stepWrites (addressWithOffsetSteps p c r n d) = addressWrites c r n d ∧
      stepReceives (addressWithOffsetSteps p c r n d) = 0 ∧ ReadsToBuffer (addressWithOffsetSteps p c r n d) := by
  have hc : CR.sendByteCommand true false = 0x90 := by decide
  cases d <;>
    simp [addressWithOffsetSteps, startAddressedSteps, stepWrites_append, stepReceives_append,
      readsToBuffer_append, stepWrites_sendAcked, stepReceives_sendAcked, readsToBuffer_sendAcked, bodyBytes_run,
      addressWrites, hc, addrByte_write, addrByte_read]

theorem payload_run (p : Params) (l : List Byte) :
    stepWrites (payloadSteps p l) = payloadWrites l ∧ stepReceives (payloadSteps p l) = 0 := by
  have h10 : CR.sendByteCommand false false = 0x10 := by decide
  have h50 : CR.sendByteCommand false true = 0x50 := by decide
  induction l with
  | nil => exact ⟨rfl, rfl⟩
  | cons a l ih =>
    cases l with
    | nil => exact ⟨rfl, rfl⟩
    | cons b l =>
      rw [payloadSteps, stepWrites_append, stepReceives_append, ih.1, ih.2, stepWrites_sendAcked]
      simp [h10, payloadWrites, stepReceives_sendAcked]

theorem dataRead_run (p : Params) (m : Nat) :
    stepWrites (dataReadSteps p m) =
        List.replicate (m - 1) (.crSr, 0x20) ++ (if m = 0 then [] else [(.crSr, 0x68)]) ∧
      stepReceives (dataReadSteps p m) = m ∧ ReadsToBuffer (dataReadSteps p m) := by
  have h20 : CR.readByteCommand false = 0x20 := by decide
  have h68 : CR.readByteCommand true = 0x68 := by decide
  induction m with
  | zero => exact ⟨rfl, rfl, trivial⟩
  | succ m ih =>
    obtain ⟨h1, h2, h3⟩ := ih
    refine ⟨?_, ?_, ?_⟩
    · rw [dataReadSteps, stepWrites_append, h1]
      cases m with
      | zero => simp [readByteSteps, stepWrites, h68]
      | succ m => simp [readByteSteps, stepWrites, h20, List.replicate_succ]
    · rw [dataReadSteps, stepReceives_append, h2]
      simp [readByteSteps, stepReceives]
      omega
    · rw [dataReadSteps, readsToBuffer_append]
      exact ⟨by simp [readByteSteps, ReadsToBuffer], h3⟩

/-- What the accesses of an operation write is what its steps write (`operationWrites` says it from the rules). -/
theorem stepWrites_stepsOf (p : Params) {i : Instr} (h : rowByte i = none) :
    stepWrites (stepsOf p i) = operationWrites p i := by
  have h10 : CR.sendByteCommand true false = 0x90 := by decide
  have h20 : CR.readByteCommand false = 0x20 := by decide
  have h68 : CR.readByteCommand true = 0x68 := by decide
  cases i with
  | initController hz _ =>
    simp only [stepsOf, operationWrites]
    cases prescaler p.inputClockHz hz <;> rfl
  | readRegister n => simp only [stepsOf, operationWrites]; cases offsetOf n <;> rfl
  | writeRegister n v => simp only [stepsOf, operationWrites]; cases offsetOf n <;> rfl
  | awaitTransferComplete e n => simp only [stepsOf, operationWrites]; cases ackOfBits e <;> rfl
  | sendByte v st sp => cases st <;> cases sp <;> rfl
  | readByte sp => cases sp <;> rfl
  | startAddressed c d =>
    cases d <;>
      simp [stepsOf, operationWrites, startAddressedSteps, stepWrites_sendAcked, h10, addrByte_write, addrByte_read,
        directionBit]
  | addressWithOffset c r n d => exact (addressPhase_run p c r n d).1
  | readBlock c r n m =>
    simp [stepsOf, readBlockSteps, stepWrites, stepWrites_append, addressPhase_run, dataRead_run, operationWrites]
  | writeBlock c r n bs =>
    simp [stepsOf, writeBlockSteps, stepWrites, stepWrites_append, addressPhase_run, payload_run, operationWrites]
  | probe c =>
    simp [stepsOf, probeSteps, readBlockSteps, stepWrites, stepWrites_append, addressPhase_run, dataRead_run,
      operationWrites]
  | selectBus | currentBus | sendStop | awaitBusNotBusy | resetBus => rfl
  | cmdWr | cmdWrStart | cmdWrStop | cmdWrStartStop | cmdRd | cmdRdLast | cmdStop | cmdResetRd | cmdIack | addrW
  | addrR | ctrDisable | ctrEnable => simp [rowByte] at h

/-! ## A step that fails -/

/-- Everything a failing step adds to the trace (R271, R272): status reads, and the one stop exactly with
`NotAcknowledged`; of the steps only waits and `raise` fail. -/
theorem runStep_fails {b : BusId} {m : SeqStep} {s t : State} {k : ErrorKind} (h : runStep b m s = (t, some k)) :
    (∃ tr, t.history = s.history ++ tr ∧ receivedOf tr = [] ∧
      writesOf tr = if k = .notAcknowledged ∧ m ≠ .raise k then [(.crSr, 0x41)] else []) ∧
      (m = .raise k ∨ (∃ n, m = .awaitNotBusy n ∧ k = .busy) ∨
        ∃ e n, m = .awaitComplete e n ∧ (k = .arbitrationLost ∨ k = .timeout ∨ k = .notAcknowledged)) := by
  cases m with
  | write off v => simp [runStep] at h
  | read off d => simp [runStep] at h
  | raise k' =>
    simp [runStep] at h
    obtain ⟨rfl, rfl⟩ := h
    exact ⟨⟨[], by simp, rfl, by simp [writesOf]⟩, .inl rfl⟩
  | awaitNotBusy n =>
    rcases pollNotBusy_cases b n (s.setPoll 0) with ⟨_, _, _, he⟩ | ⟨_, he⟩ <;> simp [runStep, he] at h
    obtain ⟨rfl, rfl⟩ := h
    exact ⟨⟨statusReads b n s, by simp [afterPolls_history], receivedOf_statusReads .., by
      simp [writesOf_statusReads]⟩, .inr (.inl ⟨n, rfl, rfl⟩)⟩
  | awaitComplete e n =>
    rcases pollComplete_cases b e n (s.setPoll 0) with ⟨j, _, _, he⟩ | ⟨_, _, _, _, he⟩ | ⟨j, _, _, _, he⟩ |
      ⟨_, he⟩ <;> simp [runStep, he] at h <;> obtain ⟨rfl, rfl⟩ := h
    · exact ⟨⟨statusReads b (j + 1) s, by simp [afterPolls_history], receivedOf_statusReads .., by
        simp [writesOf_statusReads]⟩, .inr (.inr ⟨e, n, rfl, by simp⟩)⟩
    · refine ⟨⟨statusReads b (j + 1) s ++ [.write (baseOf s.cfg b) .crSr 0x41], ?_, ?_, ?_⟩,
        .inr (.inr ⟨e, n, rfl, by simp⟩)⟩
      · have hc := (afterPolls_frame b (j + 1) (s.setPoll 0)).cfg
        simp [afterPolls_history, hc, CR.sendStopCommand, CR.stop, CR.irqAck]
      · simp [receivedOf_append, receivedOf_statusReads, receivedOf]
      · simp [writesOf_append, writesOf_statusReads, writesOf]
    · exact ⟨⟨statusReads b n s, by simp [afterPolls_history], receivedOf_statusReads .., by
        simp [writesOf_statusReads]⟩, .inr (.inr ⟨e, n, rfl, by simp⟩)⟩

end Sys2Proof.Machine
end

