-- ==== Sys2Proof/Machine/Text.lean ====
section
/-! DEFINITION. The textual form of operations and results (spec/30_encoding.md R125). Numbers are written in
decimal, which R125 allows. The rows of formats CR, ADDR and CTR are no operations and have no call form; they
are written as the table names them. -/

namespace Sys2Proof.Machine

/-- Items with a comma and a space between. -/
def commaList : List String → String
  | [] => ""
  | [x] => x
  | x :: y :: rest => x ++ ", " ++ commaList (y :: rest)

/-- `mnemonic(operand, operand, ...)` -/
def callText (mnemonic : String) (operands : List String) : String :=
  mnemonic ++ "(" ++ commaList operands ++ ")"

/-- A boolean -/
def boolText (b : Bool) : String := if b then "true" else "false"

/-- A direction -/
def directionText : Direction → String
  | .write => "Write"
  | .read => "Read"

/-- An acknowledge expectation; the value that is none is written as a number. -/
def ackText (b : BitVec 2) : String :=
  match ackOfBits b with
  | some .dontCare => "DontCare"
  | some .requireAck => "RequireAck"
  | some .requireNack => "RequireNack"
  | none => b.toNat.repr

/-- A byte list in square brackets -/
def bytesText (bs : List Byte) : String := "[" ++ commaList (bs.map fun b => b.toNat.repr) ++ "]"

/-- R125: the textual form of an operation, operands in the order of R115. -/
def instrText : Instr → String
  | .selectBus n => callText "selectBus" [n.repr]
  | .currentBus => callText "currentBus" []
  | .initController hz a => callText "initialize" [hz.repr, a.toNat.repr]
  | .readBlock c r n m => callText "readBlock" [c.toNat.repr, r.toNat.repr, n.repr, m.repr]
  | .writeBlock c r n bs => callText "writeBlock" [c.toNat.repr, r.toNat.repr, n.repr, bytesText bs]
  | .probe c => callText "probe" [c.toNat.repr]
  | .readRegister off => callText "readRegister" [off.repr]
  | .writeRegister off b => callText "writeRegister" [off.repr, b.toNat.repr]
  | .sendByte v st sp => callText "sendByte" [v.toNat.repr, boolText st, boolText sp]
  | .sendStop => callText "sendStop" []
  | .awaitBusNotBusy n => callText "awaitBusNotBusy" [n.repr]
  | .awaitTransferComplete e n => callText "awaitTransferComplete" [ackText e, n.repr]
  | .readByte sp => callText "readByte" [boolText sp]
  | .resetBus => callText "resetBus" []
  | .startAddressed c d => callText "startAddressed" [c.toNat.repr, directionText d]
  | .addressWithOffset c r n d =>
    callText "addressWithOffset" [c.toNat.repr, r.toNat.repr, n.repr, directionText d]
  | .cmdWr => "CMD_WR"
  | .cmdWrStart => "CMD_WR_START"
  | .cmdWrStop => "CMD_WR_STOP"
  | .cmdWrStartStop => "CMD_WR_START_STOP"
  | .cmdRd => "CMD_RD"
  | .cmdRdLast => "CMD_RD_LAST"
  | .cmdStop => "CMD_STOP"
  | .cmdResetRd => "CMD_RESET_RD"
  | .cmdIack => "CMD_IACK"
  | .addrW c => callText "ADDR_W" [c.toNat.repr]
  | .addrR c => callText "ADDR_R" [c.toNat.repr]
  | .ctrDisable => "CTR_DISABLE"
  | .ctrEnable => "CTR_ENABLE"

/-- The name of a failure kind (R260) -/
def kindText : ErrorKind → String
  | .invalidBus => "InvalidBus"
  | .invalidClock => "InvalidClock"
  | .busy => "Busy"
  | .timeout => "Timeout"
  | .arbitrationLost => "ArbitrationLost"
  | .notAcknowledged => "NotAcknowledged"

/-- R125: the textual form of a result; the value, where the operation delivers one under `Ok`, is that of
R115's outputs. -/
def resultText (i : Instr) (s : State) : String :=
  match s.result with
  | .err k => "-> Err(" ++ kindText k ++ ")"
  | .ok =>
    match i with
    | .currentBus => "-> Ok(" ++ s.outIndex.repr ++ ")"
    | .readRegister _ | .readByte _ => "-> Ok(" ++ s.outByte.toNat.repr ++ ")"
    | .readBlock _ _ _ _ => "-> Ok(" ++ bytesText s.dataBuf ++ ")"
    | _ => "-> Ok"

end Sys2Proof.Machine
end

