-- ==== Sys2Proof/Tests/Slice0.lean ====
section
/-! SUPPORT. Tests of this model's own author: ill-formed terms, words written out from the tables of
spec/30_encoding.md, single operations with the expected traces of spec/95_test_vectors.md, and, for every
obligation with hypotheses, states and operands that meet them. -/

namespace Sys2Proof.Machine

/-! ## Ill-formed terms (R123) -/

theorem test_illFormed_ackExpectation : wellFormed (.awaitTransferComplete 0b11 10) = false := by decide
theorem test_illFormed_addressLength_readBlock : wellFormed (.readBlock 0x50 0 5 1) = false := by decide
theorem test_illFormed_addressLength_writeBlock : wellFormed (.writeBlock 0x50 0 5 [1]) = false := by decide
theorem test_illFormed_addressLength_addressWithOffset : wellFormed (.addressWithOffset 0x50 0 5 .write) = false := by
  decide
theorem test_illFormed_offset_readRegister :
    wellFormed (.readRegister 0x5) = false ∧ wellFormed (.readRegister 0x6) = false := by decide
theorem test_illFormed_offset_writeRegister : wellFormed (.writeRegister 0x8 0x00) = false := by decide
theorem test_wellFormed_boundaries :
    wellFormed (.readBlock 0x7F 0xFFFFFFFF 4 6) = true ∧ wellFormed (.readRegister 0x7) = true ∧
    wellFormed (.awaitTransferComplete 0b10 0) = true := by decide

/-! ## Words written out from the tables -/

/-- R115: codes 0x0, 0x1, 0x2 with their operand inputs. -/
theorem test_decode_selector_and_lifecycle :
    decode (.req { op := 0b0000#4, busIndex := 1 }) = .ok (.selectBus 1) ∧
    decode (.req { op := 0b0001#4, busIndex := 1 }) = .ok .currentBus ∧
    decode (.req { op := 0b0010#4, requestedClockHz := 100000, slaveAddress := 0x55 })
      = .ok (.initController 100000 0x55) := by decide

/-- R115: codes 0x3, 0x4, 0x5, 0xE, 0xF. -/
theorem test_decode_transactions :
    decode (.req { op := 0b0011#4, chipAddress := 0x50, registerAddress := 0xFA, addressLength := 1, length := 6 })
      = .ok (.readBlock 0x50 0xFA 1 6) ∧
    decode (.req { op := 0b0100#4, chipAddress := 0x50, registerAddress := 0x10, addressLength := 2, bytes := [0xDE, 0xAD] }) = .ok (.writeBlock 0x50 0x10 2 [0xDE, 0xAD]) ∧
    decode (.req { op := 0b0101#4, chipAddress := 0x51 }) = .ok (.probe 0x51) ∧
    decode (.req { op := 0b1110#4, chipAddress := 0x7F, isRead := 1#1 }) = .ok (.startAddressed 0x7F .read) ∧
    decode (.req { op := 0b1111#4, chipAddress := 0x50, registerAddress := 0x1234, addressLength := 2, isRead := 0#1 })
      = .ok (.addressWithOffset 0x50 0x1234 2 .write) := by decide

/-- R115: codes 0x6 to 0xD. -/
theorem test_decode_registers_and_primitives :
    decode (.req { op := 0b0110#4, offset := 4 }) = .ok (.readRegister 4) ∧
    decode (.req { op := 0b0111#4, offset := 7, value := 0x55 }) = .ok (.writeRegister 7 0x55) ∧
    decode (.req { op := 0b1000#4, value := 0xFF, start := 1#1, stop := 0#1 }) = .ok (.sendByte 0xFF true false) ∧
    decode (.req { op := 0b1001#4 }) = .ok .sendStop ∧
    decode (.req { op := 0b1010#4, timeoutBudget := 5 }) = .ok (.awaitBusNotBusy 5) ∧
    decode (.req { op := 0b1011#4, ackExpectation := 0b10#2, timeoutBudget := 3 })
      = .ok (.awaitTransferComplete 0b10 3) ∧
    decode (.req { op := 0b1100#4, stop := 1#1 }) = .ok (.readByte true) ∧
    decode (.req { op := 0b1101#4 }) = .ok .resetBus := by decide

/-- R112: the nine command bytes, bit by bit (START STOP READ WRITE ACK - SLAVE-CONT IRQ-ACK). -/
theorem test_decode_commandBytes :
    decode (.cr 0b00010000#8) = .ok .cmdWr ∧ decode (.cr 0b10010000#8) = .ok .cmdWrStart ∧
    decode (.cr 0b01010000#8) = .ok .cmdWrStop ∧ decode (.cr 0b11010000#8) = .ok .cmdWrStartStop ∧
    decode (.cr 0b00100000#8) = .ok .cmdRd ∧ decode (.cr 0b01101000#8) = .ok .cmdRdLast ∧
    decode (.cr 0b01000001#8) = .ok .cmdStop ∧ decode (.cr 0b00101000#8) = .ok .cmdResetRd ∧
    decode (.cr 0b00000001#8) = .ok .cmdIack := by decide

/-- R105, 95_test_vectors.md 2.1 and S8. -/
theorem test_decode_addressBytes :
    decode (.addr 0b10100000#8) = .ok (.addrW 0x50) ∧ decode (.addr 0b10100001#8) = .ok (.addrR 0x50) ∧
    decode (.addr 0b11111110#8) = .ok (.addrW 0x7F) ∧ decode (.addr 0b01010101#8) = .ok (.addrR 0x2A) := by decide

/-- R101: bit 7 core-enable. -/
theorem test_decode_controlValues :
    decode (.ctr 0b00000000#8) = .ok .ctrDisable ∧ decode (.ctr 0b10000000#8) = .ok .ctrEnable := by decide

/-- R112, R119, R124: bytes outside the closed sets are rejected by name. -/
theorem test_decode_rejects :
    decode (.cr 0x04) = .error (.unlistedCommand 0x04) ∧ decode (.cr 0x02) = .error (.unlistedCommand 0x02) ∧
    decode (.ctr 0x40) = .error (.unlistedControl 0x40) ∧ decode (.other 16 0x1234) = .error (.noFormat 16 0x1234) := by
  decide

/-- The opcode table's patterns (log 10). -/
theorem test_decodeTableWord :
    decodeTableWord 8 0x0 = some (.selectBus 0) ∧ decodeTableWord 8 0xB = some (.awaitTransferComplete 0 0) ∧
    decodeTableWord 8 0x68 = some .cmdRdLast ∧ decodeTableWord 8 0x80 = some .ctrEnable ∧
    decodeTableWord 8 0xA1 = some (.addrR 0x50) ∧ decodeTableWord 8 0xA0 = some (.addrW 0x50) ∧
    decodeTableWord 16 0x100 = none := by decide

/-! ## States -/

/-- Parameters of P4 and P5 of 95_test_vectors.md, with bases and a buffer bound. -/
def testParams : Params where
  base0 := 0x00000000
  base1 := 0x00000100
  inputClockHz := 50000000
  budgetBusy := 3
  budgetXfer := 4
  maxBlock := 8

/-- SimBlock with these status answers, this default and these bytes to receive. -/
def testSim (srQ : List Byte) (srDefault : Byte) (rxQ : List Byte) : Environment :=
  .sim { srQ := srQ, srDefault := srDefault, rxQ := rxQ, rxDefault := 0x00 }

/-- Between operations with bus `b` active, both instances answered by `e`. -/
def onBus (b : BusId) (e : Environment) : State :=
  { State.reset with
    cfg := testParams
    ctl0 := { Controller.reset with env := e }
    ctl1 := { Controller.reset with env := e }
    activeBase := some (baseOf testParams b) }

/-- As `onBus`, with no bus active. -/
def unselected (e : Environment) : State := { onBus .bus0 e with activeBase := none }

/-- The result and the trace of an operation. -/
def outcome (i : Instr) (s : State) : Option (Result × List Access) :=
  (nextState (exec i s)).map fun t => (t.result, t.history)

/-- `W off val` on instance 0. -/
def w0 (off : RegOffset) (v : Byte) : Access := .write 0x00000000 off v

/-- `R off -> val` on instance 0. -/
def r0 (off : RegOffset) (v : Byte) : Access := .read 0x00000000 off v

/-! ## Single operations (95_test_vectors.md) -/

/-- S1. -/
theorem test_selectBus_inRange :
    (nextState (exec (.selectBus 1) (unselected .free))).map (fun t => (t.result, t.activeBase, t.history)) =
      some (.ok, some 0x00000100, []) := by decide

/-- S1, step 5. -/
theorem test_selectBus_outOfRange :
    (nextState (exec (.selectBus 2) (onBus .bus1 .free))).map (fun t => (t.result, t.activeBase, t.history)) =
      some (.err .invalidBus, some 0x00000100, []) := by decide

/-- 2.2. -/
theorem test_currentBus :
    (nextState (exec .currentBus (onBus .bus1 .free))).map (fun t => (t.result, t.outIndex)) = some (.ok, 1) := by
  decide

/-- 2.2: none active. -/
theorem test_currentBus_unset : outcome .currentBus (unselected .free) = some (.err .invalidBus, []) := by decide

/-- S9, P1 step 3: from no selection; the default instance is selected. -/
theorem test_initialize :
    (nextState (exec (.initController 100000 0x00) (unselected (testSim [0x40, 0x40, 0x00] 0x40 [])))).map
      (fun t => (t.result, t.activeBase, t.history)) =
    some (.ok, some 0x00000000,
      [w0 .ctr 0x00, w0 .crSr 0x01, w0 .prerLo 0x63, w0 .prerHi 0x00, w0 .ctr 0x80, w0 .crSr 0x28, w0 .crSr 0x41,
        r0 .crSr 0x40, r0 .crSr 0x40, r0 .crSr 0x00]) := by decide

/-- S2. -/
theorem test_initialize_zeroClock :
    (nextState (exec (.initController 0 0xFF) (unselected .free))).map
      (fun t => (t.result, t.activeBase, t.history)) = some (.err .invalidClock, none, []) := by decide

/-- S7, shortened to two bytes (2.5). -/
theorem test_readBlock :
    (nextState (exec (.readBlock 0x50 0xFA 1 2) (onBus .bus0 (testSim [] 0x00 [0x11, 0x22])))).map
      (fun t => (t.result, t.dataBuf, t.history)) =
    some (.ok, [0x11, 0x22],
      [r0 .crSr 0x00, w0 .txrRxr 0xA0, w0 .crSr 0x90, r0 .crSr 0x00, w0 .txrRxr 0xFA, w0 .crSr 0x10, r0 .crSr 0x00,
        w0 .txrRxr 0xA1, w0 .crSr 0x90, r0 .crSr 0x00, w0 .crSr 0x20, r0 .crSr 0x00, r0 .txrRxr 0x11,
        w0 .crSr 0x68, r0 .crSr 0x00, r0 .txrRxr 0x22]) := by decide

/-- S5, second case: arbitration lost in the first data byte; RXR is not read. -/
theorem test_readBlock_arbitrationLost :
    (outcome (.readBlock 0x50 0xFA 1 6) (onBus .bus0 (testSim [0x00, 0x00, 0x00, 0x00, 0x02, 0x20] 0x00 []))).map
      (fun r => (r.1, r.2.length, r.2.getLast?)) =
    some (.err .arbitrationLost, 13, some (r0 .crSr 0x20)) := by decide

/-- 2.5: three payload bytes, no register address. -/
theorem test_writeBlock :
    outcome (.writeBlock 0x50 0 0 [0x01, 0x02, 0x03]) (onBus .bus0 (testSim [] 0x00 [])) =
    some (.ok,
      [r0 .crSr 0x00, w0 .txrRxr 0xA0, w0 .crSr 0x90, r0 .crSr 0x00, w0 .txrRxr 0x01, w0 .crSr 0x10, r0 .crSr 0x00,
        w0 .txrRxr 0x02, w0 .crSr 0x10, r0 .crSr 0x00, w0 .txrRxr 0x03, w0 .crSr 0x50, r0 .crSr 0x00]) := by decide

/-- 2.5: the last payload byte is not acknowledged. -/
theorem test_writeBlock_notAcknowledged :
    outcome (.writeBlock 0x50 0x10 1 [0xAA, 0xBB])
      (onBus .bus0 (testSim [0x00, 0x00, 0x00, 0x00, 0x80] 0x00 [])) =
    some (.err .notAcknowledged,
      [r0 .crSr 0x00, w0 .txrRxr 0xA0, w0 .crSr 0x90, r0 .crSr 0x00, w0 .txrRxr 0x10, w0 .crSr 0x10, r0 .crSr 0x00,
        w0 .txrRxr 0xAA, w0 .crSr 0x10, r0 .crSr 0x00, w0 .txrRxr 0xBB, w0 .crSr 0x50, r0 .crSr 0x80,
        w0 .crSr 0x41]) := by decide

/-- P4, request 2. -/
theorem test_probe_absent :
    outcome (.probe 0x51) (onBus .bus0 (testSim [0x41, 0x00, 0xC0] 0x00 [])) =
    some (.err .notAcknowledged,
      [r0 .crSr 0x41, r0 .crSr 0x00, w0 .txrRxr 0xA2, w0 .crSr 0x90, r0 .crSr 0xC0, w0 .crSr 0x41]) := by decide

/-- P4, request 1: the probed register is 0 with one address byte. -/
theorem test_probe_present :
    (outcome (.probe 0x50) (onBus .bus0 (testSim [0x00, 0x40, 0x40, 0x40, 0x40] 0x00 [0x5A]))).map
      (fun r => (r.1.present, r.2.length, writesOf r.2)) =
    some (true, 13, [(.txrRxr, 0xA0), (.crSr, 0x90), (.txrRxr, 0x00), (.crSr, 0x10), (.txrRxr, 0xA1), (.crSr, 0x90),
      (.crSr, 0x68)]) := by decide

/-- 2.3, on instance 1: the address is BASE[1] + 4. -/
theorem test_readRegister :
    (nextState (exec (.readRegister 0x4) (onBus .bus1 (.script [0x40])))).map
      (fun t => (t.result, t.outByte, t.history)) =
      some (.ok, 0x40, [.read 0x00000100 .crSr 0x40]) ∧
    effectiveAddr (baseOf testParams .bus1) .crSr = 0x00000104 := by decide

/-- 2.3: SLADR; only the host writes it. -/
theorem test_writeRegister :
    (nextState (exec (.writeRegister 0x7 0x55) (onBus .bus0 .free))).map
      (fun t => (t.result, t.ctl0.sladr, t.history)) = some (.ok, 0x55, [w0 .sladr 0x55]) := by decide

/-- 2.4. -/
theorem test_sendByte :
    outcome (.sendByte 0xA5 true true) (onBus .bus0 .free) =
      some (.ok, [w0 .txrRxr 0xA5, w0 .crSr 0xD0]) := by decide

/-- 2.4. -/
theorem test_sendStop : outcome .sendStop (onBus .bus0 .free) = some (.ok, [w0 .crSr 0x41]) := by decide

/-- 2.4: ARB-LOST is ignored by this wait. -/
theorem test_awaitBusNotBusy :
    outcome (.awaitBusNotBusy 3) (onBus .bus0 (testSim [0x62, 0x22] 0x40 [])) =
      some (.ok, [r0 .crSr 0x62, r0 .crSr 0x22]) := by decide

/-- S6. -/
theorem test_awaitBusNotBusy_exhausted :
    outcome (.awaitBusNotBusy 5) (onBus .bus0 (testSim [] 0x40 [])) =
      some (.err .busy, [r0 .crSr 0x40, r0 .crSr 0x40, r0 .crSr 0x40, r0 .crSr 0x40, r0 .crSr 0x40]) := by decide

/-- 2.4: the row 0x02, 0x02, 0x80 with RequireAck, and the row 0xA0 (arbitration comes first, no stop). -/
theorem test_awaitTransferComplete :
    outcome (.awaitTransferComplete 1 3) (onBus .bus0 (testSim [0x02, 0x02, 0x80] 0x02 [])) =
      some (.err .notAcknowledged, [r0 .crSr 0x02, r0 .crSr 0x02, r0 .crSr 0x80, w0 .crSr 0x41]) ∧
    outcome (.awaitTransferComplete 1 3) (onBus .bus0 (testSim [0xA0] 0x02 [])) =
      some (.err .arbitrationLost, [r0 .crSr 0xA0]) := by decide

/-- 2.4: RequireNack with 0x00, and the timeout one read too early. -/
theorem test_awaitTransferComplete_nack :
    outcome (.awaitTransferComplete 2 3) (onBus .bus0 (testSim [0x00] 0x02 [])) =
      some (.err .notAcknowledged, [r0 .crSr 0x00, w0 .crSr 0x41]) ∧
    outcome (.awaitTransferComplete 2 3) (onBus .bus0 (testSim [0x02, 0x02, 0x02, 0x00] 0x02 [])) =
      some (.err .timeout, [r0 .crSr 0x02, r0 .crSr 0x02, r0 .crSr 0x02]) := by decide

/-- 2.4: RXACK is not judged. -/
theorem test_readByte :
    (nextState (exec (.readByte false) (onBus .bus0 (testSim [0x80] 0x02 [0x3C])))).map
      (fun t => (t.result, t.outByte, t.history)) =
      some (.ok, 0x3C, [w0 .crSr 0x20, r0 .crSr 0x80, r0 .txrRxr 0x3C]) := by decide

/-- 2.4: on a failure RXR is not read. -/
theorem test_readByte_arbitrationLost :
    outcome (.readByte true) (onBus .bus0 (testSim [0x02, 0x20] 0x02 [0x3C])) =
      some (.err .arbitrationLost, [w0 .crSr 0x68, r0 .crSr 0x02, r0 .crSr 0x20]) := by decide

/-- 2.4. -/
theorem test_resetBus :
    outcome .resetBus (onBus .bus0 (testSim [0x40, 0x00] 0x40 [])) =
      some (.ok, [w0 .crSr 0x28, w0 .crSr 0x41, r0 .crSr 0x40, r0 .crSr 0x00]) := by decide

/-- S4, second case. -/
theorem test_startAddressed_notAcknowledged :
    outcome (.startAddressed 0x50 .read) (onBus .bus0 (testSim [0x82, 0x80] 0x02 [])) =
      some (.err .notAcknowledged,
        [w0 .txrRxr 0xA1, w0 .crSr 0x90, r0 .crSr 0x82, r0 .crSr 0x80, w0 .crSr 0x41]) := by decide

/-- S3. -/
theorem test_startAddressed :
    outcome (.startAddressed 0x50 .write) (onBus .bus0 (testSim [0x02, 0x02, 0x02, 0x00] 0x02 [])) =
      some (.ok, [w0 .txrRxr 0xA0, w0 .crSr 0x90, r0 .crSr 0x02, r0 .crSr 0x02, r0 .crSr 0x02, r0 .crSr 0x00]) := by
  decide

/-- R191: two register-address bytes, most significant first, then the repeated start. -/
theorem test_addressWithOffset :
    outcome (.addressWithOffset 0x50 0x1234 2 .read) (onBus .bus0 (testSim [] 0x00 [])) =
      some (.ok, [w0 .txrRxr 0xA0, w0 .crSr 0x90, r0 .crSr 0x00, w0 .txrRxr 0x12, w0 .crSr 0x10, r0 .crSr 0x00,
        w0 .txrRxr 0x34, w0 .crSr 0x10, r0 .crSr 0x00, w0 .txrRxr 0xA1, w0 .crSr 0x90, r0 .crSr 0x00]) := by decide

/-- R101, R105, R112: the byte rows write their byte. -/
theorem test_byteRows :
    ([Instr.cmdWr, .cmdWrStart, .cmdWrStop, .cmdWrStartStop, .cmdRd, .cmdRdLast, .cmdStop, .cmdResetRd, .cmdIack].map
      fun i => (nextState (exec i (onBus .bus0 .free))).map fun t => t.history) =
      [0x10#8, 0x90#8, 0x50#8, 0xD0#8, 0x20#8, 0x68#8, 0x41#8, 0x28#8, 0x01#8].map (fun v => some [w0 .crSr v]) ∧
    ([Instr.addrW 0x68, .addrR 0x68, .ctrDisable, .ctrEnable].map
      fun i => (nextState (exec i (onBus .bus0 .free))).map fun t => t.history) =
      [some [w0 .txrRxr 0xD0], some [w0 .txrRxr 0xD1], some [w0 .ctr 0x00], some [w0 .ctr 0x80]] := by decide

/-- D32: the request is served by the first step; begun, the same operation takes one step for each access. -/
theorem test_step_serves_and_advances :
    (nextState (step ((onBus .bus0 .free).withFetchWord 8 0x9))).map (fun t => (t.history, t.requests)) =
      some ([w0 .crSr 0x41], []) ∧
    (nextState (step ((onBus .bus0 .free).begun (.sendByte 0xA5 true false)))).map (fun t => t.history) =
      some [w0 .txrRxr 0xA5] := by decide

/-- R125, in decimal. -/
theorem test_instrText : instrText (.sendByte 0xFF true false) = "sendByte(255, true, false)" ∧
    instrText (.writeBlock 0x50 0x10 1 [0xAA, 0xBB]) = "writeBlock(80, 16, 1, [170, 187])" := by
  constructor <;> rfl

/-- 2.7: refusals make no access and leave no next state. -/
theorem test_refusals :
    exec (.awaitTransferComplete 3 10) (onBus .bus0 .free) = .refused .badAckExpectation ∧
    exec (.addressWithOffset 0x50 0 5 .write) (onBus .bus0 .free) = .refused .addressLengthTooLong ∧
    exec (.readBlock 0x50 0 1 9) (onBus .bus0 .free) = .refused .blockTooLong ∧
    exec (.readRegister 0x6) (onBus .bus0 .free) = .refused .unassignedOffset ∧
    exec .sendStop (unselected .free) = .refused .noActiveBus :=
  ⟨rfl, rfl, rfl, rfl, rfl⟩

/-! ## Witnesses: the hypotheses of the obligations are met -/

theorem testParams_valid : testParams.Valid := by decide

theorem ready_onBus (b : BusId) (e : Environment) : Ready (onBus b e) b :=
  ⟨testParams_valid, rfl, rfl⟩

theorem inv_onBus (b : BusId) (e : Environment) : MachineInv (onBus b e) :=
  ⟨testParams_valid, by cases b <;> simp [SelectorOk, onBus, baseOf], Nat.zero_le _, trivial⟩

/-- `onBus .bus0` with the word of `sendStop` as the host's next request. -/
def requested : State := (onBus .bus0 .free).withFetchWord 8 0x9

theorem witness_StepRunsTheDecodedInstruction :
    requested.phase = .idle ∧ requested.requests = .req { op := 0x9 } :: [] ∧
      decode (.req { op := 0x9 }) = .ok .sendStop := by decide

theorem witness_StepWaitsAndRefusesNonRows :
    (onBus .bus0 .free).phase = .idle ∧ (onBus .bus0 .free).requests = [] ∧
      ((onBus .bus0 .free).withFetchWord 16 0x100).requests = .other 16 0x100 :: [] ∧
      decode (.other 16 0x100) = .error (.noFormat 16 0x100) := by decide

/-- `sendByte` before its first access. -/
def sending : State := (onBus .bus0 .free).begun (.sendByte 0xA5 true false)

theorem witness_StepInsideAnOperationIsOneAccess : MachineInv sending ∧
    sending.phase = .run (.sendByte 0xA5 true false) (sendByteSteps 0xA5 true false) :=
  ⟨⟨testParams_valid, .inr (.inl rfl), Nat.zero_le _, ⟨by decide, trivial⟩⟩, rfl⟩

theorem witness_OperationIsItsAccessesOneByOne :
    stepsOf (onBus .bus0 .free).cfg (.sendByte 0xA5 true false) ≠ [] ∧
      ∃ t, exec (.sendByte 0xA5 true false) (onBus .bus0 .free) = .next t ∧ t.history.length = 2 :=
  ⟨by decide, _, rfl, rfl⟩

theorem witness_StepKeepsTheInvariant : MachineInv requested ∧ ∃ t, step requested = .next t :=
  ⟨⟨testParams_valid, .inr (.inl rfl), Nat.zero_le _, trivial⟩, _, rfl⟩

theorem witness_StepKeepsTheInvariant_inside : MachineInv sending ∧ ∃ t, step sending = .next t :=
  ⟨witness_StepInsideAnOperationIsOneAccess.1, _, rfl⟩

theorem witness_EncodeOfDecodeIsTheByte :
    decode (.cr 0x41) = .ok .cmdStop ∧ decode (.addr 0xFF) = .ok (.addrR 0x7F) ∧ decode (.ctr 0x00) = .ok .ctrDisable := by
  decide

theorem witness_RegisterAddressBytesMostSignificantFirst :
    (0 < 1 ∧ (regAddrBytes 0xFA 1)[1 - 1 - 0]? = some 0xFA) ∧
      (3 < 4 ∧ (regAddrBytes 0x12345678 4)[4 - 1 - 3]? = some 0x12) := by decide

/-- The last eight-byte window of the address space. -/
theorem witness_RegisterAddressesAreUnambiguous :
    ({ testParams with base1 := 0xFFFFFFF8 } : Params).Valid ∧
      locate { testParams with base1 := 0xFFFFFFF8 } 0xFFFFFFFF = some (.bus1, .sladr) := by decide

theorem witness_SimBlockAnswersFromItsQueues :
    ((onBus .bus1 (testSim [0x42] 0x00 [])).ctl .bus1).env =
      .sim { srQ := [0x42], srDefault := 0x00, rxQ := [], rxDefault := 0x00 } ∧
    RegOffset.sladr ≠ .crSr ∧ RegOffset.sladr ≠ .txrRxr := by decide

/-- 2.6: the largest and the smallest usable clock, and one too small and one too large. -/
theorem witness_PrescalerExistsExactlyWhenRepresentable :
    prescaler 50000000 10000000 = some 0 ∧ prescaler 50000000 153 = some 65358 ∧
      prescaler 50000000 152 = none ∧ prescaler 50000000 10000001 = none ∧ prescaler 327680 1 = some 65535 := by decide

theorem witness_GeneratedClockIsAtLeastTheRequested : prescaler 50000000 300000 = some 32 := by decide

theorem witness_LegalRequestsRunToIdle :
    SelectorOk (onBus .bus1 .free) ∧ ¬ Illegal .resetBus (onBus .bus1 .free) ∧
      SelectorOk State.reset ∧ ¬ Illegal (.initController 0 0) State.reset :=
  ⟨by decide, by decide, .inl rfl, by simp [Illegal, State.reset, wellFormed, blockLength, needsBus]⟩

theorem witness_AccessesAreBounded :
    ∃ t, exec (.awaitTransferComplete 1 1) (onBus .bus0 (testSim [0x80] 0x02 [])) = .next t ∧ t.history.length = 2 :=
  ⟨_, rfl, by decide⟩

theorem witness_SelectBusSelectsOrFails :
    (unselected .free).phase = .idle ∧ 2 ≤ 2 := by decide

theorem witness_CurrentBusReturnsTheActiveIndex :
    Ready (onBus .bus1 .free) .bus1 ∧ (unselected .free).phase = .idle ∧ (unselected .free).activeBase = none ∧
      (unselected .free).cfg.Valid := ⟨ready_onBus _ _, rfl, rfl, testParams_valid⟩

theorem witness_ReadRegisterIsOneAccess :
    Ready (onBus .bus1 .free) .bus1 ∧ offsetOf 0x0 = some .prerLo ∧ offsetOf 0x3 = some .txrRxr ∧
      offsetOf 0x4 = some .crSr ∧ offsetOf 0x7 = some .sladr :=
  ⟨ready_onBus _ _, rfl, rfl, rfl, rfl⟩

theorem witness_WriteRegisterIsOneAccess : Ready (onBus .bus0 .free) .bus0 ∧ offsetOf 0x7 = some .sladr :=
  ⟨ready_onBus _ _, rfl⟩

theorem witness_ByteRowsWriteTheirByte : Ready (onBus .bus0 .free) .bus0 ∧ rowByte .cmdIack = some (.crSr, 0x01) ∧
    rowByte (.addrR 0x7F) = some (.txrRxr, 0xFF) ∧ rowByte .ctrDisable = some (.ctr, 0x00) :=
  ⟨ready_onBus _ _, rfl, rfl, rfl⟩

/-- Also for `SendStopWritesTheStopCommand`. -/
theorem witness_SendByteWritesTxrThenCr : Ready (onBus .bus0 .free) .bus0 := ready_onBus _ _

/-- 2.4: the last budgeted read. -/
theorem witness_AwaitBusNotBusyCountsExactly_ok :
    Ready (onBus .bus0 (testSim [0x40, 0x40, 0x00] 0x40 [])) .bus0 ∧ 2 < 3 ∧
      NotBusyAt .bus0 2 (onBus .bus0 (testSim [0x40, 0x40, 0x00] 0x40 [])) :=
  ⟨ready_onBus _ _, by decide, by unfold NotBusyAt StillBusy; decide⟩

theorem witness_AwaitBusNotBusyCountsExactly_busy :
    Ready (onBus .bus0 (testSim [] 0x40 [])) .bus0 ∧ StillBusy .bus0 3 (onBus .bus0 (testSim [] 0x40 [])) ∧
      StillBusy .bus0 0 (onBus .bus0 (testSim [] 0x00 [])) :=
  ⟨ready_onBus _ _, by unfold StillBusy; decide, by unfold StillBusy; decide⟩

/-- The status answers of an acknowledged transfer, complete at the last read of a budget of 3. -/
def ackedLate : State := onBus .bus0 (testSim [0x02, 0x02, 0x00] 0x02 [])

/-- The same, not acknowledged. -/
def nackedLate : State := onBus .bus0 (testSim [0x02, 0x02, 0x80] 0x02 [])

/-- Arbitration lost at the last read. -/
def arbLostLate : State := onBus .bus0 (testSim [0x02, 0x02, 0x22] 0x02 [])

/-- A transfer that never completes. -/
def neverComplete : State := onBus .bus0 (testSim [] 0x02 [])

theorem witness_AwaitTransferCompleteJudgesInOrder_met :
    Ready ackedLate .bus0 ∧ ackOfBits 1 = some .requireAck ∧ 2 < 3 ∧ CompleteAt .bus0 2 ackedLate ∧
      ackJudge .requireAck (SR.rxack (statusAnswer .bus0 2 ackedLate)) = .met :=
  ⟨ready_onBus _ _, rfl, by decide, by unfold CompleteAt StillTransferring; decide, by decide⟩

theorem witness_AwaitTransferCompleteJudgesInOrder_violated :
    Ready nackedLate .bus0 ∧ ackOfBits 1 = some .requireAck ∧ 2 < 3 ∧ CompleteAt .bus0 2 nackedLate ∧
      ackJudge .requireAck (SR.rxack (statusAnswer .bus0 2 nackedLate)) = .violated :=
  ⟨ready_onBus _ _, rfl, by decide, by unfold CompleteAt StillTransferring; decide, by decide⟩

theorem witness_AwaitTransferCompleteJudgesInOrder_arbitration :
    Ready arbLostLate .bus0 ∧ ackOfBits 2 = some .requireNack ∧ 2 < 3 ∧ ArbLostAt .bus0 2 arbLostLate :=
  ⟨ready_onBus _ _, rfl, by decide, by unfold ArbLostAt StillTransferring; decide⟩

theorem witness_AwaitTransferCompleteJudgesInOrder_timeout :
    Ready neverComplete .bus0 ∧ ackOfBits 0 = some .dontCare ∧ StillTransferring .bus0 3 neverComplete :=
  ⟨ready_onBus _ _, rfl, by unfold StillTransferring; decide⟩

theorem witness_ReadByteReturnsTheReceiveRegister :
    Ready neverComplete .bus0 ∧ 3 < neverComplete.cfg.budgetXfer ∧
      CompleteAt .bus0 3 ((onBus .bus0 (testSim [0x02, 0x02, 0x02, 0x80] 0x02 [])).regWrite .bus0 .crSr 0x68) ∧
      ArbLostAt .bus0 2 (arbLostLate.regWrite .bus0 .crSr 0x20) ∧
      StillTransferring .bus0 neverComplete.cfg.budgetXfer (neverComplete.regWrite .bus0 .crSr 0x68) :=
  ⟨ready_onBus _ _, by decide, by unfold CompleteAt StillTransferring; decide,
    by unfold ArbLostAt StillTransferring; decide, by unfold StillTransferring; decide⟩

theorem witness_ResetBusForcesReadStopAndWait :
    Ready (onBus .bus0 (testSim [0x40, 0x40, 0x22] 0x40 [])) .bus0 ∧ 2 < testParams.budgetBusy ∧
      NotBusyAt .bus0 2 (((onBus .bus0 (testSim [0x40, 0x40, 0x22] 0x40 [])).regWrite .bus0 .crSr 0x28).regWrite
        .bus0 .crSr 0x41) ∧
      StillBusy .bus0 testParams.budgetBusy
        (((onBus .bus0 (testSim [] 0x40 [])).regWrite .bus0 .crSr 0x28).regWrite .bus0 .crSr 0x41) :=
  ⟨ready_onBus _ _, by decide, by unfold NotBusyAt StillBusy; decide, by unfold StillBusy; decide⟩

theorem witness_StartAddressedSendsTheAddressByte :
    Ready ackedLate .bus0 ∧ 2 < ackedLate.cfg.budgetXfer ∧
      CompleteAt .bus0 2 ((ackedLate.regWrite .bus0 .txrRxr 0xA0).regWrite .bus0 .crSr 0x90) ∧
      SR.rxack (statusAnswer .bus0 2 ((ackedLate.regWrite .bus0 .txrRxr 0xA0).regWrite .bus0 .crSr 0x90)) = false ∧
      CompleteAt .bus0 2 ((nackedLate.regWrite .bus0 .txrRxr 0xA0).regWrite .bus0 .crSr 0x90) ∧
      SR.rxack (statusAnswer .bus0 2 ((nackedLate.regWrite .bus0 .txrRxr 0xA0).regWrite .bus0 .crSr 0x90)) = true ∧
      ArbLostAt .bus0 2 ((arbLostLate.regWrite .bus0 .txrRxr 0xA1).regWrite .bus0 .crSr 0x90) ∧
      StillTransferring .bus0 4 ((neverComplete.regWrite .bus0 .txrRxr 0xA1).regWrite .bus0 .crSr 0x90) :=
  ⟨ready_onBus _ _, by decide, by unfold CompleteAt StillTransferring; decide, by decide,
    by unfold CompleteAt StillTransferring; decide, by decide, by unfold ArbLostAt StillTransferring; decide,
    by unfold StillTransferring; decide⟩

/-- The ideal environment of R250, with two bytes to receive. -/
def idealBus : State := onBus .bus0 (testSim [] 0x00 [0x11, 0x22])

theorem witness_AddressWithOffsetSendsTheAddressPhase :
    Ready idealBus .bus0 ∧ 4 ≤ 4 ∧
      Premises .bus0 (addressWithOffsetSteps idealBus.cfg 0x50 0x12345678 4 .read)
        (idealBus.latch (.addressWithOffset 0x50 0x12345678 4 .read)) :=
  ⟨ready_onBus _ _, by decide, (premises_iff _ _ _).2 (by decide)⟩

theorem witness_ReadBlockDeliversTheReceivedBytes :
    Ready idealBus .bus0 ∧ 1 ≤ 4 ∧ 8 ≤ idealBus.cfg.maxBlock ∧
      Premises .bus0 (readBlockSteps idealBus.cfg 0x50 0xFA 1 8) (idealBus.latch (.readBlock 0x50 0xFA 1 8)) :=
  ⟨ready_onBus _ _, by decide, by decide, (premises_iff _ _ _).2 (by decide)⟩

theorem witness_WriteBlockSendsThePayload :
    Ready idealBus .bus0 ∧ 0 ≤ 4 ∧ [0x01#8, 0x02#8].length ≤ idealBus.cfg.maxBlock ∧
      Premises .bus0 (writeBlockSteps idealBus.cfg 0x50 0 0 [0x01, 0x02])
        (idealBus.latch (.writeBlock 0x50 0 0 [0x01, 0x02])) :=
  ⟨ready_onBus _ _, by decide, by decide, (premises_iff _ _ _).2 (by decide)⟩

theorem witness_ProbeEndsAsItsReadBlock :
    Ready idealBus .bus0 ∧ Premises .bus0 (probeSteps idealBus.cfg 0x50) (idealBus.latch (.probe 0x50)) :=
  ⟨ready_onBus _ _, (premises_iff _ _ _).2 (by decide)⟩

/-- Also for `WriteBlockTraceInTheIdealEnvironment`. -/
theorem witness_ReadBlockTraceInTheIdealEnvironment :
    Ready idealBus .bus0 ∧ 4 ≤ 4 ∧ [0x11#8, 0x22#8].length ≤ idealBus.cfg.maxBlock ∧ 0 < idealBus.cfg.budgetBusy ∧
      0 < idealBus.cfg.budgetXfer ∧ IdealEnv .bus0 [0x11, 0x22] 0x00 idealBus :=
  ⟨ready_onBus _ _, by decide, by decide, by decide, by decide, rfl⟩

/-- R250: a receive default other than 0x00, with one byte queued and three received. -/
theorem witness_ReadBlockTraceInTheIdealEnvironment_default :
    IdealEnv .bus0 [0x11] 0xA5
      (onBus .bus0 (.sim { srQ := [], srDefault := 0x00, rxQ := [0x11], rxDefault := 0xA5 })) ∧
      simReceived [0x11] 0xA5 3 = [0x11, 0xA5, 0xA5] := ⟨rfl, rfl⟩

theorem witness_ReadBlockFramingOnTheBus :
    ∃ t, exec (.readBlock 0x50 0xFA 1 (1 + 1)) idealBus = .next t ∧ t.result = .ok := ⟨_, rfl, by decide⟩

theorem witness_WriteBlockFramingOnTheBus :
    ∃ t, exec (.writeBlock 0x50 0xFA 1 (0x99 :: [])) idealBus = .next t ∧ t.result = .ok := ⟨_, rfl, by decide⟩

theorem witness_ZeroLengthBlocksAskNoStop :
    (∃ t, exec (.readBlock 0x50 0 1 0) idealBus = .next t ∧ t.result = .ok) ∧
      ∃ t, exec (.writeBlock 0x50 0x10 1 []) idealBus = .next t ∧ t.result = .ok :=
  ⟨⟨_, rfl, by decide⟩, _, rfl, by decide⟩

theorem witness_InitializeRejectsUnusableClocks :
    (onBus .bus1 .free).phase = .idle ∧ prescaler (onBus .bus1 .free).cfg.inputClockHz 152 = none := by decide

/-- The state of `s` after `initialize(100000, _)` has made its seven writes on instance 0. -/
def afterInitWrites (s : State) : State :=
  { s with history := s.history ++ [w0 .ctr 0x00, w0 .crSr 0x01, w0 .prerLo 0x63, w0 .prerHi 0x00, w0 .ctr 0x80,
      w0 .crSr 0x28, w0 .crSr 0x41] }

theorem witness_InitializeProgramsTheController :
    testParams.Valid ∧ (unselected (testSim [0x40, 0x40, 0x00] 0x40 [])).activeBase = none ∧
      prescaler testParams.inputClockHz 100000 = some 99 ∧ 2 < testParams.budgetBusy ∧
      NotBusyAt .bus0 2 (afterInitWrites (unselected (testSim [0x40, 0x40, 0x00] 0x40 []))) ∧
      (onBus .bus0 (testSim [] 0x40 [])).activeBase = some (baseOf testParams .bus0) ∧
      StillBusy .bus0 testParams.budgetBusy (afterInitWrites (onBus .bus0 (testSim [] 0x40 []))) :=
  ⟨testParams_valid, rfl, by decide, by decide, by unfold NotBusyAt StillBusy; decide, rfl,
    by unfold StillBusy; decide⟩

theorem witness_SlaveAddressIsUnused :
    ∃ t, exec (.initController 100000 0x55) (unselected (testSim [] 0x00 [])) = .next t ∧ t.result = .ok :=
  ⟨_, rfl, by decide⟩

/-- One failure of each kind; also for `FailureKindsOfEachOperation`. -/
theorem witness_FailuresEndTheTraceTheyExplain :
    (∃ t, exec .currentBus (unselected .free) = .next t ∧ t.result = .err .invalidBus) ∧
    (∃ t, exec (.initController 0 0) (unselected .free) = .next t ∧ t.result = .err .invalidClock) ∧
    (∃ t, exec .resetBus (onBus .bus0 (testSim [] 0x40 [])) = .next t ∧ t.result = .err .busy) ∧
    (∃ t, exec (.readByte true) neverComplete = .next t ∧ t.result = .err .timeout) ∧
    (∃ t, exec (.startAddressed 0x50 .write) arbLostLate = .next t ∧ t.result = .err .arbitrationLost) ∧
    (∃ t, exec (.startAddressed 0x50 .write) nackedLate = .next t ∧ t.result = .err .notAcknowledged) :=
  ⟨⟨_, rfl, by decide⟩, ⟨_, rfl, by decide⟩, ⟨_, rfl, by decide⟩, ⟨_, rfl, by decide⟩, ⟨_, rfl, by decide⟩,
    _, rfl, by decide⟩

/-- R266 in the operation whose expectation is the host's: RequireNack violated by RXACK clear. -/
theorem witness_FailuresEndTheTraceTheyExplain_requireNack :
    (∃ t, exec (.awaitTransferComplete 2 3) ackedLate = .next t ∧ t.result = .err .notAcknowledged) ∧
      judgedExpectation (.awaitTransferComplete 2 3) = some .requireNack ∧
      ackJudge .requireNack (SR.rxack 0x00) = .violated := ⟨⟨_, rfl, by decide⟩, rfl, rfl⟩

/-- `Ok`; `NotAcknowledged` at the first payload byte, with the second never sent (2.5); arbitration lost at the second
byte of a read, the first received; a bus found busy, before and after the writes. -/
theorem witness_OperationsWriteTheirListUpToTheFailure :
    (∃ t, exec (.writeBlock 0x50 0 0 [0x01]) idealBus = .next t ∧ t.result = .ok ∧ rowByte (.writeBlock 0x50 0 0 [0x01]) = none ∧
      writesOf t.history = operationWrites testParams (.writeBlock 0x50 0 0 [0x01])) ∧
    (∃ t, exec (.writeBlock 0x50 0 0 [0xAA, 0xBB]) (onBus .bus0 (testSim [0x00, 0x00, 0x80] 0x00 [])) = .next t ∧
      t.result = .err .notAcknowledged ∧
      writesOf t.history = [(.txrRxr, 0xA0), (.crSr, 0x90), (.txrRxr, 0xAA), (.crSr, 0x10), (.crSr, 0x41)]) ∧
    (∃ t, exec (.readBlock 0x50 0 0 2) (onBus .bus0 (testSim [0x00, 0x00, 0x00, 0x00, 0x20] 0x00 [0x11])) = .next t ∧
      t.result = .err .arbitrationLost ∧ receivedOf t.history = [0x11] ∧
      writesOf t.history = [(.txrRxr, 0xA0), (.crSr, 0x90), (.txrRxr, 0xA1), (.crSr, 0x90), (.crSr, 0x20), (.crSr, 0x68)]) ∧
    (∃ t, exec (.probe 0x50) (onBus .bus0 (testSim [] 0x40 [])) = .next t ∧ t.result = .err .busy ∧ writesOf t.history = []) ∧
    (∃ t, exec .resetBus (onBus .bus0 (testSim [] 0x40 [])) = .next t ∧ t.result = .err .busy ∧
      writesOf t.history = [(.crSr, 0x28), (.crSr, 0x41)]) :=
  ⟨⟨_, rfl, by decide, rfl, by decide⟩, ⟨_, rfl, by decide, by decide⟩, ⟨_, rfl, by decide, by decide, by decide⟩,
    ⟨_, rfl, by decide, by decide⟩, _, rfl, by decide, by decide⟩

/-- Once with `Ok`, once with a failure. -/
theorem witness_OkExactlyWhenThePremisesHold :
    testParams.Valid ∧ stepsOf testParams (.readByte true) ≠ [] ∧
      (∃ t, exec (.readByte true) idealBus = .next t ∧ t.activeBase = some (baseOf t.cfg .bus0) ∧ t.result = .ok) ∧
      ∃ t, exec (.readByte true) neverComplete = .next t ∧ t.activeBase = some (baseOf t.cfg .bus0) ∧
        t.result = .err .timeout :=
  ⟨testParams_valid, by decide, ⟨_, rfl, by decide, by decide⟩, _, rfl, by decide, by decide⟩

/-- A byte row, and an operation none of whose outputs is `OUT_INDEX`, `OUT_BYTE` or `DATA_BUF`. -/
theorem witness_FrameOfTheSequencerRegisters :
    (∃ t, exec .cmdIack (onBus .bus0 .free) = .next t) ∧ (rowByte .cmdIack).isSome ∧
      (∃ t, exec .sendStop (onBus .bus0 .free) = .next t) ∧ mayActivate .sendStop = false ∧ Instr.sendStop ≠ .currentBus ∧
      mayOutByte .sendStop = false ∧ mayBuffer .sendStop = false ∧ mayPoll .sendStop = false :=
  ⟨⟨_, rfl⟩, rfl, ⟨_, rfl⟩, rfl, by decide, rfl, rfl, rfl⟩

theorem witness_FrameOfTheRegisterBlocks :
    ∃ t, exec .resetBus (onBus .bus0 (testSim [] 0x00 [])) = .next t ∧
      t.activeBase ≠ some (baseOf testParams .bus1) ∧ mayWrite .resetBus .txrRxr = false ∧
      mayRead .resetBus .txrRxr = false ∧ mayRead .sendStop .crSr = false := ⟨_, rfl, by decide, rfl, rfl, rfl⟩

/-- Also for `RegistersHoldTheLastByteWritten` and `OperationsWriteOnlyTheListedBytes`. -/
theorem witness_AccessesAreThoseOfTheOperation :
    testParams.Valid ∧ ∃ t, exec (.readByte true) idealBus = .next t ∧ t.activeBase = some (baseOf testParams .bus0) ∧
      t.history = [w0 .crSr 0x68, r0 .crSr 0x00, r0 .txrRxr 0x11] := ⟨testParams_valid, _, rfl, by decide, by decide⟩

/-- `idealBus` with other contents where reset leaves them unspecified. -/
def idealBusDirty : State :=
  { idealBus with
    ctl0 := { idealBus.ctl0 with prerLo := 0x63, ctr := 0x80, cr := 0x41, sr := 0xFF }
    pollCnt := 7
    result := .err .busy
    dataBuf := [0x01, 0x02]
    outByte := 0xEE }

theorem witness_UnspecifiedResetValuesDoNotMatter :
    SameButUnspecified idealBus idealBusDirty ∧ ∃ t, exec (.readBlock 0x50 0 1 2) idealBus = .next t ∧ t.result = .ok :=
  ⟨⟨rfl, rfl, rfl, rfl, rfl, rfl, rfl⟩, _, rfl, by decide⟩

theorem witness_SelectorInvariant :
    SelectorOk requested ∧ (∃ t, step requested = .next t) ∧ (onBus .bus1 .free).phase = .idle ∧ 2 ≤ 2 :=
  ⟨.inr (.inl rfl), ⟨_, rfl⟩, rfl, by decide⟩

end Sys2Proof.Machine
end

section
/-! SUPPORT. How far an operation comes before it fails: where its waits stand among its writes and reads, and what
a run that fails at one of them has made. -/

namespace Sys2Proof.Machine

/-! ## The step between operations -/

/-- Settles O3: an idle step serves the head of the request queue. -/
theorem stepRunsTheDecodedInstruction : Obligations.StepRunsTheDecodedInstruction := by
  intro s w rest i hidle hreq hdec
  have hfetch : fetch s = some (w, { s with requests := rest }) := by simp [fetch, hreq]
  simp [step, hidle, serve, hfetch, hdec]

/-! ## Commands for data bytes among writes -/

theorem dataReads_append (v w : List (RegOffset × Byte)) : dataReads (v ++ w) = dataReads v + dataReads w :=
  List.countP_append

theorem endsInCommand_append (w : List (RegOffset × Byte)) (v : Byte) : EndsInCommand (w ++ [(.crSr, v)]) :=
  .inr ⟨w, v, rfl⟩

/-- The command that sends a byte asks for none (R107, R108). -/
theorem dataReads_sendAcked (p : Params) (v : Byte) (start stop : Bool) :
    dataReads (stepWrites (sendAckedSteps p v start stop)) = 0 := by
  cases start <;> cases stop <;> rfl

/-- The command that receives a byte asks for one (R108). -/
theorem dataReads_readByteCommand (stop : Bool) : dataReads [(.crSr, CR.readByteCommand stop)] = 1 := by
  cases stop <;> rfl

/-! ## Where the waits stand -/

/-- What must have happened before a step that can fail, with the writes `made` made and `got` bytes read from RXR: a
command last, every byte asked for but the last read; a bus-not-busy wait stands after the writes `busyMade`. -/
def StepStands (busyMade made : List (RegOffset × Byte)) (got : Nat) : SeqStep → Prop
  | .write _ _ => True
  | .read _ _ => True
  | .awaitNotBusy _ => (EndsInCommand made ∧ got = dataReads made - 1) ∧ made = busyMade
  | .awaitComplete _ _ => EndsInCommand made ∧ got = dataReads made - 1
  | .raise _ => False

/-- `StepStands` for each of the steps `l`, run after the writes `made` and `got` reads of RXR. -/
def WaitsStand (busyMade made : List (RegOffset × Byte)) (got : Nat) : List SeqStep → Prop
  | [] => True
  | m :: ms =>
    StepStands busyMade made got m ∧ WaitsStand busyMade (made ++ stepWrites [m]) (got + stepReceives [m]) ms

theorem waitsStand_append {busyMade made : List (RegOffset × Byte)} {got : Nat} (l ms : List SeqStep) :
    WaitsStand busyMade made got (l ++ ms) ↔ WaitsStand busyMade made got l ∧
      WaitsStand busyMade (made ++ stepWrites l) (got + stepReceives l) ms := by
  induction l generalizing made got with
  | nil => simp [WaitsStand, stepWrites, stepReceives]
  | cons m l ih =>
    rw [← List.singleton_append (x := m) (l := l), stepWrites_append, stepReceives_append]
    simp [WaitsStand, ih, and_assoc, Nat.add_assoc]

/-! ## Steps that only send -/

/-- Steps that ask for no data byte and whose waits stand where they must, after any writes that asked for none. -/
structure SendsOnly (l : List SeqStep) : Prop where
  waits : ∀ {busyMade made}, dataReads made = 0 → WaitsStand busyMade made 0 l
  noDataReads : dataReads (stepWrites l) = 0
  receives : stepReceives l = 0

namespace SendsOnly

theorem nil : SendsOnly [] := ⟨fun _ => trivial, rfl, rfl⟩

theorem append {l m : List SeqStep} (hl : SendsOnly l) (hm : SendsOnly m) : SendsOnly (l ++ m) where
  waits h := by
    rw [waitsStand_append, hl.receives]
    exact ⟨hl.waits h, hm.waits (by rw [dataReads_append, h, hl.noDataReads])⟩
  noDataReads := by rw [stepWrites_append, dataReads_append, hl.noDataReads, hm.noDataReads]
  receives := by rw [stepReceives_append, hl.receives, hm.receives]

/-- The wait for a byte sent stands right after its command (R160). -/
theorem sendAcked (p : Params) (v : Byte) (start stop : Bool) : SendsOnly (sendAckedSteps p v start stop) where
  waits {_ made} h := by
    have hends := endsInCommand_append (made ++ [(.txrRxr, v)]) (CR.sendByteCommand start stop)
    have hreads : dataReads (made ++ [(.txrRxr, v)] ++ [(.crSr, CR.sendByteCommand start stop)]) = 0 := by
      rw [List.append_assoc, dataReads_append, h]
      exact (Nat.zero_add _).trans (dataReads_sendAcked p v start stop)
    exact ⟨trivial, trivial, ⟨hends, (congrArg (· - 1) hreads).symm⟩, trivial⟩
  noDataReads := dataReads_sendAcked p v start stop
  receives := stepReceives_sendAcked p v start stop

theorem bodyBytes (p : Params) (bs : List Byte) : SendsOnly (bodyBytesSteps p bs) := by
  induction bs with
  | nil => exact nil
  | cons v bs ih => exact (sendAcked p v false false).append ih

theorem payload (p : Params) (bs : List Byte) : SendsOnly (payloadSteps p bs) := by
  induction bs with
  | nil => exact nil
  | cons v bs ih => exact (sendAcked p v false bs.isEmpty).append ih

theorem startAddressed (p : Params) (c : BitVec 7) (d : Direction) : SendsOnly (startAddressedSteps p c d) :=
  sendAcked p (addrByte c d) true false

theorem addressPhase (p : Params) (c : BitVec 7) (r : BitVec 32) (n : Nat) (d : Direction) :
    SendsOnly (addressWithOffsetSteps p c r n d) := by
  refine ((startAddressed p c .write).append (bodyBytes p _)).append ?_
  cases d with
  | read => exact startAddressed p c .read
  | write => exact nil

end SendsOnly

/-! ## Steps that receive -/

/-- The wait for a byte asked for stands before that byte is read and after those before it are (R165). -/
theorem readByte_waitsStand (busyMade made : List (RegOffset × Byte)) (p : Params) (stop : Bool) (dest : Dest) :
    WaitsStand busyMade made (dataReads made) (readByteSteps p stop dest) := by
  have hends := endsInCommand_append made (CR.readByteCommand stop)
  have hreads : dataReads made = dataReads (made ++ [(.crSr, CR.readByteCommand stop)]) - 1 := by
    rw [dataReads_append, dataReads_readByteCommand, Nat.add_sub_cancel]
  exact ⟨trivial, ⟨hends, hreads⟩, trivial, trivial⟩

theorem dataRead_waitsStand (busyMade made : List (RegOffset × Byte)) (p : Params) (m : Nat) :
    WaitsStand busyMade made (dataReads made) (dataReadSteps p m) := by
  induction m generalizing made with
  | zero => trivial
  | succ m ih =>
    have hread : dataReads made + stepReceives (readByteSteps p (m == 0) .dataBuf) =
        dataReads (made ++ stepWrites (readByteSteps p (m == 0) .dataBuf)) := by
      rw [dataReads_append]
      exact congrArg _ (dataReads_readByteCommand _).symm
    rw [dataReadSteps, waitsStand_append, hread]
    exact ⟨readByte_waitsStand busyMade made p _ _, ih _⟩

/-! ## The steps of an operation -/

/-- The writes an operation has made when it finds the bus busy (R166, R192, R193, R220). -/
def busyWrites (p : Params) (i : Instr) : List (RegOffset × Byte) :=
  if mayBuffer i then [] else operationWrites p i

/-- A block operation waits for the bus first, and never again. -/
theorem waitsStand_awaitNotBusy_first (n : Nat) {l : List SeqStep} (h : WaitsStand [] [] 0 l) :
    WaitsStand [] [] 0 (.awaitNotBusy n :: l) := ⟨⟨⟨.inl rfl, rfl⟩, rfl⟩, h⟩

theorem readBlock_waitsStand (p : Params) (c : BitVec 7) (r : BitVec 32) (n m : Nat) :
    WaitsStand [] [] 0 (readBlockSteps p c r n m) := by
  have haddr := SendsOnly.addressPhase p c r n .read
  have hdata := dataRead_waitsStand [] (stepWrites (addressWithOffsetSteps p c r n .read)) p m
  rw [haddr.noDataReads] at hdata
  refine waitsStand_awaitNotBusy_first _ ((waitsStand_append _ _).2 ⟨haddr.waits rfl, ?_⟩)
  rw [haddr.receives]
  exact hdata

theorem writeBlock_waitsStand (p : Params) (c : BitVec 7) (r : BitVec 32) (n : Nat) (bs : List Byte) :
    WaitsStand [] [] 0 (writeBlockSteps p c r n bs) :=
  waitsStand_awaitNotBusy_first _ (((SendsOnly.addressPhase p c r n .write).append (.payload p bs)).waits rfl)

/-- `resetBus` waits for the bus after its last write. -/
theorem resetBus_waitsStand (p : Params) {made busyMade : List (RegOffset × Byte)} (h : dataReads made = 0)
    (hb : made ++ [(.crSr, 0x28), (.crSr, 0x41)] = busyMade) : WaitsStand busyMade made 0 (resetBusSteps p) := by
  have hends := endsInCommand_append (made ++ [(.crSr, 0x28)]) 0x41
  have hreads : dataReads (made ++ [(.crSr, 0x28)] ++ [(.crSr, 0x41)]) = 0 := by
    rw [List.append_assoc, dataReads_append, h]
    rfl
  have hmade : made ++ [(.crSr, 0x28)] ++ [(.crSr, 0x41)] = busyMade := by rw [List.append_assoc]; exact hb
  exact ⟨trivial, trivial, ⟨⟨hends, (congrArg (· - 1) hreads).symm⟩, hmade⟩, trivial⟩

theorem init_waitsStand (p : Params) (hz : Nat) (a : Byte) :
    WaitsStand (busyWrites p (.initController hz a)) [] 0 (stepsOf p (.initController hz a)) := by
  simp only [stepsOf, busyWrites, mayBuffer, operationWrites]
  cases prescaler p.inputClockHz hz with
  | none => trivial
  | some prer =>
    exact (waitsStand_append _ _).2 ⟨⟨trivial, trivial, trivial, trivial, trivial, trivial⟩,
      resetBus_waitsStand p rfl rfl⟩

/-- The waits of every operation stand where `OperationsWriteTheirListUpToTheFailure` needs them. -/
theorem stepsOf_waitsStand (p : Params) (i : Instr) : WaitsStand (busyWrites p i) [] 0 (stepsOf p i) := by
  cases i with
  | initController hz a => exact init_waitsStand p hz a
  | readBlock c r n m => exact readBlock_waitsStand p c r n m
  | writeBlock c r n bs => exact writeBlock_waitsStand p c r n bs
  | probe c => exact readBlock_waitsStand p c 0 1 1
  | readRegister n =>
    simp only [stepsOf]
    cases offsetOf n with
    | none => trivial
    | some off => exact ⟨trivial, trivial⟩
  | writeRegister n v =>
    simp only [stepsOf]
    cases offsetOf n with
    | none => trivial
    | some off => exact ⟨trivial, trivial⟩
  | sendByte v start stop => exact ⟨trivial, trivial, trivial⟩
  | sendStop => exact ⟨trivial, trivial⟩
  | awaitBusNotBusy n => exact ⟨⟨⟨.inl rfl, rfl⟩, rfl⟩, trivial⟩
  | awaitTransferComplete e n =>
    simp only [stepsOf]
    cases ackOfBits e with
    | none => trivial
    | some e => exact ⟨⟨.inl rfl, rfl⟩, trivial⟩
  | readByte stop => exact readByte_waitsStand _ [] p stop .outByte
  | resetBus => exact resetBus_waitsStand p rfl rfl
  | startAddressed c d => exact (SendsOnly.startAddressed p c d).waits rfl
  | addressWithOffset c r n d => exact (SendsOnly.addressPhase p c r n d).waits rfl
  | selectBus | currentBus | cmdWr | cmdWrStart | cmdWrStop | cmdWrStartStop | cmdRd | cmdRdLast | cmdStop
  | cmdResetRd | cmdIack | addrW | addrR | ctrDisable | ctrEnable => trivial

/-! ## A run that fails -/

/-- What a trace `tr` that ends with the failure `k` shows of an operation with the writes `all`, which has made
`busyMade` of them when it finds the bus busy. -/
def WritesUpTo (all busyMade : List (RegOffset × Byte)) (k : ErrorKind) (tr : List Access) : Prop :=
  ∃ made, made <+: all ∧ EndsInCommand made ∧
    writesOf tr = made ++ (if k = .notAcknowledged then [(.crSr, 0x41)] else []) ∧
    (receivedOf tr).length = dataReads made - 1 ∧ (k = .busy → made = busyMade)

/-- R261, R262: a failure raised before the first access. -/
theorem writesUpTo_nil (all busyMade : List (RegOffset × Byte)) {k : ErrorKind} (hn : k ≠ .notAcknowledged)
    (hb : k ≠ .busy) : WritesUpTo all busyMade k [] :=
  ⟨[], List.nil_prefix, .inl rfl, by simp [hn, writesOf], rfl, fun h => absurd h hb⟩

/-- A step that fails is a wait that stands where it must: nothing is written there but the one stop, nothing is
received. -/
theorem runStep_fails_standing {busyMade made : List (RegOffset × Byte)} {got : Nat} {b : BusId} {m : SeqStep}
    {s t : State} {k : ErrorKind} (hst : StepStands busyMade made got m) (h : runStep b m s = (t, some k)) :
    EndsInCommand made ∧ got = dataReads made - 1 ∧ (k = .busy → made = busyMade) ∧
      ∃ tr, t.history = s.history ++ tr ∧ receivedOf tr = [] ∧
        writesOf tr = if k = .notAcknowledged then [(.crSr, 0x41)] else [] := by
  obtain ⟨⟨tr, hhist, hrec, hwr⟩, rfl | ⟨n, rfl, rfl⟩ | ⟨e, n, rfl, hk⟩⟩ := runStep_fails h
  · exact hst.elim
  · obtain ⟨⟨hends, hgot⟩, hbusy⟩ := hst
    exact ⟨hends, hgot, fun _ => hbusy, tr, hhist, hrec, by simpa using hwr⟩
  · obtain ⟨hends, hgot⟩ := hst
    refine ⟨hends, hgot, fun hb => ?_, tr, hhist, hrec, by simpa using hwr⟩
    subst hb
    simp at hk

/-- R271: the steps before the failing wait are made in full, those after it not at all. -/
theorem runSteps_fails_writesUpTo {busyMade : List (RegOffset × Byte)} {b : BusId} {l : List SeqStep} {s t : State}
    {k : ErrorKind} (hst : WaitsStand busyMade [] 0 l) (h : runSteps b l s = (t, some k)) :
    ∃ tr, t.history = s.history ++ tr ∧ WritesUpTo (stepWrites l) busyMade k tr := by
  obtain ⟨pre, m, post, u, rfl, hpre, hfail⟩ := runSteps_fail h
  obtain ⟨tr, hadds⟩ := runSteps_adds hpre
  obtain ⟨hm, -⟩ := ((waitsStand_append pre (m :: post)).1 hst).2
  rw [List.nil_append, Nat.zero_add] at hm
  obtain ⟨hends, hgot, hbusy, tr', hhist, hrec, hwr⟩ := runStep_fails_standing hm hfail
  refine ⟨tr ++ tr', by rw [hhist, hadds.history, List.append_assoc], stepWrites pre, ?_, hends, ?_, ?_, hbusy⟩
  · rw [stepWrites_append]
    exact List.prefix_append _ _
  · rw [writesOf_append, hadds.writes, hwr]
  · rw [receivedOf_append, hrec, List.append_nil, hadds.receives, hgot]

/-- An operation that runs: all its writes with `Ok`, those up to the failing wait with a failure. -/
theorem finish_runSteps_writes (b : BusId) {i : Instr} (hrow : rowByte i = none) (s : State) :
    ∃ l, (State.finish i (runSteps b (stepsOf s.cfg i) s)).history = s.history ++ l ∧
      ((State.finish i (runSteps b (stepsOf s.cfg i) s)).result = .ok → writesOf l = operationWrites s.cfg i) ∧
      ∀ k, (State.finish i (runSteps b (stepsOf s.cfg i) s)).result = .err k →
        WritesUpTo (operationWrites s.cfg i) (busyWrites s.cfg i) k l := by
  rw [← stepWrites_stepsOf s.cfg hrow]
  rcases hrun : runSteps b (stepsOf s.cfg i) s with ⟨t, _ | k⟩
  · obtain ⟨tr, hadds⟩ := runSteps_adds hrun
    exact ⟨tr, hadds.history, fun _ => hadds.writes, by simp⟩
  · obtain ⟨tr, hhist, hup⟩ := runSteps_fails_writesUpTo (stepsOf_waitsStand s.cfg i) hrun
    refine ⟨tr, by simpa using hhist, by simp, fun k' hk => ?_⟩
    obtain rfl : k = k' := by simpa using hk
    exact hup

/-- Settles O60, by the position of every wait among the steps of its operation (`stepsOf_waitsStand`). -/
theorem operationsWriteTheirListUpToTheFailure : Obligations.OperationsWriteTheirListUpToTheFailure := by
  intro i s t hrow hexec
  obtain ⟨-, hnext⟩ := exec_next hexec
  cases hnext with
  | selected b hi => subst hi; exact ⟨[], by simp, fun _ => rfl, by simp⟩
  | index b hi hb => subst hi; exact ⟨[], by simp, fun _ => rfl, by simp⟩
  | row off v b hr hb => simp [hrow] at hr
  | ran b hb hs hr hl =>
    have hran := finish_runSteps_writes b hrow ((s.latch i).chooseBus i)
    rw [chooseBus_cfg, chooseBus_history, State.latch_cfg, State.latch_history] at hran
    exact hran
  | notSelected | noIndex | badClock =>
    refine ⟨[], by simp, by simp, fun k hk => ?_⟩
    obtain rfl := Result.err.inj ((State.failWith_result ..).symm.trans hk)
    exact writesUpTo_nil _ _ (by simp) (by simp)

end Sys2Proof.Machine
end

section
/-! SUPPORT. The state of the block: reset, the operation one access at a time, what an instruction leaves unchanged,
and what the contents of unspecified registers cannot influence. -/

namespace Sys2Proof.Machine

/-! ## Reset -/

/-- Settles O1: the reset state is written with these values (R52). -/
theorem resetSelectsNoBusAndIsIdle : Obligations.ResetSelectsNoBusAndIsIdle := ⟨rfl, rfl, rfl⟩

/-- Settles O2: the parameters carry their own validity; nothing is selected, buffered or running. -/
theorem resetMeetsTheInvariant : Obligations.ResetMeetsTheInvariant :=
  show MachineInv State.reset from
  { valid := Config.platform.valid
    selector := .inl rfl
    buffer := Nat.zero_le _
    phase := trivial }

/-! ## One register access of an operation in progress -/

@[simp] theorem settle_history (i : Instr) (rest : List SeqStep) (s : State) :
    (s.settle i rest).history = s.history := by
  unfold State.settle
  split <;> simp

@[simp] theorem settle_raise (i : Instr) (k : ErrorKind) (ms : List SeqStep) (s : State) :
    s.settle i (.raise k :: ms) = s.failWith i k := rfl

/-- R43: where the sequencer stands before an access, that access is made, at the base of the bus it is made on. -/
theorem accessOn_history (b : BusId) (i : Instr) {rest : List SeqStep} {s : State} (h : AtAccess s.pollCnt rest) :
    ∃ a, (s.accessOn b i rest).history = s.history ++ [a] ∧ a.base = baseOf s.cfg b := by
  cases rest with
  | nil => exact h.elim
  | cons m ms =>
    cases m with
    | raise k => exact h.elim
    | write off v => exact ⟨.write (baseOf s.cfg b) off v, by simp [State.accessOn], rfl⟩
    | read off d => exact ⟨.read (baseOf s.cfg b) off (s.answer b off), by simp [State.accessOn], rfl⟩
    | awaitNotBusy n =>
      refine ⟨.read (baseOf s.cfg b) .crSr (s.answer b .crSr), ?_, rfl⟩
      simp only [State.accessOn]
      split_ifs <;> simp
    | awaitComplete e n =>
      refine ⟨.read (baseOf s.cfg b) .crSr (s.answer b .crSr), ?_, rfl⟩
      simp only [State.accessOn]
      split_ifs
      · simp
      · simp
      · simp
      · cases ackJudge e (SR.rxack (s.answer b .crSr)) <;> simp

theorem step_run {i : Instr} {rest : List SeqStep} {s : State} {b : BusId} (hp : s.phase = .run i rest)
    (hb : s.activeBus = some (some b)) : step s = .next (s.accessOn b i rest) := by
  simp [step, hp, advance, withActiveBus_ready hb]

/-- Settles O5: the invariant has a bus active and an access next (`accessOn_history`). -/
theorem stepInsideAnOperationIsOneAccess : Obligations.StepInsideAnOperationIsOneAccess := by
  intro s i rest hinv hrun
  obtain ⟨hactive, hat⟩ : s.activeBase ≠ none ∧ AtAccess s.pollCnt rest := by
    simpa [PhaseOk, hrun] using hinv.phase
  obtain ⟨b, hb⟩ := hinv.selector.activeBus hactive
  obtain ⟨a, hhist, hbase⟩ := accessOn_history b i hat
  exact ⟨_, a, step_run hrun hb, hhist, by rw [activeBus_some hb, hbase]⟩

/-! ## Changing `PHASE` alone -/

@[simp] theorem regWrite_setPhase (b : BusId) (off : RegOffset) (v : Byte) (s : State) (p : Phase) :
    (s.setPhase p).regWrite b off v = (s.regWrite b off v).setPhase p := by cases b <;> rfl

@[simp] theorem regRead_setPhase (b : BusId) (off : RegOffset) (s : State) (p : Phase) :
    (s.setPhase p).regRead b off = (s.regRead b off).setPhase p := by cases b <;> rfl

@[simp] theorem deliver_setPhase (s : State) (p : Phase) (d : Dest) (v : Byte) :
    (s.setPhase p).deliver d v = (s.deliver d v).setPhase p := by cases d <;> rfl

@[simp] theorem pollRead_setPhase (b : BusId) (s : State) (p : Phase) :
    (s.setPhase p).pollRead b = (s.pollRead b).setPhase p := by cases b <;> rfl

@[simp] theorem failWith_setPhase (i : Instr) (k : ErrorKind) (s : State) (p : Phase) :
    (s.setPhase p).failWith i k = s.failWith i k := by cases i <;> rfl

@[simp] theorem settle_setPhase (i : Instr) (rest : List SeqStep) (s : State) (p : Phase) :
    (s.setPhase p).settle i rest = s.settle i rest := by
  unfold State.settle
  split
  case h_2 k _ => exact failWith_setPhase i k s p
  case h_3 => exact failWith_setPhase i .busy (s.setPoll 0) p
  case h_5 => exact failWith_setPhase i .timeout (s.setPoll 0) p
  all_goals rfl

/-! ## Runs of as many steps as accesses -/

theorem run_succ_of_next {M : Host.Core} {n : Nat} {s t : M.State} (h : M.step s = .next t) :
    M.run (n + 1) s = M.run n t := by simp [Host.Core.run, h]

/-- R43, D32: as many steps as `t` has accesses more than `s` lead from `s` to `t`. -/
def LeadsTo (s t : State) : Prop :=
  ∃ n, t.history.length = s.history.length + n ∧ Host.Core.run Sys2Proof.core n s = .next t

namespace LeadsTo

theorem refl (s : State) : LeadsTo s s := ⟨0, rfl, rfl⟩

/-- One access of an operation in progress, then the rest. -/
theorem access {b : BusId} {i : Instr} {rest : List SeqStep} (s : State) {t : State}
    (hb : s.activeBus = some (some b)) (hat : AtAccess s.pollCnt rest)
    (h : LeadsTo ((s.setPhase (.run i rest)).accessOn b i rest) t) : LeadsTo (s.setPhase (.run i rest)) t := by
  obtain ⟨n, hlen, hrun⟩ := h
  obtain ⟨a, hhist, -⟩ := accessOn_history (s := s.setPhase (.run i rest)) b i hat
  refine ⟨n + 1, by rw [hlen, hhist, List.length_append, List.length_singleton]; omega, ?_⟩
  have hstep : Sys2Proof.core.step (s.setPhase (.run i rest)) = .next ((s.setPhase (.run i rest)).accessOn b i rest) :=
    step_run (s := s.setPhase (.run i rest)) rfl hb
  exact (run_succ_of_next hstep).trans hrun

theorem run_eq {s t : State} (h : LeadsTo s t) :
    Host.Core.run Sys2Proof.core (t.history.length - s.history.length) s = .next t := by
  obtain ⟨n, hlen, hrun⟩ := h
  rwa [hlen, Nat.add_sub_cancel_left]

end LeadsTo

theorem StepsFrame.activeBus {b : BusId} {s t : State} (h : StepsFrame b s t) : t.activeBus = s.activeBus := by
  simp [State.activeBus, h.activeBase, h.cfg]

/-- R20, R271: the steps `ms` after the outcome of those before them. -/
def andThen (b : BusId) (ms : List SeqStep) : State × Option ErrorKind → State × Option ErrorKind
  | (s, none) => runSteps b ms s
  | (s, some k) => (s, some k)

theorem runSteps_cons (b : BusId) (m : SeqStep) (ms : List SeqStep) (s : State) :
    runSteps b (m :: ms) s = andThen b ms (runStep b m s) := by
  rcases h : runStep b m s with ⟨t, _ | k⟩
  · exact runSteps_cons_ok ms h
  · exact runSteps_cons_err ms h

/-- R167: the sequencer in a wait with `left` status reads left of its budget; with none left the wait has failed. -/
def State.inWait (i : Instr) (k : ErrorKind) (rest : List SeqStep) (left : Nat) (s : State) : State :=
  match left with
  | 0 => s.failWith i k
  | _ + 1 => s.setPhase (.run i rest)

theorem settle_awaitNotBusy (i : Instr) (n : Nat) (ms : List SeqStep) (s : State) :
    s.settle i (.awaitNotBusy n :: ms) = (s.setPoll 0).inWait i .busy (.awaitNotBusy n :: ms) n := by cases n <;> rfl

theorem settle_awaitComplete (i : Instr) (e : AckExpectation) (n : Nat) (ms : List SeqStep) (s : State) :
    s.settle i (.awaitComplete e n :: ms) = (s.setPoll 0).inWait i .timeout (.awaitComplete e n :: ms) n := by
  cases n <;> rfl

/-- The status read that neither ends the wait nor is its last one counts towards the budget. -/
theorem inWait_pollRead (b : BusId) (i : Instr) (k : ErrorKind) (rest : List SeqStep) {n left : Nat} {s : State}
    (hn : s.pollCnt + (left + 1) = n) :
    (if s.pollCnt + 1 < n then (s.pollRead b).setPhase (.run i rest) else (s.pollRead b).failWith i k) =
      (s.pollRead b).inWait i k rest left := by
  cases left with
  | zero => exact if_neg (by omega)
  | succ left => exact if_pos (by omega)

section
variable {b : BusId} {i : Instr} {ms : List SeqStep}
  (hms : ∀ u : State, u.activeBus = some (some b) → LeadsTo (u.settle i ms) (State.finish i (runSteps b ms u)))
include hms

theorem awaitNotBusy_leadsTo {n left : Nat} {s : State} (hb : s.activeBus = some (some b))
    (hn : s.pollCnt + left = n) :
    LeadsTo (s.inWait i .busy (.awaitNotBusy n :: ms) left)
      (State.finish i (andThen b ms (pollNotBusy b left s))) := by
  induction left generalizing s with
  | zero => exact .refl _
  | succ left ih =>
    have hb' : (s.pollRead b).activeBus = some (some b) := (pollRead_frame b s).activeBus.trans hb
    refine .access s hb (show s.pollCnt < n by omega) ?_
    by_cases hbusy : SR.busy (s.answer b .crSr) = true
    · simp only [State.accessOn, answer_setPhase, State.setPhase_pollCnt, pollRead_setPhase, failWith_setPhase,
        hbusy, if_true, pollNotBusy, inWait_pollRead b i .busy _ hn]
      exact ih hb' (by simp; omega)
    · simpa [State.accessOn, hbusy, pollNotBusy, andThen] using hms _ hb'

theorem awaitComplete_leadsTo {e : AckExpectation} {n left : Nat} {s : State} (hb : s.activeBus = some (some b))
    (hn : s.pollCnt + left = n) :
    LeadsTo (s.inWait i .timeout (.awaitComplete e n :: ms) left)
      (State.finish i (andThen b ms (pollComplete b e left s))) := by
  induction left generalizing s with
  | zero => exact .refl _
  | succ left ih =>
    have hb' : (s.pollRead b).activeBus = some (some b) := (pollRead_frame b s).activeBus.trans hb
    refine .access s hb (show s.pollCnt < n by omega) ?_
    by_cases harb : SR.arbLost (s.answer b .crSr) = true
    · simpa [State.accessOn, harb, pollComplete, andThen] using LeadsTo.refl _
    by_cases htip : SR.tip (s.answer b .crSr) = true
    · simp only [State.accessOn, answer_setPhase, State.setPhase_pollCnt, pollRead_setPhase, failWith_setPhase,
        harb, htip, if_true, pollComplete, inWait_pollRead b i .timeout _ hn]
      exact ih hb' (by simp; omega)
    cases hjudge : ackJudge e (SR.rxack (s.answer b .crSr)) with
    | met => simpa [State.accessOn, harb, htip, hjudge, pollComplete, andThen] using hms _ hb'
    | violated =>
      have hstop : LeadsTo ((s.pollRead b).settle i (sendStopSteps ++ [.raise .notAcknowledged]))
          (((s.pollRead b).regWrite b .crSr CR.sendStopCommand).failWith i .notAcknowledged) := by
        refine .access (s.pollRead b) hb' trivial ?_
        simpa [sendStopSteps, State.accessOn] using LeadsTo.refl _
      simpa [State.accessOn, harb, htip, hjudge, pollComplete, andThen] using hstop

end

/-- R20, R43: the steps of an operation made one access at a time end where they end as one step. -/
theorem settle_leadsTo (b : BusId) (i : Instr) (l : List SeqStep) {s : State} (hb : s.activeBus = some (some b)) :
    LeadsTo (s.settle i l) (State.finish i (runSteps b l s)) := by
  induction l generalizing s with
  | nil => exact .refl _
  | cons m ms ih =>
    cases m with
    | raise k => exact .refl _
    | write off v =>
      refine .access s hb trivial ?_
      simpa [State.accessOn] using ih ((regWrite_frame b off v s).activeBus.trans hb)
    | read off d =>
      refine .access s hb trivial ?_
      simpa [State.accessOn, runStep] using ih ((runStep_frame b (.read off d) s).activeBus.trans hb)
    | awaitNotBusy n =>
      rw [settle_awaitNotBusy, runSteps_cons]
      exact awaitNotBusy_leadsTo (fun _ => ih) hb (Nat.zero_add n)
    | awaitComplete e n =>
      rw [settle_awaitComplete, runSteps_cons]
      exact awaitComplete_leadsTo (fun _ => ih) hb (Nat.zero_add n)

@[simp] theorem begun_history (i : Instr) (s : State) : (s.begun i).history = s.history := by simp [State.begun]

theorem stepsOf_of_row {i : Instr} {off : RegOffset} {v : Byte} {p : Params} (hr : rowByte i = some (off, v)) :
    stepsOf p i = [] := by cases i <;> cases hr <;> rfl

/-- Settles O6, by induction over the steps of the operation (`settle_leadsTo`). -/
theorem operationIsItsAccessesOneByOne : Obligations.OperationIsItsAccessesOneByOne := by
  intro i s t hsteps hexec
  obtain ⟨-, hnext⟩ := exec_next hexec
  cases hnext with
  | ran b hb _ _ _ =>
    have hlead : LeadsTo (s.begun i) _ := settle_leadsTo b i (stepsOf s.cfg i) hb
    rw [← begun_history i s]
    exact hlead.run_eq
  | selected _ hi | notSelected _ hi | index _ hi | noIndex hi => subst hi; exact absurd rfl hsteps
  | badClock hz a hi hp => subst hi; exact absurd (by simp [stepsOf, hp]) hsteps
  | row off v b hr => exact absurd (stepsOf_of_row hr) hsteps

end Sys2Proof.Machine
end

section
/-! SUPPORT. What an instruction leaves unchanged: the steps of an operation keep within the registers, outputs and
waits its rules give it (`stepsOf_within`), and so do its accesses. -/

namespace Sys2Proof.Machine

/-! ## The steps an operation holds -/

/-- R32 to R39, R45, R47, R48: a step that the rules let an operation hold. -/
def StepWithin (i : Instr) : SeqStep → Prop
  | .write off _ => mayWrite i off = true
  | .read off .outByte => mayRead i off = true ∧ mayOutByte i = true
  | .read off .dataBuf => mayRead i off = true ∧ mayBuffer i = true
  | .awaitNotBusy _ => mayRead i .crSr = true ∧ mayPoll i = true
  | .awaitComplete _ _ => mayRead i .crSr = true ∧ mayWrite i .crSr = true ∧ mayPoll i = true
  | .raise _ => True

/-- The operations that send bytes and wait for their acknowledge (R190 to R194). -/
structure SendsBytes (i : Instr) : Prop where
  data : mayWrite i .txrRxr = true
  command : mayWrite i .crSr = true
  status : mayRead i .crSr = true
  poll : mayPoll i = true

section
variable {i : Instr} (hi : SendsBytes i) (p : Params)
include hi

theorem SendsBytes.sendAcked (v : Byte) (start stop : Bool) : ∀ m ∈ sendAckedSteps p v start stop, StepWithin i m := by
  simp [sendAckedSteps, sendByteSteps, StepWithin, hi.data, hi.command, hi.status, hi.poll]

theorem SendsBytes.bodyBytes (bs : List Byte) : ∀ m ∈ bodyBytesSteps p bs, StepWithin i m := by
  induction bs with
  | nil => simp [bodyBytesSteps]
  | cons v bs ih => exact List.forall_mem_append.2 ⟨hi.sendAcked p v false false, ih⟩

theorem SendsBytes.payload (bs : List Byte) : ∀ m ∈ payloadSteps p bs, StepWithin i m := by
  induction bs with
  | nil => simp [payloadSteps]
  | cons v bs ih => exact List.forall_mem_append.2 ⟨hi.sendAcked p v false bs.isEmpty, ih⟩

theorem SendsBytes.addressPhase (c : BitVec 7) (r : BitVec 32) (n : Nat) (d : Direction) :
    ∀ m ∈ addressWithOffsetSteps p c r n d, StepWithin i m := by
  refine List.forall_mem_append.2 ⟨List.forall_mem_append.2 ⟨hi.sendAcked p _ true false, hi.bodyBytes p _⟩, ?_⟩
  cases d with
  | read => exact hi.sendAcked p _ true false
  | write => simp

theorem SendsBytes.dataRead (hread : mayRead i .txrRxr = true) (hbuf : mayBuffer i = true) (m : Nat) :
    ∀ x ∈ dataReadSteps p m, StepWithin i x := by
  induction m with
  | zero => simp [dataReadSteps]
  | succ m ih =>
    refine List.forall_mem_append.2 ⟨?_, ih⟩
    simp [readByteSteps, StepWithin, hi.command, hi.status, hi.poll, hread, hbuf]

end

/-- Every step of an operation is one its rules let it hold. -/
theorem stepsOf_within (p : Params) (i : Instr) : ∀ m ∈ stepsOf p i, StepWithin i m := by
  cases i with
  | initController hz a =>
    cases hp : prescaler p.inputClockHz hz <;>
      simp [stepsOf, hp, initSteps, resetBusSteps, sendStopSteps, StepWithin, mayWrite, mayRead, mayPoll]
  | readRegister n => cases ho : offsetOf n <;> simp [stepsOf, ho, readRegisterSteps, StepWithin, mayRead, mayOutByte]
  | writeRegister n v => cases ho : offsetOf n <;> simp [stepsOf, ho, writeRegisterSteps, StepWithin, mayWrite]
  | awaitTransferComplete e n =>
    cases he : ackOfBits e <;> simp [stepsOf, he, StepWithin, mayWrite, mayRead, mayPoll]
  | sendByte v st sp => simp [stepsOf, sendByteSteps, StepWithin, mayWrite]
  | sendStop => simp [stepsOf, sendStopSteps, StepWithin, mayWrite]
  | awaitBusNotBusy n => simp [stepsOf, StepWithin, mayRead, mayPoll]
  | readByte sp => simp [stepsOf, readByteSteps, StepWithin, mayWrite, mayRead, mayPoll, mayOutByte]
  | resetBus => simp [stepsOf, resetBusSteps, sendStopSteps, StepWithin, mayWrite, mayRead, mayPoll]
  | startAddressed c d =>
    have hi : SendsBytes (.startAddressed c d) := ⟨rfl, rfl, rfl, rfl⟩
    exact hi.sendAcked p _ true false
  | addressWithOffset c r n d =>
    have hi : SendsBytes (.addressWithOffset c r n d) := ⟨rfl, rfl, rfl, rfl⟩
    exact hi.addressPhase p c r n d
  | readBlock c r n m =>
    have hi : SendsBytes (.readBlock c r n m) := ⟨rfl, rfl, rfl, rfl⟩
    exact List.forall_mem_append.2
      ⟨List.forall_mem_cons.2 ⟨⟨rfl, rfl⟩, hi.addressPhase p c r n .read⟩, hi.dataRead p rfl rfl m⟩
  | writeBlock c r n bs =>
    have hi : SendsBytes (.writeBlock c r n bs) := ⟨rfl, rfl, rfl, rfl⟩
    exact List.forall_mem_append.2
      ⟨List.forall_mem_cons.2 ⟨⟨rfl, rfl⟩, hi.addressPhase p c r n .write⟩, hi.payload p bs⟩
  | probe c =>
    have hi : SendsBytes (.probe c) := ⟨rfl, rfl, rfl, rfl⟩
    exact List.forall_mem_append.2
      ⟨List.forall_mem_cons.2 ⟨⟨rfl, rfl⟩, hi.addressPhase p c 0 1 .read⟩, hi.dataRead p rfl rfl 1⟩
  | selectBus | currentBus | cmdWr | cmdWrStart | cmdWrStop | cmdWrStartStop | cmdRd | cmdRdLast | cmdStop
  | cmdResetRd | cmdIack | addrW | addrR | ctrDisable | ctrEnable => simp [stepsOf]

/-! ## The outputs and `POLL_CNT` along the steps -/

theorem pollNotBusy_outputs (b : BusId) (n : Nat) (s : State) :
    (pollNotBusy b n s).1.outByte = s.outByte ∧ (pollNotBusy b n s).1.dataBuf = s.dataBuf := by
  rcases pollNotBusy_cases b n s with ⟨_, _, _, h⟩ | ⟨_, h⟩ <;> simp [h]

theorem pollComplete_outputs (b : BusId) (e : AckExpectation) (n : Nat) (s : State) :
    (pollComplete b e n s).1.outByte = s.outByte ∧ (pollComplete b e n s).1.dataBuf = s.dataBuf := by
  rcases pollComplete_cases b e n s with ⟨_, _, _, h⟩ | ⟨_, _, _, _, h⟩ | ⟨_, _, _, _, h⟩ | ⟨_, h⟩ <;> simp [h]

/-- R45, R47, R48: a step within the rules of an operation keeps the outputs and `POLL_CNT` if the operation has no
part in them. -/
theorem runStep_keeps {i : Instr} {m : SeqStep} (hm : StepWithin i m) (b : BusId) (s : State) :
    (mayOutByte i = false → (runStep b m s).1.outByte = s.outByte) ∧
      (mayBuffer i = false → (runStep b m s).1.dataBuf = s.dataBuf) ∧
      (mayPoll i = false → (runStep b m s).1.pollCnt = s.pollCnt) := by
  cases m with
  | write off v => simp [runStep]
  | read off d =>
    cases d with
    | outByte =>
      obtain ⟨-, hout⟩ := hm
      simp [runStep, hout]
    | dataBuf =>
      obtain ⟨-, hbuf⟩ := hm
      simp [runStep, hbuf]
  | awaitNotBusy n =>
    obtain ⟨-, hpoll⟩ := hm
    simp [runStep, hpoll, pollNotBusy_outputs]
  | awaitComplete e n =>
    obtain ⟨-, -, hpoll⟩ := hm
    simp [runStep, hpoll, pollComplete_outputs]
  | raise k => simp [runStep]

/-- What every step keeps, the steps keep. -/
theorem runSteps_keeps {α : Type} (f : State → α) {b : BusId} {l : List SeqStep}
    (h : ∀ m ∈ l, ∀ s, f (runStep b m s).1 = f s) (s : State) : f (runSteps b l s).1 = f s := by
  induction l generalizing s with
  | nil => rfl
  | cons m ms ih =>
    have hfirst := h m (by simp) s
    rcases hm : runStep b m s with ⟨t, _ | k⟩
    · rw [runSteps_cons_ok _ hm, ih fun m' hm' => h m' (by simp [hm'])]
      simpa [hm] using hfirst
    · rw [runSteps_cons_err _ hm]
      simpa [hm] using hfirst

/-! ## The beginning and the end of an operation -/

theorem latch_dataBuf {i : Instr} (hi : mayBuffer i = false) (s : State) : (s.latch i).dataBuf = s.dataBuf := by
  cases i with
  | readBlock | writeBlock | probe => cases hi
  | _ => rfl

theorem chooseBus_activeBase {i : Instr} (hi : mayActivate i = false) (s : State) :
    (s.chooseBus i).activeBase = s.activeBase := by
  cases i with
  | initController => cases hi
  | _ => rfl

@[simp] theorem chooseBus_pollCnt (i : Instr) (s : State) : (s.chooseBus i).pollCnt = s.pollCnt := by
  cases i <;> simp [State.chooseBus]
@[simp] theorem chooseBus_outIndex (i : Instr) (s : State) : (s.chooseBus i).outIndex = s.outIndex := by
  cases i <;> simp [State.chooseBus]
@[simp] theorem chooseBus_outByte (i : Instr) (s : State) : (s.chooseBus i).outByte = s.outByte := by
  cases i <;> simp [State.chooseBus]
@[simp] theorem chooseBus_dataBuf (i : Instr) (s : State) : (s.chooseBus i).dataBuf = s.dataBuf := by
  cases i <;> simp [State.chooseBus]

theorem latchOperands_of_row {i : Instr} {off : RegOffset} {v : Byte} (hr : rowByte i = some (off, v)) (o : Operands) :
    latchOperands o i = o := by cases i <;> cases hr <;> rfl

theorem failWith_outIndex {i : Instr} (hi : i ≠ .currentBus) (k : ErrorKind) (s : State) :
    (s.failWith i k).outIndex = s.outIndex := by
  cases i with
  | currentBus => exact absurd rfl hi
  | _ => rfl

theorem failWith_outByte {i : Instr} (hi : mayOutByte i = false) (k : ErrorKind) (s : State) :
    (s.failWith i k).outByte = s.outByte := by
  cases i with
  | readByte => cases hi
  | _ => rfl

theorem failWith_dataBuf {i : Instr} (hi : mayBuffer i = false) (k : ErrorKind) (s : State) :
    (s.failWith i k).dataBuf = s.dataBuf := by
  cases i with
  | readBlock | writeBlock | probe => cases hi
  | _ => rfl

section
variable (i : Instr) (r : State × Option ErrorKind)

theorem finish_activeBase : (State.finish i r).activeBase = r.1.activeBase := by rcases r with ⟨s, _ | k⟩ <;> simp

theorem finish_operands : (State.finish i r).operands = r.1.operands := by rcases r with ⟨s, _ | k⟩ <;> simp

theorem finish_requests : (State.finish i r).requests = r.1.requests := by rcases r with ⟨s, _ | k⟩ <;> simp

theorem finish_pollCnt : (State.finish i r).pollCnt = r.1.pollCnt := by rcases r with ⟨s, _ | k⟩ <;> simp

variable {i}

theorem finish_outIndex (hi : i ≠ .currentBus) : (State.finish i r).outIndex = r.1.outIndex := by
  rcases r with ⟨s, _ | k⟩ <;> simp [failWith_outIndex hi]

theorem finish_outByte (hi : mayOutByte i = false) : (State.finish i r).outByte = r.1.outByte := by
  rcases r with ⟨s, _ | k⟩ <;> simp [failWith_outByte hi]

theorem finish_dataBuf (hi : mayBuffer i = false) : (State.finish i r).dataBuf = r.1.dataBuf := by
  rcases r with ⟨s, _ | k⟩ <;> simp [failWith_dataBuf hi]

end

/-- Settles O53: an operation's steps are within its rules (`stepsOf_within`), and each step within them keeps the
rest (`runStep_keeps`). -/
theorem frameOfTheSequencerRegisters : Obligations.FrameOfTheSequencerRegisters := by
  intro i s t hexec
  obtain ⟨hidle, hnext⟩ := exec_next hexec
  cases hnext with
  | selected b hi => subst hi; simp +contextual [hidle, mayActivate, latch_dataBuf, rowByte]
  | index b hi => subst hi; simp [hidle, latchOperands, rowByte]
  | noIndex hi =>
    subst hi
    simp +contextual [hidle, latchOperands, failWith_outByte, failWith_dataBuf, rowByte]
  | notSelected _ hi | badClock _ _ hi =>
    subst hi
    simp +contextual [hidle, latch_dataBuf, failWith_outIndex, failWith_outByte, failWith_dataBuf, rowByte]
  | row off v b hr => simp [latchOperands_of_row hr]
  | ran b _ _ hr =>
    have hwithin := stepsOf_within s.cfg i
    have hframe := runSteps_frame b (stepsOf s.cfg i) ((s.latch i).chooseBus i)
    refine ⟨?_, ?_, ?_, ?_, fun hi => ?_, fun hi => ?_, fun hi => ?_, fun hi => ?_, fun hi => ?_, by simp [hr]⟩
    · simp [finish_cfg, hframe.cfg]
    · simp [finish_requests, hframe.requests]
    · rw [finish_phase, hidle]
    · simp [finish_operands, hframe.operands]
    · simp [finish_activeBase, hframe.activeBase, chooseBus_activeBase hi]
    · simp [finish_outIndex _ hi, hframe.outIndex]
    · rw [finish_outByte _ hi, runSteps_keeps State.outByte fun m hm u => (runStep_keeps (hwithin m hm) b u).1 hi]
      simp
    · rw [finish_dataBuf _ hi, runSteps_keeps State.dataBuf fun m hm u => (runStep_keeps (hwithin m hm) b u).2.1 hi]
      simp [latch_dataBuf hi]
    · rw [finish_pollCnt, runSteps_keeps State.pollCnt fun m hm u => (runStep_keeps (hwithin m hm) b u).2.2 hi]
      simp

/-! ## The register blocks -/

/-- R32 to R39: an access of a register that the rules let an instruction access so. -/
def AccessWithin (i : Instr) : Access → Prop
  | .write _ off _ => mayWrite i off = true
  | .read _ off _ => mayRead i off = true

theorem StepWithin.access {i : Instr} {m : SeqStep} {b : BusId} {p : Params} {a : Access} (hm : StepWithin i m)
    (ha : StepAccess b p m a) : AccessWithin i a := by
  cases m with
  | raise k => exact ha.elim
  | write off v => subst ha; exact hm
  | read off d =>
    obtain ⟨v, rfl⟩ := ha
    cases d <;> exact hm.1
  | awaitNotBusy n =>
    obtain ⟨v, rfl⟩ := ha
    exact hm.1
  | awaitComplete e n =>
    obtain ⟨hread, hwrite, -⟩ := hm
    obtain ⟨v, rfl⟩ | ⟨-, rfl⟩ := ha
    · exact hread
    · exact hwrite

theorem mayWrite_of_row {i : Instr} {off : RegOffset} {v : Byte} (hr : rowByte i = some (off, v)) :
    mayWrite i off = true := by cases i <;> cases hr <;> rfl

/-- The register block after the steps of an operation, read off accesses that its steps can make. -/
theorem runSteps_block_accesses (b : BusId) (ms : List SeqStep) (s : State) :
    ∃ l, BlockAfter b l s (runSteps b ms s).1 ∧ ∀ a ∈ l, ∃ m ∈ ms, StepAccess b s.cfg m a := by
  obtain ⟨l, hblock⟩ := runSteps_block b ms s
  obtain ⟨l', hhist, hacc⟩ := runSteps_accesses b ms s
  obtain rfl : l = l' := List.append_cancel_left (hblock.history.symm.trans hhist)
  exact ⟨l, hblock, hacc⟩

/-- What an instruction does to the register blocks: nothing, with no access, or accesses of the active block,
within its rules. -/
theorem exec_blocks {i : Instr} {s t : State} (h : exec i s = .next t) :
    (t.history = s.history ∧ ∀ b, t.ctl b = s.ctl b) ∨
      ∃ b l, t.activeBase = some (baseOf s.cfg b) ∧ (∀ b', b' ≠ b → t.ctl b' = s.ctl b') ∧ BlockAfter b l s t ∧
        ∀ a ∈ l, AccessWithin i a := by
  obtain ⟨-, hnext⟩ := exec_next h
  cases hnext with
  | selected | notSelected | index | noIndex | badClock => exact .inl ⟨by simp, by simp⟩
  | row off v b hr hb =>
    refine .inr ⟨b, _, by simp [activeBus_some hb], fun b' hb' => State.regWrite_ctl_ne hb' off v s,
      regWrite_block b off v s, ?_⟩
    simpa [AccessWithin] using mayWrite_of_row hr
  | ran b hb =>
    have hframe := runSteps_frame b (stepsOf s.cfg i) ((s.latch i).chooseBus i)
    obtain ⟨l, hblock, hacc⟩ := runSteps_block_accesses b (stepsOf s.cfg i) ((s.latch i).chooseBus i)
    refine .inr ⟨b, l, ?_, fun b' hb' => ?_, ?_, fun a ha => ?_⟩
    · simpa [finish_activeBase, hframe.activeBase] using activeBus_some hb
    · simp [finish_ctl, hframe.other b' hb']
    · have hbefore : BlockAfter b [] s ((s.latch i).chooseBus i) := .of_eq (by simp) (by simp)
      simpa using (hbefore.trans hblock).trans (.of_eq (finish_history i _) (finish_ctl i _ b))
    · obtain ⟨m, hm, hstep⟩ := hacc a ha
      exact (stepsOf_within s.cfg i m hm).access hstep

/-- Registers that no access of a trace reaches keep their contents. -/
theorem BlockAfter.frame {b : BusId} {l : List Access} {s t : State} {i : Instr} (h : BlockAfter b l s t)
    (hl : ∀ a ∈ l, AccessWithin i a) :
    (∀ off, mayWrite i off = false → writeSide (t.ctl b) off = writeSide (s.ctl b) off) ∧
      (mayRead i .txrRxr = false → (t.ctl b).rxr = (s.ctl b).rxr) ∧
      (mayRead i .crSr = false → (t.ctl b).sr = (s.ctl b).sr) := by
  have hread : ∀ off, mayRead i off = false → ∀ base v, Access.read base off v ∉ l := fun off hoff base v hmem =>
    Bool.false_ne_true (hoff.symm.trans (hl _ hmem))
  refine ⟨fun off hoff => ?_, fun hoff => ?_, fun hoff => ?_⟩
  · rw [h.write, lastWritten_of_not_mem]
    exact fun base v hmem => Bool.false_ne_true (hoff.symm.trans (hl _ hmem))
  · rw [h.rxr, lastRead_of_not_mem _ _ _ (hread _ hoff)]
  · rw [h.sr, lastRead_of_not_mem _ _ _ (hread _ hoff)]

/-- Settles O54, from the accesses of the active block (`exec_blocks`). -/
theorem frameOfTheRegisterBlocks : Obligations.FrameOfTheRegisterBlocks := by
  intro i s t b' hexec
  rcases exec_blocks hexec with ⟨-, hctl⟩ | ⟨b, l, hactive, hother, hblock, hacc⟩
  · simp [hctl]
  by_cases hb : b' = b
  · subst hb
    exact ⟨fun hne => absurd hactive hne, hblock.frame hacc⟩
  · simp [hother b' hb]

end Sys2Proof.Machine
end

section
/-! SUPPORT. What the contents of unspecified registers cannot influence: two states that agree on the rest are answered
alike, so an operation takes the same way in both. -/

namespace Sys2Proof.Machine

/-! ## When `exec` answers a next state -/

theorem wellFormed_of_exec_next {i : Instr} {s t : State} (h : exec i s = .next t) : wellFormed i = true := by
  cases i with
  | awaitTransferComplete e n =>
    rw [wellFormed, ack_ne_three_eq]
    cases he : ackOfBits e with
    | some e' => rfl
    | none => simp [exec, execAwaitTransferComplete, he] at h
  | readRegister n =>
    rw [wellFormed, offsetAssigned_eq]
    cases ho : offsetOf n with
    | some off => rfl
    | none => simp [exec, execReadRegister, ho] at h
  | writeRegister n v =>
    rw [wellFormed, offsetAssigned_eq]
    cases ho : offsetOf n with
    | some off => rfl
    | none => simp [exec, execWriteRegister, ho] at h
  | readBlock c r n m =>
    by_contra hn
    simp [exec, execReadBlock, show 4 < n by simpa [wellFormed, addressLengthOk] using hn] at h
  | writeBlock c r n bs =>
    by_contra hn
    simp [exec, execWriteBlock, show 4 < n by simpa [wellFormed, addressLengthOk] using hn] at h
  | addressWithOffset c r n d =>
    by_contra hn
    simp [exec, execAddressWithOffset, show 4 < n by simpa [wellFormed, addressLengthOk] using hn] at h
  | _ => rfl

theorem exec_row {i : Instr} {off : RegOffset} {v : Byte} (hr : rowByte i = some (off, v)) (s : State) :
    exec i s = writeByteRow off v s := by
  cases i with
  | addrW c => cases hr; rw [← addrByte_write]; rfl
  | addrR c => cases hr; rw [← addrByte_read]; rfl
  | cmdWr | cmdWrStart | cmdWrStop | cmdWrStartStop | cmdRd | cmdRdLast | cmdStop | cmdResetRd | cmdIack
  | ctrDisable | ctrEnable => cases hr; rfl
  | _ => cases hr

/-- R22, R123: an operation with register accesses whose operands pass the checks runs its steps. -/
theorem exec_operation {i : Instr} {s : State} (hidle : s.phase = .idle) (hsteps : stepsOf s.cfg i ≠ [])
    (hwf : wellFormed i = true) (hlen : blockLength i ≤ s.cfg.maxBlock) :
    exec i s = runOnActive i (stepsOf s.cfg i) ((s.latch i).chooseBus i) := by
  have hperform : perform i (stepsOf s.cfg i) s = runOnActive i (stepsOf s.cfg i) (s.latch i) := whenIdle_idle hidle _
  cases i with
  | initController hz a =>
    cases hp : prescaler s.cfg.inputClockHz hz with
    | none => exact absurd (by simp [stepsOf, hp]) hsteps
    | some prer => simp [exec, execInitController, whenIdle_idle hidle, hp, stepsOf, State.chooseBus]
  | readRegister n =>
    cases ho : offsetOf n with
    | none => exact absurd (by simp [stepsOf, ho]) hsteps
    | some off => simpa [exec, execReadRegister, ho, stepsOf, State.chooseBus] using hperform
  | writeRegister n v =>
    cases ho : offsetOf n with
    | none => exact absurd (by simp [stepsOf, ho]) hsteps
    | some off => simpa [exec, execWriteRegister, ho, stepsOf, State.chooseBus] using hperform
  | awaitTransferComplete e n =>
    cases he : ackOfBits e with
    | none => exact absurd (by simp [stepsOf, he]) hsteps
    | some e' => simpa [exec, execAwaitTransferComplete, he, stepsOf, State.chooseBus] using hperform
  | readBlock c r n m =>
    have hn : n ≤ 4 := by simpa [wellFormed, addressLengthOk] using hwf
    exact (if_neg (Nat.not_lt.2 hn)).trans ((if_neg (Nat.not_lt.2 hlen)).trans hperform)
  | writeBlock c r n bs =>
    have hn : n ≤ 4 := by simpa [wellFormed, addressLengthOk] using hwf
    exact (if_neg (Nat.not_lt.2 hn)).trans ((if_neg (Nat.not_lt.2 hlen)).trans hperform)
  | addressWithOffset c r n d =>
    have hn : n ≤ 4 := by simpa [wellFormed, addressLengthOk] using hwf
    exact (if_neg (Nat.not_lt.2 hn)).trans hperform
  | probe | sendByte | sendStop | awaitBusNotBusy | readByte | resetBus | startAddressed => exact hperform
  | selectBus | currentBus | cmdWr | cmdWrStart | cmdWrStop | cmdWrStartStop | cmdRd | cmdRdLast | cmdStop
  | cmdResetRd | cmdIack | addrW | addrR | ctrDisable | ctrEnable => exact absurd rfl hsteps

/-- The converse of `exec_next`: each of its shapes is the answer, for well-formed operands. -/
theorem exec_of_execNext {i : Instr} {s t : State} (hidle : s.phase = .idle) (hwf : wellFormed i = true)
    (h : ExecNext i s t) : exec i s = .next t := by
  cases h with
  | selected b hi =>
    subst hi
    simp [exec, execSelectBus, whenIdle_idle hidle, busOfIndex_eq_some.2 (rfl : busIndexOf b = _)]
  | notSelected n hi hn =>
    subst hi
    simp [exec, execSelectBus, whenIdle_idle hidle, busOfIndex_eq_none.2 hn]
  | index b hi hb =>
    subst hi
    simp [exec, execCurrentBus, whenIdle_idle hidle, hb]
  | noIndex hi hb =>
    subst hi
    rcases hact : s.activeBus with _ | _ | b
    · simp [exec, execCurrentBus, whenIdle_idle hidle, hact]
    · simp [exec, execCurrentBus, whenIdle_idle hidle, hact]
    · exact absurd hact (hb b)
  | badClock hz a hi hp =>
    subst hi
    simp [exec, execInitController, whenIdle_idle hidle, hp]
  | row off v b hr hb =>
    rw [exec_row hr, writeByteRow, whenIdle_idle hidle, withActiveBus_ready hb]
  | ran b hb hs hr hl =>
    rw [exec_operation hidle hs hwf hl, runOnActive, withActiveBus_ready hb]

/-! ## Steps that are answered alike -/

/-- Two outcomes of the same steps that have been answered alike. -/
structure RunsAlike (b : BusId) (r r' : State × Option ErrorKind) : Prop where
  answers : SameAnswers b r.1 r'.1
  failure : r'.2 = r.2

theorem pollNotBusy_alike {b : BusId} {s s' : State} (h : SameAnswers b s s') (n : Nat) :
    RunsAlike b (pollNotBusy b n s) (pollNotBusy b n s') := by
  rcases pollNotBusy_cases b n s with ⟨k, hk, hend, he⟩ | ⟨hbusy, he⟩
  · rw [he, pollNotBusy_of_notBusyAt hk ((h.notBusyAt k).2 hend)]
    exact ⟨h.afterPolls _, rfl⟩
  · rw [he, pollNotBusy_of_stillBusy ((h.stillBusy n).2 hbusy)]
    exact ⟨h.afterPolls _, rfl⟩

theorem pollComplete_alike {b : BusId} {s s' : State} (h : SameAnswers b s s') (e : AckExpectation) (n : Nat) :
    RunsAlike b (pollComplete b e n s) (pollComplete b e n s') := by
  rcases pollComplete_cases b e n s with ⟨k, hk, hend, he⟩ | ⟨k, hk, hend, hj, he⟩ | ⟨k, hk, hend, hj, he⟩ |
    ⟨hstill, he⟩
  · rw [he, pollComplete_of_arbLost hk ((h.arbLostAt k).2 hend)]
    exact ⟨h.afterPolls _, rfl⟩
  · rw [he, pollComplete_of_met hk ((h.completeAt k).2 hend) (by rw [h.statusAnswer, hj])]
    exact ⟨h.afterPolls _, rfl⟩
  · rw [he, pollComplete_of_violated hk ((h.completeAt k).2 hend) (by rw [h.statusAnswer, hj])]
    exact ⟨(h.afterPolls _).regWrite _ _, rfl⟩
  · rw [he, pollComplete_of_stillTransferring ((h.stillTransferring n).2 hstill)]
    exact ⟨h.afterPolls _, rfl⟩

theorem SameAnswers.deliver {b : BusId} {s s' : State} (h : SameAnswers b s s') (d : Dest) (v v' : Byte) :
    SameAnswers b (s.deliver d v) (s'.deliver d v') :=
  ⟨by simpa using h.cfg, by simpa using h.env, by simpa using h.history⟩

theorem runStep_alike {b : BusId} {s s' : State} (h : SameAnswers b s s') (m : SeqStep) :
    RunsAlike b (runStep b m s) (runStep b m s') := by
  cases m with
  | write off v => exact ⟨h.regWrite off v, rfl⟩
  | read off d => exact ⟨(h.regRead off).deliver d _ _, rfl⟩
  | awaitNotBusy n => exact pollNotBusy_alike (h.setPoll 0 0) n
  | awaitComplete e n => exact pollComplete_alike (h.setPoll 0 0) e n
  | raise k => exact ⟨h, rfl⟩

theorem runSteps_alike {b : BusId} {s s' : State} (h : SameAnswers b s s') (l : List SeqStep) :
    RunsAlike b (runSteps b l s) (runSteps b l s') := by
  induction l generalizing s s' with
  | nil => exact ⟨h, rfl⟩
  | cons m ms ih =>
    have hstep := runStep_alike h m
    rw [runSteps_cons, runSteps_cons]
    generalize runStep b m s = r at hstep
    generalize runStep b m s' = r' at hstep
    rcases r with ⟨t, _ | k⟩ <;> rcases r' with ⟨t', o⟩ <;> obtain ⟨hans, rfl⟩ := hstep
    · exact ih hans
    · exact ⟨hans, rfl⟩

/-! ## What an operation delivers is in its trace -/

theorem stepsOf_outByte_last {p : Params} {i : Instr} (hi : mayOutByte i = true) (hs : stepsOf p i ≠ []) :
    ∃ l off, stepsOf p i = l ++ [.read off .outByte] := by
  cases i with
  | readRegister n =>
    cases ho : offsetOf n with
    | none => exact absurd (by simp [stepsOf, ho]) hs
    | some off => exact ⟨[], off, by simp [stepsOf, ho, readRegisterSteps]⟩
  | readByte sp => exact ⟨[_, _], .txrRxr, rfl⟩
  | _ => cases hi

/-- R165, R150: the byte delivered in `OUT_BYTE` is the one read last. -/
theorem runSteps_outByte_last {b : BusId} {l : List SeqStep} {off : RegOffset} {s t : State}
    (h : runSteps b (l ++ [.read off .outByte]) s = (t, none)) :
    ∃ tr base, t.history = tr ++ [.read base off t.outByte] := by
  rw [runSteps_append] at h
  rcases hl : runSteps b l s with ⟨u, _ | k⟩ <;> rw [hl] at h <;> cases h
  exact ⟨u.history, baseOf u.cfg b, by simp⟩

theorem readsToBuffer_payload (p : Params) (bs : List Byte) : ReadsToBuffer (payloadSteps p bs) := by
  induction bs with
  | nil => trivial
  | cons v bs ih => exact (readsToBuffer_append _ _).2 ⟨readsToBuffer_sendAcked p v false bs.isEmpty, ih⟩

theorem stepsOf_readsToBuffer (p : Params) {i : Instr} (hi : mayBuffer i = true) : ReadsToBuffer (stepsOf p i) := by
  cases i with
  | readBlock c r n m =>
    exact (readsToBuffer_append _ _).2 ⟨(addressPhase_run p c r n .read).2.2, (dataRead_run p m).2.2⟩
  | writeBlock c r n bs =>
    exact (readsToBuffer_append _ _).2 ⟨(addressPhase_run p c r n .write).2.2, readsToBuffer_payload p bs⟩
  | probe c => exact (readsToBuffer_append _ _).2 ⟨(addressPhase_run p c 0 1 .read).2.2, (dataRead_run p 1).2.2⟩
  | _ => cases hi

/-- R47: what `DATA_BUF` holds as an operation that uses it begins is the operation's own. -/
theorem latch_dataBuf_eq {i : Instr} (hi : mayBuffer i = true) (s s' : State) :
    (s'.latch i).dataBuf = (s.latch i).dataBuf := by
  cases i with
  | readBlock | writeBlock | probe => rfl
  | _ => cases hi

/-! ## States that agree but for what reset leaves unspecified -/

namespace SameButUnspecified

variable {s s' t t' : State}

theorem env (h : SameButUnspecified s s') (b : BusId) : (s'.ctl b).env = (s.ctl b).env := by
  cases b with
  | bus0 => exact h.env0
  | bus1 => exact h.env1

theorem sameAnswers (h : SameButUnspecified s s') (b : BusId) : SameAnswers b s s' := ⟨h.cfg, h.env b, h.history⟩

theorem activeBus (h : SameButUnspecified s s') : s'.activeBus = s.activeBus := by
  simp [State.activeBus, h.activeBase, h.cfg]

/-- What steps on bus `b` keep they keep in both states, so only the answers of `b` are to be compared. -/
theorem steps {b : BusId} (h : SameButUnspecified s s') (ht : StepsFrame b s t) (ht' : StepsFrame b s' t')
    (ha : SameAnswers b t t') : SameButUnspecified t t' := by
  have henv : ∀ b', (t'.ctl b').env = (t.ctl b').env := fun b' => by
    by_cases hb : b' = b
    · subst hb; exact ha.env
    · rw [ht.other b' hb, ht'.other b' hb, h.env]
  exact ⟨ha.cfg, henv .bus0, henv .bus1, by rw [ht.activeBase, ht'.activeBase, h.activeBase],
    by rw [ht.phase, ht'.phase, h.phase], by rw [ht.requests, ht'.requests, h.requests], ha.history⟩

theorem regWrite (h : SameButUnspecified s s') (b : BusId) (off : RegOffset) (v : Byte) :
    SameButUnspecified (s.regWrite b off v) (s'.regWrite b off v) :=
  h.steps (regWrite_frame b off v s) (regWrite_frame b off v s') ((h.sameAnswers b).regWrite off v)

theorem latch (h : SameButUnspecified s s') (i : Instr) : SameButUnspecified (s.latch i) (s'.latch i) :=
  ⟨by simpa using h.cfg, by simpa using h.env0, by simpa using h.env1, by simpa using h.activeBase,
    by simpa using h.phase, by simpa using h.requests, by simpa using h.history⟩

theorem setActive (h : SameButUnspecified s s') (b : BusId) : SameButUnspecified (s.setActive b) (s'.setActive b) :=
  ⟨h.cfg, h.env0, h.env1, by simp [h.cfg], h.phase, h.requests, h.history⟩

theorem setOutIndex (h : SameButUnspecified s s') (n : Nat) :
    SameButUnspecified (s.setOutIndex n) (s'.setOutIndex n) :=
  ⟨h.cfg, h.env0, h.env1, h.activeBase, h.phase, h.requests, h.history⟩

theorem succeed (h : SameButUnspecified s s') : SameButUnspecified s.succeed s'.succeed :=
  ⟨h.cfg, h.env0, h.env1, h.activeBase, rfl, h.requests, h.history⟩

theorem failWith (h : SameButUnspecified s s') (i : Instr) (k : ErrorKind) :
    SameButUnspecified (s.failWith i k) (s'.failWith i k) :=
  ⟨by simpa using h.cfg, by simpa using h.env0, by simpa using h.env1, by simpa using h.activeBase, by simp,
    by simpa using h.requests, by simpa using h.history⟩

theorem chooseBus (h : SameButUnspecified s s') (i : Instr) :
    SameButUnspecified (s.chooseBus i) (s'.chooseBus i) := by
  cases i with
  | initController hz a =>
    simp only [State.chooseBus, State.resolveBus, h.activeBase]
    cases s.activeBase with
    | none => exact h.setActive defaultBus
    | some base => exact h
  | _ => exact h

theorem finish {r r' : State × Option ErrorKind} (h : SameButUnspecified r.1 r'.1) (hf : r'.2 = r.2) (i : Instr) :
    SameButUnspecified (State.finish i r) (State.finish i r') := by
  rcases r with ⟨u, _ | k⟩ <;> rcases r' with ⟨u', o⟩ <;> obtain rfl := hf
  · exact h.succeed
  · exact h.failWith i k

end SameButUnspecified

theorem finish_result_congr (i : Instr) {r r' : State × Option ErrorKind} (hf : r'.2 = r.2) :
    (State.finish i r').result = (State.finish i r).result := by
  rcases r with ⟨u, _ | k⟩ <;> rcases r' with ⟨u', o⟩ <;> obtain rfl := hf <;> simp

/-- R52: an operation that ends without a failure has delivered the same in both states, since its trace is the same. -/
theorem finish_outputs_alike {b : BusId} {i : Instr} {s s' : State} {p : Params} (h : SameAnswers b s s')
    (hok : (State.finish i (runSteps b (stepsOf p i) s)).result = .ok) :
    (stepsOf p i ≠ [] → mayOutByte i = true → (State.finish i (runSteps b (stepsOf p i) s')).outByte =
        (State.finish i (runSteps b (stepsOf p i) s)).outByte) ∧
      (mayBuffer i = true → s'.dataBuf = s.dataBuf → (State.finish i (runSteps b (stepsOf p i) s')).dataBuf =
        (State.finish i (runSteps b (stepsOf p i) s)).dataBuf) := by
  obtain ⟨hans, hfail⟩ := runSteps_alike h (stepsOf p i)
  rw [finish_result_ok_iff] at hok
  obtain ⟨t, ht⟩ : ∃ t, runSteps b (stepsOf p i) s = (t, none) := ⟨_, Prod.ext rfl hok⟩
  obtain ⟨t', ht'⟩ : ∃ t', runSteps b (stepsOf p i) s' = (t', none) := ⟨_, Prod.ext rfl (hfail.trans hok)⟩
  have hhist : t'.history = t.history := by simpa [ht, ht'] using hans.history
  simp only [ht, ht', finish_ok, State.succeed_outByte, State.succeed_dataBuf]
  refine ⟨fun hs hi => ?_, fun hi hbuf => ?_⟩
  · obtain ⟨l, off, hl⟩ := stepsOf_outByte_last hi hs
    rw [hl] at ht ht'
    obtain ⟨tr, base, htr⟩ := runSteps_outByte_last ht
    obtain ⟨tr', base', htr'⟩ := runSteps_outByte_last ht'
    rw [htr, htr'] at hhist
    obtain ⟨-, hlast⟩ := List.append_inj' hhist rfl
    obtain ⟨-, hbyte⟩ : base' = base ∧ t'.outByte = t.outByte := by simpa using hlast
    exact hbyte
  · obtain ⟨tr, htr⟩ := runSteps_adds ht
    obtain ⟨tr', htr'⟩ := runSteps_adds ht'
    obtain rfl : tr' = tr := by simpa [htr.history, htr'.history, h.history] using hhist
    have hreads := stepsOf_readsToBuffer p hi
    rw [htr.dataBuf hreads, htr'.dataBuf hreads, hbuf]

/-- Settles O58: the answers decide the way an operation takes (`runSteps_alike`), and they are the same. -/
theorem unspecifiedResetValuesDoNotMatter : Obligations.UnspecifiedResetValuesDoNotMatter := by
  intro i s s' t h hexec
  obtain ⟨hidle, hnext⟩ := exec_next hexec
  have answer {u : State} : ExecNext i s' u → exec i s' = .next u :=
    exec_of_execNext (h.phase.trans hidle) (wellFormed_of_exec_next hexec)
  cases hnext with
  | selected b hi =>
    refine ⟨_, answer (.selected b hi), ((h.latch i).setActive b).succeed, by simp, ?_⟩
    subst hi
    simp [mayOutByte, mayBuffer]
  | notSelected n hi hn => exact ⟨_, answer (.notSelected n hi hn), (h.latch i).failWith i _, by simp, by simp⟩
  | index b hi hb =>
    refine ⟨_, answer (.index b hi (h.activeBus.trans hb)), (h.setOutIndex _).succeed, by simp, ?_⟩
    subst hi
    simp [mayOutByte, mayBuffer]
  | noIndex hi hb =>
    exact ⟨_, answer (.noIndex hi fun b => h.activeBus ▸ hb b), h.failWith i _, by simp, by simp⟩
  | badClock hz a hi hp =>
    exact ⟨_, answer (.badClock hz a hi (by rw [h.cfg, hp])), (h.latch i).failWith i _, by simp, by simp⟩
  | row off v b hr hb =>
    exact ⟨_, answer (.row off v b hr (h.activeBus.trans hb)), h.regWrite b off v, by simp [hr], by simp [hr]⟩
  | ran b hb hs hr hl =>
    have hstart := (h.latch i).chooseBus i
    have halike := runSteps_alike (hstart.sameAnswers b) (stepsOf s.cfg i)
    have hrun := answer (.ran b (hstart.activeBus.trans hb) (by rwa [h.cfg]) hr (by rwa [h.cfg]))
    rw [h.cfg] at hrun
    have hframe (u : State) := runSteps_frame b (stepsOf s.cfg i) u
    refine ⟨_, hrun, (hstart.steps (hframe _) (hframe _) halike.answers).finish halike.failure i,
      fun _ => finish_result_congr i halike.failure, fun _ hok => ?_⟩
    obtain ⟨hbyte, hbuf⟩ := finish_outputs_alike (hstart.sameAnswers b) hok
    refine ⟨fun hi => ?_, hbyte hs, fun hi => hbuf hi (by simpa using latch_dataBuf_eq hi s s')⟩
    subst hi
    exact absurd rfl hs

end Sys2Proof.Machine
end

section
/-! SUPPORT. The address space of the registers, and the address byte sent on the bus (spec/20_memory.md). -/

namespace Sys2Proof.Machine

/-! ## The address byte -/

/-- The address byte is the chip address followed by the direction bit (R77). -/
theorem addrByte_eq_append (c : BitVec 7) (d : Direction) : addrByte c d = c ++ directionBit d := by
  cases d with
  | write => exact addrByte_write c
  | read => exact addrByte_read c

/-- Settles O12: the two parts of the appended bit vector (`addrByte_eq_append`). -/
theorem addressByteHoldsChipAndDirection : Obligations.AddressByteHoldsChipAndDirection := by
  intro c d
  rw [addrByte_eq_append]
  refine ⟨BitVec.extractLsb'_append_eq_left, ?_⟩
  rw [BitVec.getLsbD_append, if_pos Nat.one_pos]
  cases d <;> decide

/-! ## Offsets and effective addresses -/

/-- `offsetOf` and `offsetNat` are inverse to each other (R31, R40). -/
theorem offsetOf_eq_some_iff {n : Nat} {off : RegOffset} : offsetOf n = some off ↔ n = offsetNat off := by
  constructor
  · intro h
    unfold offsetOf at h
    split at h <;> cases h <;> rfl
  · rintro rfl
    cases off <;> rfl

theorem offsetNat_lt_window (off : RegOffset) : offsetNat off < 8 := by cases off <;> decide

/-- In a window that exists an effective address does not wrap (R71). -/
theorem effectiveAddr_toNat {base : Addr} (h : base.toNat + 8 ≤ 2 ^ 32) (off : RegOffset) :
    (effectiveAddr base off).toNat = base.toNat + offsetNat off := by
  have hoff := offsetNat_lt_window off
  rw [effectiveAddr, BitVec.toNat_add, BitVec.toNat_ofNat]
  omega

/-- The registers of one block, as `locate` looks for them (R70). -/
theorem offsetOf_sub_eq_some_iff {a base : Addr} {off : RegOffset} :
    offsetOf (a - base).toNat = some off ↔ a = effectiveAddr base off := by
  have hoff := offsetNat_lt_window off
  rw [offsetOf_eq_some_iff, BitVec.toNat_eq_nat, BitVec.sub_eq_iff_eq_add, BitVec.add_comm, effectiveAddr]
  exact and_iff_right (by omega)

/-- The two windows do not overlap (R9), so they share no register. -/
theorem effectiveAddr_base0_ne_base1 {p : Params} (h : p.Valid) (off off' : RegOffset) :
    effectiveAddr p.base0 off ≠ effectiveAddr p.base1 off' := by
  obtain ⟨h0, h1, hdisjoint, -⟩ := h
  intro heq
  have hnat := congrArg BitVec.toNat heq
  rw [effectiveAddr_toNat h0, effectiveAddr_toNat h1] at hnat
  have hoff := offsetNat_lt_window off
  have hoff' := offsetNat_lt_window off'
  omega

/-! ## Which register an address holds -/

/-- The second block is searched only where the first has no register. -/
theorem locate_eq_some_iff {p : Params} {a : Addr} {b : BusId} {off : RegOffset} :
    locate p a = some (b, off) ↔
      offsetOf (a - baseOf p b).toNat = some off ∧ (b = .bus1 → offsetOf (a - p.base0).toNat = none) := by
  unfold locate
  cases b <;> simp only [baseOf] <;> cases offsetOf (a - p.base0).toNat with
  | some off0 => simp
  | none => cases offsetOf (a - p.base1).toNat <;> simp

/-- Settles O15: where the second block has a register the first has none (`effectiveAddr_base0_ne_base1`), so the
order in which `locate` searches the blocks does not matter. -/
theorem registerAddressesAreUnambiguous : Obligations.RegisterAddressesAreUnambiguous := by
  intro p a b off hvalid
  rw [locate_eq_some_iff, offsetOf_sub_eq_some_iff]
  refine and_iff_left_of_imp ?_
  rintro ha rfl
  refine Option.eq_none_iff_forall_ne_some.mpr fun off' hoff' => ?_
  exact effectiveAddr_base0_ne_base1 hvalid off' off ((offsetOf_sub_eq_some_iff.mp hoff').symm.trans ha)

end Sys2Proof.Machine
end

section
/-! SUPPORT. The encodings of spec/30_encoding.md: the round trips of the decoder and the words it accepts, the
register-address bytes, the bits of the status and control registers, the two bytes of the prescaler. -/

namespace Sys2Proof.Machine

/-! ## The one-bit operands -/

@[simp] theorem flagOfBit_flagBit (b : Bool) : flagOfBit (flagBit b) = b := by cases b <;> rfl

@[simp] theorem directionOfBit_directionBit (d : Direction) : directionOfBit (directionBit d) = d := by
  cases d <;> rfl

/-! ## The address byte -/

theorem decodeAddr_append (c : BitVec 7) (d : Direction) :
    decodeAddr (c ++ directionBit d) = .ok (match d with | .write => .addrW c | .read => .addrR c) := by
  have hchip : (c ++ directionBit d).extractLsb' 1 7 = c := BitVec.extractLsb'_append_eq_left
  have hbit : (c ++ directionBit d).getLsbD 0 = (directionBit d).getLsbD 0 := by
    rw [BitVec.getLsbD_append, if_pos Nat.one_pos]
  rw [decodeAddr, hchip, hbit]
  cases d <;> rfl

/-- R105: bits 7 to 1 and bit 0 are the whole byte. -/
theorem extractLsb'_append_ofBool (v : Byte) : v.extractLsb' 1 7 ++ BitVec.ofBool (v.getLsbD 0) = v := by
  refine BitVec.eq_of_getLsbD_eq fun k hk => ?_
  rw [BitVec.getLsbD_append]
  cases k with
  | zero => simp
  | succ k => simp [Nat.add_comm 1 k, show k < 7 by omega]

/-! ## The round trips -/

/-- Settles O8: the operands the encoder places are the ones the decoder takes; those of one bit and the chip address
need their own round trips. -/
theorem decodeOfEncodeIsTheInstruction : Obligations.DecodeOfEncodeIsTheInstruction := by
  intro i
  cases i with
  | addrW c => exact decodeAddr_append c .write
  | addrR c => exact decodeAddr_append c .read
  | sendByte | readByte | startAddressed | addressWithOffset => simp [encode, decode, decodeReq]
  | _ => rfl

theorem encode_of_decodeCr {v : Byte} {i : Instr} (h : decodeCr v = .ok i) : encode i = .cr v := by
  have byte {w : Byte} (hw : v.toNat = w.toNat) : Encoded.cr w = .cr v :=
    congrArg _ (BitVec.eq_of_toNat_eq hw.symm)
  unfold decodeCr at h
  split at h <;> cases h <;> exact byte ‹_›

theorem encode_of_decodeCtr {v : Byte} {i : Instr} (h : decodeCtr v = .ok i) : encode i = .ctr v := by
  have byte {w : Byte} (hw : v.toNat = w.toNat) : Encoded.ctr w = .ctr v :=
    congrArg _ (BitVec.eq_of_toNat_eq hw.symm)
  unfold decodeCtr at h
  split at h <;> cases h <;> exact byte ‹_›

theorem encode_of_decodeAddr {v : Byte} {i : Instr} (h : decodeAddr v = .ok i) : encode i = .addr v := by
  have hv := extractLsb'_append_ofBool v
  unfold decodeAddr at h
  cases hbit : v.getLsbD 0 <;> rw [hbit] at h hv <;> cases h <;> exact congrArg Encoded.addr hv

/-- Settles O9: each format's decoder compares the byte with the rows' own bytes, or cuts it in two parts. -/
theorem encodeOfDecodeIsTheByte : Obligations.EncodeOfDecodeIsTheByte :=
  ⟨fun _ _ => encode_of_decodeCr, fun _ _ => encode_of_decodeAddr, fun _ _ => encode_of_decodeCtr⟩

/-! ## The words that decode -/

/-- R115: all sixteen codes are assigned. -/
theorem decodeReq_isOk (r : Request) : ∃ i, decodeReq r = .ok i := by
  have hop : r.op.toNat < 16 := r.op.isLt
  unfold decodeReq
  generalize r.op.toNat = n at hop
  interval_cases n <;> exact ⟨_, rfl⟩

theorem mem_commandSet_of_encode {i : Instr} {v : Byte} (h : encode i = .cr v) : v ∈ commandSet := by
  cases i <;> cases h <;> decide

theorem eq_of_encode_ctr {i : Instr} {v : Byte} (h : encode i = .ctr v) : v = 0x00 ∨ v = 0x80 := by
  cases i <;> cases h <;> decide

/-- Settles O10: a byte that decodes is the encoding of a row (`encode_of_decodeCr`, `encode_of_decodeCtr`), and the
rows' bytes are the listed ones. -/
theorem decoderAcceptsExactlyTheAssignedWords : Obligations.DecoderAcceptsExactlyTheAssignedWords := by
  refine ⟨decodeReq_isOk, fun v => ⟨?_, fun hv => ?_⟩, fun v => ?_, fun v => ⟨?_, ?_⟩⟩
  · rintro ⟨i, hi⟩
    exact mem_commandSet_of_encode (encode_of_decodeCr hi)
  · simp only [commandSet, List.mem_cons, List.not_mem_nil, or_false] at hv
    rcases hv with rfl | rfl | rfl | rfl | rfl | rfl | rfl | rfl | rfl <;> exact ⟨_, rfl⟩
  · simp only [decode, decodeAddr]
    split <;> exact ⟨_, rfl⟩
  · rintro ⟨i, hi⟩
    exact eq_of_encode_ctr (encode_of_decodeCtr hi)
  · rintro (rfl | rfl) <;> exact ⟨_, rfl⟩

/-- Settles O11: seven closed words, evaluated. -/
theorem knownWordsDecode : Obligations.KnownWordsDecode := by
  unfold Obligations.KnownWordsDecode
  decide

/-- Settles O13: closed bytes, evaluated from their masks. -/
theorem commandBytesOfTheOperations : Obligations.CommandBytesOfTheOperations := by
  unfold Obligations.CommandBytesOfTheOperations
  decide

/-! ## The register-address bytes -/

/-- R113: the byte a shift brings to the bottom. -/
theorem setWidth_ushiftRight (r : BitVec 32) (n : Nat) :
    (r >>> n).setWidth 8 = BitVec.ofNat 8 ((r.toNat >>> n) % 256) := by
  refine BitVec.eq_of_toNat_eq ?_
  simp

theorem regAddrBytes_getElem? (r : BitVec 32) {n k : Nat} (hk : k < n) :
    (regAddrBytes r n)[n - 1 - k]? = some ((r >>> (8 * k)).setWidth 8) := by
  induction n with
  | zero => omega
  | succ n ih =>
    rcases Nat.lt_succ_iff_lt_or_eq.1 hk with hlt | rfl
    · rw [show n + 1 - 1 - k = n - 1 - k + 1 by omega, regAddrBytes, List.getElem?_cons_succ]
      exact ih hlt
    · rw [show k + 1 - 1 - k = 0 by omega]
      rfl

/-- Settles O14, by induction over the number of bytes (`regAddrBytes_getElem?`). -/
theorem registerAddressBytesMostSignificantFirst : Obligations.RegisterAddressBytesMostSignificantFirst := by
  refine ⟨fun r n => ⟨regAddrBytes_length r n, fun k hk => ?_⟩, rfl, rfl, rfl⟩
  rw [regAddrBytes_getElem? r hk, setWidth_ushiftRight]

/-! ## The bits of SR and CTR -/

/-- A mask of one bit tests that bit. -/
theorem maskSet_eq_getLsbD {mask : Byte} {k : Nat} (h : mask = BitVec.twoPow 8 k) (v : Byte) :
    maskSet v mask = v.getLsbD k := by
  rw [maskSet, h, BitVec.and_twoPow]
  cases hk : v.getLsbD k with
  | false => rfl
  | true =>
    have hlt : k < 8 := BitVec.lt_of_getLsbD hk
    have hne : BitVec.twoPow 8 k ≠ 0 := fun h0 => by simpa [hlt] using congrArg (BitVec.getLsbD · k) h0
    simpa using hne

/-- Settles O17: every mask is the one bit of its place (`maskSet_eq_getLsbD`). -/
theorem statusAndControlBitsAreAtTheirPlaces : Obligations.StatusAndControlBitsAreAtTheirPlaces := by
  refine ⟨fun v => ⟨?_, ?_, ?_, ?_, ?_, ?_, ?_, ?_⟩, fun v => ⟨?_, ?_, ?_⟩⟩ <;>
    exact maskSet_eq_getLsbD (by rfl) v

/-! ## The prescaler -/

/-- Settles O21: both sides are the same number below 256. -/
theorem prescalerSplit : Obligations.PrescalerSplit := by
  refine ⟨fun P => ⟨?_, ?_⟩, rfl, rfl, rfl, rfl⟩
  · refine BitVec.eq_of_toNat_eq ?_
    simp [prescalerLo]
  · refine BitVec.eq_of_toNat_eq ?_
    simp [prescalerHi]

end Sys2Proof.Machine
end

section
/-! SUPPORT. The bytes that instructions write, and which requests are refused (spec/30_encoding.md R112, R123). -/

namespace Sys2Proof.Machine

/-! ## The byte rows and the stop -/

/-- Settles O30: a byte row is one `regWrite` (`writeByteRow_ready`), read off the register block. -/
theorem byteRowsWriteTheirByte : Obligations.ByteRowsWriteTheirByte := by
  intro s b i off v hready hrow
  have hblock := regWrite_block b off v s
  refine ⟨s.regWrite b off v, by rw [exec_row hrow, writeByteRow_ready hready], hblock.history, ?_, fun off' hne => ?_,
    hblock.rxr, hblock.sr, by simp, by simp, by simp⟩
  · simp [writeSide_write]
  · simp [writeSide_write, hne.symm]

/-- Settles O32: the one step of `sendStop` is one `regWrite`. -/
theorem sendStopWritesTheStopCommand : Obligations.SendStopWritesTheStopCommand := by
  refine ⟨rfl, rfl, rfl, fun s b hready => ?_⟩
  have hexec : exec .sendStop s = .next ((s.latch .sendStop).regWrite b .crSr 0x41).succeed :=
    perform_ready hready .sendStop sendStopSteps
  exact ⟨_, hexec, by simp, by simp [CR.stop, CR.irqAck], by simp [Controller.write], by simp [Controller.write]⟩

/-! ## The bytes written to CR and CTR -/

/-- R112, R34: a write to CR is of a listed command, one to CTR of a listed control value. -/
def ListedWrite (w : RegOffset × Byte) : Prop :=
  (w.1 = .crSr → w.2 ∈ commandSet) ∧ (w.1 = .ctr → w.2 = 0x00 ∨ w.2 = 0x80)

theorem listedWrite_stop : ListedWrite (.crSr, 0x41) := by simp [ListedWrite, commandSet]

theorem addressWrites_listed (c : BitVec 7) (r : BitVec 32) (n : Nat) (d : Direction) :
    ∀ w ∈ addressWrites c r n d, ListedWrite w := by
  have hbody : ∀ w ∈ (regAddrBytes r n).flatMap (fun v => [(.txrRxr, v), (.crSr, 0x10)]), ListedWrite w := by
    simp +contextual [ListedWrite, commandSet, or_imp, forall_and]
  refine List.forall_mem_append.2 ⟨List.forall_mem_append.2 ⟨by simp [ListedWrite, commandSet], hbody⟩, ?_⟩
  cases d <;> simp [ListedWrite, commandSet]

theorem payloadWrites_listed (bs : List Byte) : ∀ w ∈ payloadWrites bs, ListedWrite w := by
  induction bs with
  | nil => simp [payloadWrites]
  | cons v bs ih =>
    cases bs with
    | nil => simp [payloadWrites, ListedWrite, commandSet]
    | cons v' bs => exact List.forall_mem_append.2 ⟨by simp [ListedWrite, commandSet], ih⟩

/-- R269: the writes in every operation's rule are listed ones, `writeRegister`'s apart. -/
theorem operationWrites_listed (p : Params) {i : Instr} (hi : ∀ n v, i ≠ .writeRegister n v) :
    ∀ w ∈ operationWrites p i, ListedWrite w := by
  cases i with
  | writeRegister n v => exact absurd rfl (hi n v)
  | initController hz a =>
    simp only [operationWrites]
    cases prescaler p.inputClockHz hz <;> simp [ListedWrite, commandSet]
  | readBlock c r n m =>
    refine List.forall_mem_append.2 ⟨List.forall_mem_append.2 ⟨addressWrites_listed c r n .read, ?_⟩, ?_⟩
    · simp +contextual [List.mem_replicate, ListedWrite, commandSet]
    · split_ifs <;> simp [ListedWrite, commandSet]
  | writeBlock c r n bs => exact List.forall_mem_append.2 ⟨addressWrites_listed c r n .write, payloadWrites_listed bs⟩
  | probe c =>
    exact List.forall_mem_append.2 ⟨addressWrites_listed c 0 1 .read, by simp [ListedWrite, commandSet]⟩
  | addressWithOffset c r n d => exact addressWrites_listed c r n d
  | sendByte v start stop => cases start <;> cases stop <;> simp [operationWrites, ListedWrite, commandSet]
  | readByte stop => cases stop <;> simp [operationWrites, ListedWrite, commandSet]
  | _ => simp [operationWrites, rowByte, ListedWrite, commandSet]

theorem operationWrites_of_row (p : Params) {i : Instr} {w : RegOffset × Byte} (hr : rowByte i = some w) :
    operationWrites p i = [w] := by cases i <;> cases hr <;> rfl

/-- What an instruction writes: the byte of its row, or its operation's list up to a failure and the stop (R271). -/
theorem exec_writes {i : Instr} {s t : State} (h : exec i s = .next t) :
    ∃ l, t.history = s.history ++ l ∧
      ∀ w ∈ writesOf l, w ∈ operationWrites s.cfg i ∨ w = (.crSr, 0x41) := by
  cases hrow : rowByte i with
  | some row =>
    obtain ⟨off, v⟩ := row
    rw [exec_row hrow] at h
    obtain ⟨-, b, -, rfl⟩ := writeByteRow_next h
    refine ⟨_, State.regWrite_history b off v s, ?_⟩
    simp [writesOf, operationWrites_of_row s.cfg hrow]
  | none =>
    obtain ⟨l, hhist, hok, herr⟩ := operationsWriteTheirListUpToTheFailure i s t hrow h
    refine ⟨l, hhist, fun w hw => ?_⟩
    cases hres : t.result with
    | ok => exact .inl (hok hres ▸ hw)
    | err k =>
      obtain ⟨made, hprefix, -, hwrites, -⟩ := herr k hres
      rw [hwrites, List.mem_append] at hw
      refine hw.imp (fun hmade => hprefix.subset hmade) fun hstop => ?_
      split_ifs at hstop
      · exact List.mem_singleton.1 hstop
      · cases hstop

/-- Settles O57: only listed writes stand in the operations' rules (`operationWrites_listed`), and no other is made
(`exec_writes`). -/
theorem operationsWriteOnlyTheListedBytes : Obligations.OperationsWriteOnlyTheListedBytes := by
  intro i s t hi hexec
  obtain ⟨l, hhist, hwrites⟩ := exec_writes hexec
  rw [hhist, List.drop_left]
  have hlisted : ∀ w ∈ writesOf l, ListedWrite w := fun w hw => by
    rcases hwrites w hw with hmem | rfl
    · exact operationWrites_listed s.cfg hi w hmem
    · exact listedWrite_stop
  exact ⟨fun v hv => (hlisted _ hv).1 rfl, fun v hv => (hlisted _ hv).2 rfl⟩

/-! ## Refused requests -/

/-- R220: `initController` always has a bus to run on. -/
theorem runOnActive_resolveBus_ne_refused (i : Instr) (steps : List SeqStep) (s : State) (r : Refusal) :
    runOnActive i steps s.resolveBus ≠ .refused r := by
  intro h
  have hunset : s.resolveBus.activeBase = none := (withActiveBus_refused _ _).1 ⟨r, h⟩
  cases hs : s.activeBase with
  | none => simp [State.resolveBus_unset s hs] at hunset
  | some a => simp [State.resolveBus_set s hs, hs] at hunset

section
variable {i : Instr} {s : State}

/-- R123 (a) to (d): operands that pass every check on them, which depends on the parameters alone. -/
def OperandsOk (i : Instr) (p : Params) : Prop := wellFormed i = true ∧ blockLength i ≤ p.maxBlock

theorem illegal_of_operands (h : ¬ OperandsOk i s.cfg) : Illegal i s := by
  simp only [OperandsOk, not_and_or, Bool.not_eq_true, Nat.not_le] at h
  exact .inr (h.imp_right .inl)

/-- R123 (e), (f): what is left of `Illegal` for operands that pass the checks. -/
theorem illegal_iff_of_needsBus (h : OperandsOk i s.cfg) (hbus : needsBus i = true) :
    Illegal i s ↔ s.phase ≠ .idle ∨ s.activeBase = none := by
  obtain ⟨hwf, hlen⟩ := h
  simp [Illegal, hwf, hbus, Nat.not_lt.2 hlen]

theorem perform_refused_iff_illegal (h : OperandsOk i s.cfg) (hbus : needsBus i = true) (steps : List SeqStep) :
    (∃ r, perform i steps s = .refused r) ↔ Illegal i s :=
  perform_refused.trans (illegal_iff_of_needsBus h hbus).symm

/-- R123 (f): the only ground for an operation without register accesses, and for `initController`. -/
theorem whenIdle_refused_iff_illegal {go : State → Host.Outcome State Fault Refusal} (h : OperandsOk i s.cfg)
    (hbus : needsBus i = false) (hgo : ∀ r, go s ≠ .refused r) :
    (∃ r, whenIdle s go = .refused r) ↔ Illegal i s := by
  obtain ⟨hwf, hlen⟩ := h
  cases hp : s.phase <;> simp [whenIdle, Illegal, hp, hgo, hwf, hbus, Nat.not_lt.2 hlen]

theorem operandsOk_of_row {off : RegOffset} {v : Byte} (p : Params) (hr : rowByte i = some (off, v)) :
    OperandsOk i p ∧ needsBus i = true := by
  cases i <;> cases hr <;> exact ⟨⟨rfl, Nat.zero_le _⟩, rfl⟩

theorem exec_row_refused_iff_illegal {off : RegOffset} {v : Byte} (hr : rowByte i = some (off, v)) :
    (∃ r, exec i s = .refused r) ↔ Illegal i s := by
  obtain ⟨hok, hbus⟩ := operandsOk_of_row s.cfg hr
  rw [exec_row hr, writeByteRow_refused, illegal_iff_of_needsBus hok hbus]

/-- R123 (a) to (d): operands that fail a check are refused, whatever the state. -/
theorem exec_refused_of_operands (h : ¬ OperandsOk i s.cfg) : ∃ r, exec i s = .refused r := by
  cases i with
  | readRegister n =>
    have ho : offsetOf n = none := by
      simpa [OperandsOk, wellFormed, offsetAssigned_eq, blockLength] using h
    exact ⟨.unassignedOffset, by simp [exec, execReadRegister, ho]⟩
  | writeRegister n v =>
    have ho : offsetOf n = none := by
      simpa [OperandsOk, wellFormed, offsetAssigned_eq, blockLength] using h
    exact ⟨.unassignedOffset, by simp [exec, execWriteRegister, ho]⟩
  | awaitTransferComplete e n =>
    have he : ackOfBits e = none := by
      simpa [OperandsOk, wellFormed, ack_ne_three_eq, blockLength, -bne_iff_ne] using h
    exact ⟨.badAckExpectation, by simp [exec, execAwaitTransferComplete, he]⟩
  | addressWithOffset c r n d =>
    have hn : 4 < n := by simpa [OperandsOk, wellFormed, addressLengthOk, blockLength] using h
    exact ⟨.addressLengthTooLong, if_pos hn⟩
  | readBlock c r n m =>
    by_cases hn : 4 < n
    · exact ⟨.addressLengthTooLong, if_pos hn⟩
    · have hm : s.cfg.maxBlock < m := by
        simpa [OperandsOk, wellFormed, addressLengthOk, blockLength, Nat.not_lt.1 hn] using h
      exact ⟨.blockTooLong, (if_neg hn).trans (if_pos hm)⟩
  | writeBlock c r n bs =>
    by_cases hn : 4 < n
    · exact ⟨.addressLengthTooLong, if_pos hn⟩
    · have hm : s.cfg.maxBlock < bs.length := by
        simpa [OperandsOk, wellFormed, addressLengthOk, blockLength, Nat.not_lt.1 hn] using h
      exact ⟨.blockTooLong, (if_neg hn).trans (if_pos hm)⟩
  | _ => exact absurd ⟨rfl, Nat.zero_le _⟩ h

/-- Operands that pass the checks go on to the admission by state: to `perform`, or to `whenIdle`. -/
theorem exec_refused_iff_illegal_of_operandsOk (h : OperandsOk i s.cfg) :
    (∃ r, exec i s = .refused r) ↔ Illegal i s := by
  obtain ⟨hwf, hlen⟩ := h
  have hperform := perform_refused_iff_illegal (i := i) (s := s) ⟨hwf, hlen⟩
  cases i with
  | selectBus n =>
    rw [exec, execSelectBus]
    refine whenIdle_refused_iff_illegal ⟨hwf, hlen⟩ rfl fun r => ?_
    dsimp only
    cases busOfIndex n <;> simp
  | currentBus =>
    rw [exec, execCurrentBus]
    refine whenIdle_refused_iff_illegal ⟨hwf, hlen⟩ rfl fun r => ?_
    rcases s.activeBus with _ | _ | b <;> simp
  | initController hz a =>
    rw [exec, execInitController]
    refine whenIdle_refused_iff_illegal ⟨hwf, hlen⟩ rfl fun r => ?_
    dsimp only
    split
    · simp
    · exact runOnActive_resolveBus_ne_refused _ _ _ r
  | readRegister n =>
    obtain ⟨off, ho⟩ := Option.isSome_iff_exists.1 ((offsetAssigned_eq n).symm.trans hwf)
    simpa only [exec, execReadRegister, ho] using hperform rfl _
  | writeRegister n v =>
    obtain ⟨off, ho⟩ := Option.isSome_iff_exists.1 ((offsetAssigned_eq n).symm.trans hwf)
    simpa only [exec, execWriteRegister, ho] using hperform rfl _
  | awaitTransferComplete e n =>
    obtain ⟨e', he⟩ := Option.isSome_iff_exists.1 ((ack_ne_three_eq e).symm.trans hwf)
    simpa only [exec, execAwaitTransferComplete, he] using hperform rfl _
  | readBlock c r n m =>
    have hn : ¬ 4 < n := by simpa [wellFormed, addressLengthOk] using hwf
    have hm : ¬ s.cfg.maxBlock < m := Nat.not_lt.2 hlen
    simpa only [exec, execReadBlock, hn, hm, if_false] using hperform rfl _
  | writeBlock c r n bs =>
    have hn : ¬ 4 < n := by simpa [wellFormed, addressLengthOk] using hwf
    have hm : ¬ s.cfg.maxBlock < bs.length := Nat.not_lt.2 hlen
    simpa only [exec, execWriteBlock, hn, hm, if_false] using hperform rfl _
  | addressWithOffset c r n d =>
    have hn : ¬ 4 < n := by simpa [wellFormed, addressLengthOk] using hwf
    simpa only [exec, execAddressWithOffset, hn, if_false] using hperform rfl _
  | probe | sendByte | sendStop | awaitBusNotBusy | readByte | resetBus | startAddressed => exact hperform rfl _
  | cmdWr | cmdWrStart | cmdWrStop | cmdWrStartStop | cmdRd | cmdRdLast | cmdStop | cmdResetRd | cmdIack | addrW
  | addrR | ctrDisable | ctrEnable => exact exec_row_refused_iff_illegal rfl

end

/-- Settles O22: operands that fail a check are refused first (`exec_refused_of_operands`), the others by the state
alone. -/
theorem exactlyIllegalRequestsAreRefused : Obligations.ExactlyIllegalRequestsAreRefused := by
  intro i s
  by_cases h : OperandsOk i s.cfg
  · exact exec_refused_iff_illegal_of_operandsOk h
  · exact iff_of_true (exec_refused_of_operands h) (illegal_of_operands h)

end Sys2Proof.Machine
end

section
/-! SUPPORT. The Bus Selector, and what every step keeps: the shapes of a step (`step_next`), of a register access
inside an operation (`accessOn_cases`) and of an end without a failure say it for all of them. -/

namespace Sys2Proof.Machine

/-! ## What a step can do -/

/-- The shapes of an answer `next t` of `step s`. -/
inductive StepNext (s : State) : State → Prop where
  /-- no request while idle (R290) -/
  | waits : StepNext s s
  /-- the host's next request, served whole (R22, D3) -/
  | serves (i : Instr) (rest : List Encoded) {t : State} (hexec : exec i { s with requests := rest } = .next t) :
      StepNext s t
  /-- one register access of the operation in progress (R43, D32) -/
  | access (i : Instr) (rest : List SeqStep) (b : BusId) (hrun : s.phase = .run i rest)
      (hb : s.activeBus = some (some b)) : StepNext s (s.accessOn b i rest)

/-- Everything a step can do when it answers a next state. -/
theorem step_next {s t : State} (h : step s = .next t) : StepNext s t := by
  cases hp : s.phase with
  | idle =>
    have hserve : step s = serve exec s := by simp only [step, hp]
    rw [hserve, serve, fetch] at h
    cases hr : s.requests with
    | nil =>
      simp only [hr] at h
      cases h
      exact .waits
    | cons w rest =>
      simp only [hr] at h
      cases hd : decode w with
      | ok i => exact .serves i rest (by simpa only [hd] using h)
      | error e => simp [hd] at h
  | run i rest =>
    have hadvance : step s = advance i rest s := by simp only [step, hp]
    rw [hadvance, advance, withActiveBus] at h
    rcases hb : s.activeBus with _ | _ | b <;> rw [hb] at h <;> cases h
    exact .access i rest b hp hb

/-! ## What a register access inside an operation can do -/

@[simp] theorem settle_cfg (i : Instr) (rest : List SeqStep) (s : State) : (s.settle i rest).cfg = s.cfg := by
  unfold State.settle
  split <;> simp

@[simp] theorem settle_activeBase (i : Instr) (rest : List SeqStep) (s : State) :
    (s.settle i rest).activeBase = s.activeBase := by
  unfold State.settle
  split <;> simp

/-- R20, R43, R167: an access ends its step, normally or not, and the sequencer moves on to steps that hold no more
bytes than are due; or a wait goes on, below its budget. (The end of an operation and its failure are steps to come
too: none, and a `raise`.) -/
theorem accessOn_cases (b : BusId) (i : Instr) (rest : List SeqStep) (s : State) :
    (∃ u next, StepsFrame b s u ∧ u.dataBuf.length + pendingBytes next ≤ s.dataBuf.length + pendingBytes rest ∧
        s.accessOn b i rest = u.settle i next) ∨
      (s.accessOn b i rest = s.pollRead b ∧ AtAccess (s.pollCnt + 1) rest) := by
  cases rest with
  | nil => exact .inl ⟨s, [], .refl b s, le_rfl, rfl⟩
  | cons m ms =>
    have ends (next : List SeqStep) (hnext : pendingBytes next ≤ pendingBytes (m :: ms)) :
        (s.pollRead b).dataBuf.length + pendingBytes next ≤ s.dataBuf.length + pendingBytes (m :: ms) := by
      simpa using hnext
    cases m with
    | raise k => exact .inl ⟨s, .raise k :: ms, .refl b s, le_rfl, rfl⟩
    | write off v => exact .inl ⟨_, ms, regWrite_frame b off v s, by simp [pendingBytes], rfl⟩
    | read off d =>
      refine .inl ⟨_, ms, runStep_frame b (.read off d) s, ?_, rfl⟩
      cases d <;> simp [runStep, pendingBytes]
      omega
    | awaitNotBusy n =>
      simp only [State.accessOn]
      split_ifs with hbusy hlt
      · exact .inr ⟨rfl, hlt⟩
      · exact .inl ⟨_, [.raise .busy], pollRead_frame b s, ends _ (Nat.zero_le _), rfl⟩
      · exact .inl ⟨_, ms, pollRead_frame b s, ends _ le_rfl, rfl⟩
    | awaitComplete e n =>
      simp only [State.accessOn]
      split_ifs with harb htip hlt
      · exact .inl ⟨_, [.raise .arbitrationLost], pollRead_frame b s, ends _ (Nat.zero_le _), rfl⟩
      · exact .inr ⟨rfl, hlt⟩
      · exact .inl ⟨_, [.raise .timeout], pollRead_frame b s, ends _ (Nat.zero_le _), rfl⟩
      · cases ackJudge e (SR.rxack (s.answer b .crSr)) with
        | met => exact .inl ⟨_, ms, pollRead_frame b s, ends _ le_rfl, rfl⟩
        | violated =>
          exact .inl ⟨_, sendStopSteps ++ [.raise .notAcknowledged], pollRead_frame b s, ends _ (Nat.zero_le _), rfl⟩

/-! ## The selection -/

theorem SelectorOk.congr {s t : State} (h : SelectorOk s) (hcfg : t.cfg = s.cfg)
    (hactive : t.activeBase = s.activeBase) : SelectorOk t := by
  simpa only [SelectorOk, hcfg, hactive] using h

theorem selectorOk_of_activeBase {s : State} {b : BusId} (h : s.activeBase = some (baseOf s.cfg b)) : SelectorOk s := by
  cases b with
  | bus0 => exact .inr (.inl h)
  | bus1 => exact .inr (.inr h)

/-- R140, R220: an instruction selects one of the two bases or leaves the selection. -/
theorem exec_selectorOk {i : Instr} {s t : State} (hs : SelectorOk s) (h : exec i s = .next t) : SelectorOk t := by
  obtain ⟨-, hnext⟩ := exec_next h
  cases hnext with
  | selected b => exact selectorOk_of_activeBase (b := b) (by simp)
  | notSelected | index | noIndex | badClock | row => exact hs.congr (by simp) (by simp)
  | ran b hb =>
    have hframe := runSteps_frame b (stepsOf s.cfg i) ((s.latch i).chooseBus i)
    refine selectorOk_of_activeBase (b := b) ?_
    rw [finish_activeBase, finish_cfg, hframe.activeBase, hframe.cfg, activeBus_some hb]

/-- R42: no register access changes the selection or the parameters. -/
theorem accessOn_selection (b : BusId) (i : Instr) (rest : List SeqStep) (s : State) :
    (s.accessOn b i rest).cfg = s.cfg ∧ (s.accessOn b i rest).activeBase = s.activeBase := by
  obtain ⟨u, next, hframe, -, heq⟩ | ⟨heq, -⟩ := accessOn_cases b i rest s
  · simp [heq, hframe.cfg, hframe.activeBase]
  · simp [heq]

theorem step_selectorOk {s t : State} (hs : SelectorOk s) (h : step s = .next t) : SelectorOk t := by
  cases step_next h with
  | waits => exact hs
  | serves i rest hexec => exact exec_selectorOk (s := { s with requests := rest }) hs hexec
  | access i rest b =>
    obtain ⟨hcfg, hactive⟩ := accessOn_selection b i rest s
    exact hs.congr hcfg hactive

/-! ## The bound of `DATA_BUF` -/

/-- R47, U14: a block operation that fails leaves a value within the bound. -/
theorem failWith_dataBuf_le_of_mayBuffer {i : Instr} (hi : mayBuffer i = true) (k : ErrorKind) (s : State) :
    (s.failWith i k).dataBuf.length ≤ s.cfg.maxBlock := by
  cases i with
  | readBlock | writeBlock | probe => exact List.length_take_le s.cfg.maxBlock (Config.freeBytes s.draws)
  | _ => cases hi

theorem failWith_dataBuf_le (i : Instr) (k : ErrorKind) {s : State} (h : s.dataBuf.length ≤ s.cfg.maxBlock) :
    (s.failWith i k).dataBuf.length ≤ s.cfg.maxBlock := by
  cases hi : mayBuffer i with
  | false => rwa [failWith_dataBuf hi]
  | true => exact failWith_dataBuf_le_of_mayBuffer hi k s

/-- R192, R193, R194: what a block operation begins with in `DATA_BUF`, and the bytes it asks for. -/
theorem latch_dataBuf_add_receives (p : Params) {i : Instr} (hi : mayBuffer i = true) (s : State) :
    (s.latch i).dataBuf.length + stepReceives (stepsOf p i) ≤ max 1 (blockLength i) := by
  cases i with
  | readBlock c r n m =>
    have hbuf : (s.latch (.readBlock c r n m)).dataBuf = [] := rfl
    simp [hbuf, stepsOf, readBlockSteps, stepReceives, stepReceives_append, addressPhase_run, dataRead_run, blockLength]
  | writeBlock c r n bs =>
    have hbuf : (s.latch (.writeBlock c r n bs)).dataBuf = bs := rfl
    simp [hbuf, stepsOf, writeBlockSteps, stepReceives, stepReceives_append, addressPhase_run, payload_run, blockLength]
  | probe c =>
    have hbuf : (s.latch (.probe c)).dataBuf = [] := rfl
    simp [hbuf, stepsOf, probeSteps, readBlockSteps, stepReceives, stepReceives_append, addressPhase_run, dataRead_run]
  | _ => cases hi

theorem one_le_maxBlock {p : Params} : p.Valid → 1 ≤ p.maxBlock := fun ⟨_, _, _, _, _, _, h⟩ => h

/-- R47, R123 (c): a block operation holds its own bytes in `DATA_BUF`, at most `MAX_BLOCK`; the others keep it. -/
theorem exec_dataBuf_le {i : Instr} {s t : State} (hone : 1 ≤ s.cfg.maxBlock)
    (hbuf : s.dataBuf.length ≤ s.cfg.maxBlock) (h : exec i s = .next t) : t.dataBuf.length ≤ s.cfg.maxBlock := by
  cases hi : mayBuffer i with
  | false =>
    obtain ⟨-, -, -, -, -, -, -, hkeep, -⟩ := frameOfTheSequencerRegisters i s t h
    rwa [hkeep hi]
  | true =>
    obtain ⟨-, hnext⟩ := exec_next h
    cases hnext with
    | selected _ he | notSelected _ he | index _ he | noIndex he | badClock _ _ he => subst he; cases hi
    | row => simpa using hbuf
    | ran b hb hs hr hl =>
      have hframe := runSteps_frame b (stepsOf s.cfg i) ((s.latch i).chooseBus i)
      rcases hrun : runSteps b (stepsOf s.cfg i) ((s.latch i).chooseBus i) with ⟨u, _ | k⟩
      · obtain ⟨tr, hadds⟩ := runSteps_adds hrun
        have hu : u.dataBuf = (s.latch i).dataBuf ++ receivedOf tr := by
          simpa using hadds.dataBuf (stepsOf_readsToBuffer s.cfg hi)
        calc u.dataBuf.length
            = (s.latch i).dataBuf.length + stepReceives (stepsOf s.cfg i) := by
              rw [hu, List.length_append, hadds.receives]
          _ ≤ max 1 (blockLength i) := latch_dataBuf_add_receives s.cfg hi s
          _ ≤ s.cfg.maxBlock := max_le hone hl
      · have hcfg : u.cfg = s.cfg := by simpa [hrun] using hframe.cfg
        simpa [hcfg] using failWith_dataBuf_le_of_mayBuffer hi k u

/-! ## The invariant -/

section
variable {s : State} {i : Instr} {rest : List SeqStep}

theorem machineInv_idle_iff (hidle : s.phase = .idle) :
    MachineInv s ↔ s.cfg.Valid ∧ SelectorOk s ∧ s.dataBuf.length ≤ s.cfg.maxBlock := by
  have hbuf : BufferOk s ↔ s.dataBuf.length ≤ s.cfg.maxBlock := by simp only [BufferOk, hidle]
  have hphase : PhaseOk s := by simp only [PhaseOk, hidle]
  exact ⟨fun ⟨hv, hs, hb, _⟩ => ⟨hv, hs, hbuf.1 hb⟩, fun ⟨hv, hs, hb⟩ => ⟨hv, hs, hbuf.2 hb, hphase⟩⟩

theorem machineInv_run_iff (hrun : s.phase = .run i rest) :
    MachineInv s ↔ s.cfg.Valid ∧ SelectorOk s ∧ s.dataBuf.length + pendingBytes rest ≤ s.cfg.maxBlock ∧
      s.activeBase ≠ none ∧ AtAccess s.pollCnt rest := by
  have hbuf : BufferOk s ↔ s.dataBuf.length + pendingBytes rest ≤ s.cfg.maxBlock := by simp only [BufferOk, hrun]
  have hphase : PhaseOk s ↔ s.activeBase ≠ none ∧ AtAccess s.pollCnt rest := by simp only [PhaseOk, hrun]
  exact ⟨fun ⟨hv, hs, hb, hp⟩ => ⟨hv, hs, hbuf.1 hb, hphase.1 hp⟩,
    fun ⟨hv, hs, hb, hp⟩ => ⟨hv, hs, hbuf.2 hb, hphase.2 hp⟩⟩

/-- R43, R45: where the sequencer moves on, it ends the operation or stands before an access, a wait with reads left. -/
theorem settle_machineInv (i : Instr) (hvalid : s.cfg.Valid) (hsel : SelectorOk s) (hactive : s.activeBase ≠ none)
    (hroom : s.dataBuf.length + pendingBytes rest ≤ s.cfg.maxBlock) : MachineInv (s.settle i rest) := by
  have hbuf : s.dataBuf.length ≤ s.cfg.maxBlock := le_trans (Nat.le_add_right _ _) hroom
  have failed (k : ErrorKind) {u : State} (hcfg : u.cfg = s.cfg) (ha : u.activeBase = s.activeBase)
      (hd : u.dataBuf = s.dataBuf) : MachineInv (u.failWith i k) := by
    refine (machineInv_idle_iff (by simp)).2
      ⟨by simpa [hcfg] using hvalid, hsel.congr (by simp [hcfg]) (by simp [ha]), ?_⟩
    simpa using failWith_dataBuf_le i k (s := u) (by rwa [hd, hcfg])
  cases rest with
  | nil => exact (machineInv_idle_iff rfl).2 ⟨hvalid, hsel, hbuf⟩
  | cons m ms =>
    cases m with
    | write | read => exact (machineInv_run_iff rfl).2 ⟨hvalid, hsel, hroom, hactive, trivial⟩
    | raise k => exact failed k rfl rfl rfl
    | awaitNotBusy n =>
      cases n with
      | zero => exact failed .busy (u := s.setPoll 0) rfl rfl rfl
      | succ n => exact (machineInv_run_iff rfl).2 ⟨hvalid, hsel, hroom, hactive, Nat.succ_pos n⟩
    | awaitComplete e n =>
      cases n with
      | zero => exact failed .timeout (u := s.setPoll 0) rfl rfl rfl
      | succ n => exact (machineInv_run_iff rfl).2 ⟨hvalid, hsel, hroom, hactive, Nat.succ_pos n⟩

/-- An access inside an operation moves on to steps that fit (`accessOn_cases`), or reads a status below the budget. -/
theorem accessOn_machineInv (b : BusId) (hrun : s.phase = .run i rest) (h : MachineInv s) :
    MachineInv (s.accessOn b i rest) := by
  obtain ⟨hvalid, hsel, hroom, hactive, -⟩ := (machineInv_run_iff hrun).1 h
  obtain ⟨u, next, hframe, hle, heq⟩ | ⟨heq, hat⟩ := accessOn_cases b i rest s
  · rw [heq]
    exact settle_machineInv i (by rwa [hframe.cfg]) (hsel.congr hframe.cfg hframe.activeBase)
      (by rwa [hframe.activeBase]) (by rw [hframe.cfg]; exact hle.trans hroom)
  · rw [heq, machineInv_run_iff (i := i) (rest := rest) (by simp [hrun])]
    exact ⟨by simpa using hvalid, hsel.congr (by simp) (by simp), by simpa using hroom, by simpa using hactive,
      by simpa using hat⟩

theorem exec_machineInv {t : State} (hinv : MachineInv s) (h : exec i s = .next t) : MachineInv t := by
  obtain ⟨hidle, -⟩ := exec_next h
  obtain ⟨hvalid, hsel, hbuf⟩ := (machineInv_idle_iff hidle).1 hinv
  obtain ⟨hcfg, -, hphase, -⟩ := frameOfTheSequencerRegisters i s t h
  refine (machineInv_idle_iff (hphase.trans hidle)).2 ⟨by rwa [hcfg], exec_selectorOk hsel h, ?_⟩
  rw [hcfg]
  exact exec_dataBuf_le (one_le_maxBlock hvalid) hbuf h

end

/-- Settles O7, by the shapes of a step: a request served whole (`exec_machineInv`), or one access inside an operation
(`accessOn_machineInv`). -/
theorem stepKeepsTheInvariant : Obligations.StepKeepsTheInvariant := by
  intro s t hinv hstep
  cases step_next hstep with
  | waits => exact hinv
  | serves i rest hexec =>
    have hinv' : MachineInv { s with requests := rest } := ⟨hinv.valid, hinv.selector, hinv.buffer, hinv.phase⟩
    exact exec_machineInv hinv' hexec
  | access i rest b hrun => exact accessOn_machineInv b hrun hinv

/-! ## Selecting a bus and asking for it -/

/-- `PHASE` is already idle, so success sets `RESULT` alone. -/
theorem succeed_of_idle {s : State} (h : s.phase = .idle) : s.succeed = { s with result := .ok } := by
  rw [State.succeed, ← h]

theorem raise_of_idle {s : State} (h : s.phase = .idle) (k : ErrorKind) : s.raise k = { s with result := .err k } := by
  rw [State.raise, ← h]

/-- Settles O26, from the two shapes of an answer to `selectBus`. -/
theorem selectBusSelectsOrFails : Obligations.SelectBusSelectsOrFails := by
  refine ⟨fun s b hidle => ?_, fun s n hidle hn => ?_⟩
  · rw [exec_of_execNext hidle rfl (.selected b rfl), succeed_of_idle (by simpa using hidle)]
    rfl
  · have hfail : (s.latch (.selectBus n)).failWith (.selectBus n) .invalidBus =
        (s.latch (.selectBus n)).raise .invalidBus := rfl
    rw [exec_of_execNext hidle rfl (.notSelected n rfl hn), hfail, raise_of_idle (by simpa using hidle)]
    rfl

theorem exec_currentBus_ready {s : State} {b : BusId} (h : Ready s b) :
    exec .currentBus s = .next { s with outIndex := busIndexOf b, result := .ok } := by
  have hidle : (s.setOutIndex (busIndexOf b)).phase = .idle := h.idle
  rw [exec_of_execNext h.idle rfl (.index b rfl h.activeBus), succeed_of_idle hidle]
  rfl

/-- Settles O27, from the two shapes of an answer to `currentBus`; after `selectBus` the first is met. -/
theorem currentBusReturnsTheActiveIndex : Obligations.CurrentBusReturnsTheActiveIndex := by
  refine ⟨fun s b h => exec_currentBus_ready h, fun s hidle hunset => ?_, fun s b hvalid hidle => ?_⟩
  · have hnone : s.activeBus = none := (activeBus_none_iff s).2 hunset
    have hexec := exec_of_execNext hidle rfl (.noIndex rfl (by simp [hnone]))
    exact ⟨_, hexec, rfl, hunset, rfl, rfl, rfl, rfl, rfl, rfl, rfl⟩
  · exact ⟨_, _, selectBusSelectsOrFails.1 s b hidle, exec_currentBus_ready (b := b) ⟨hvalid, hidle, rfl⟩, rfl, rfl⟩

/-- Settles O59: no selection at reset, kept by every step (`step_selectorOk`); the rejection is O26's. -/
theorem selectorInvariant : Obligations.SelectorInvariant :=
  ⟨.inl rfl, fun _ _ => step_selectorOk, fun s n hidle hn => ⟨_, selectBusSelectsOrFails.2 s n hidle hn, rfl, rfl⟩⟩

end Sys2Proof.Machine
end

section
/-! SUPPORT. The Register Access Layer (spec/41_register_access.md): which accesses an instruction makes, what they
leave in the active register block, and the two operations that are one access each. -/

namespace Sys2Proof.Machine

/-! ## The accesses of an instruction -/

/-- R71, R152: every access an instruction adds to the history is at the base active when it ends. -/
theorem exec_accesses_activeBase {i : Instr} {s t : State} (h : exec i s = .next t) :
    ∃ l, t.history = s.history ++ l ∧ ∀ a ∈ l, t.activeBase = some a.base := by
  obtain ⟨-, hnext⟩ := exec_next h
  cases hnext with
  | selected | notSelected | index | noIndex | badClock => exact ⟨[], by simp, by simp⟩
  | row off v b _ hb => exact ⟨_, State.regWrite_history b off v s, by simp [activeBus_some hb, Access.base]⟩
  | ran b hb =>
    have hframe := runSteps_frame b (stepsOf s.cfg i) ((s.latch i).chooseBus i)
    obtain ⟨l, hhist, hbase⟩ := hframe.history
    refine ⟨l, by simp [finish_history, hhist], fun a ha => ?_⟩
    rw [finish_activeBase, hframe.activeBase, activeBus_some hb, hbase a ha]

/-- R32 to R39: every access an instruction adds to the history is of a register its rule lets it access so. -/
theorem exec_accesses_within {i : Instr} {s t : State} (h : exec i s = .next t) :
    ∃ l, t.history = s.history ++ l ∧ ∀ a ∈ l, AccessWithin i a := by
  rcases exec_blocks h with ⟨hhist, -⟩ | ⟨b, l, -, -, hblock, hacc⟩
  · exact ⟨[], by simp [hhist], by simp⟩
  · exact ⟨l, hblock.history, hacc⟩

/-- Settles O55: the added accesses are at the active base (`exec_accesses_activeBase`) and within the rule
(`exec_accesses_within`). -/
theorem accessesAreThoseOfTheOperation : Obligations.AccessesAreThoseOfTheOperation := by
  intro i s t hexec
  obtain ⟨l, hhist, hbase⟩ := exec_accesses_activeBase hexec
  obtain ⟨l', hhist', hwithin⟩ := exec_accesses_within hexec
  obtain rfl : l = l' := List.append_cancel_left (hhist.symm.trans hhist')
  exact ⟨l, hhist, fun base off v ha => ⟨hbase _ ha, hwithin _ ha⟩, fun base off v ha => ⟨hbase _ ha, hwithin _ ha⟩⟩

/-! ## What the accesses leave in the registers -/

/-- R9: with valid parameters the bases of the two buses differ. -/
theorem baseOf_inj {p : Params} (h : p.Valid) {b b' : BusId} : baseOf p b = baseOf p b' ↔ b = b' :=
  ⟨fun he => Option.some.inj (by rw [← busAt_baseOf h b, he, busAt_baseOf h b']), congrArg _⟩

/-- Settles O56: an instruction without an access changes no block, one with accesses changes the block of the active
base only, by those (`exec_blocks`); that block is `b`'s, as the bases differ. -/
theorem registersHoldTheLastByteWritten : Obligations.RegistersHoldTheLastByteWritten := by
  intro i s t b off hvalid hexec hactive
  rcases exec_blocks hexec with ⟨hhist, hctl⟩ | ⟨b', l, hactive', -, hblock, -⟩
  · rw [hhist, List.drop_length, hctl]
    rfl
  · obtain rfl : b' = b := (baseOf_inj hvalid).1 (Option.some.inj (hactive'.symm.trans hactive))
    rw [hblock.history, List.drop_left, hblock.write]

/-! ## The two operations of one access -/

/-- R150: an admitted `readRegister` is one `regRead`, its answer delivered in `OUT_BYTE`. -/
theorem exec_readRegister_ready {s : State} {b : BusId} {n : Nat} {off : RegOffset} (h : Ready s b)
    (hoff : offsetOf n = some off) :
    exec (.readRegister n) s =
      .next (((s.latch (.readRegister n)).regRead b off).deliver .outByte (s.answer b off)).succeed := by
  simp [exec, execReadRegister, hoff, perform_ready h, readRegisterSteps]

/-- R151: an admitted `writeRegister` is one `regWrite`. -/
theorem exec_writeRegister_ready {s : State} {b : BusId} {n : Nat} {off : RegOffset} (h : Ready s b)
    (hoff : offsetOf n = some off) (v : Byte) :
    exec (.writeRegister n v) s = .next ((s.latch (.writeRegister n v)).regWrite b off v).succeed := by
  simp [exec, execWriteRegister, hoff, perform_ready h, writeRegisterSteps]

/-- Settles O28: the operation is one `regRead` (`exec_readRegister_ready`), read off the register block
(`regRead_block`). -/
theorem readRegisterIsOneAccess : Obligations.ReadRegisterIsOneAccess := by
  intro s b n off hready hoff
  have hblock := regRead_block b off (s.latch (.readRegister n))
  refine ⟨_, exec_readRegister_ready hready hoff, rfl, rfl, by simp, fun off' => ?_, fun ho => ?_, fun ho => ?_⟩
  · simpa [lastWritten] using hblock.write off'
  · simpa [lastRead, ho] using hblock.rxr
  · simpa [lastRead, ho] using hblock.sr

/-- Settles O29: the operation is one `regWrite` (`exec_writeRegister_ready`), read off the register block. -/
theorem writeRegisterIsOneAccess : Obligations.WriteRegisterIsOneAccess := by
  intro s b n off v hready hoff
  refine ⟨_, exec_writeRegister_ready hready hoff v, rfl, by simp, ?_, fun off' hne => ?_, by simp, by simp, by simp⟩
  · simp [writeSide_write]
  · simp [writeSide_write, hne.symm]

end Sys2Proof.Machine
end

section
/-! SUPPORT. The Primitive Sequencer (spec/42_primitive_sequencer.md): the acknowledge detector, the writes of
`sendByte`, and the operations that end in a wait, whatever steps were made before it. -/

namespace Sys2Proof.Machine

/-- Settles O16: the six entries of the table (R164). -/
theorem acknowledgeJudgementTable : Obligations.AcknowledgeJudgementTable := ⟨rfl, rfl, rfl, rfl, rfl, rfl⟩

/-! ## `sendByte` -/

/-- R160: an admitted `sendByte` is two `regWrite`s, of the byte and of its command. -/
theorem exec_sendByte_ready {s : State} {b : BusId} (h : Ready s b) (v : Byte) (start stop : Bool) :
    exec (.sendByte v start stop) s = .next
      (((s.latch (.sendByte v start stop)).regWrite b .txrRxr v).regWrite b .crSr
        (CR.sendByteCommand start stop)).succeed :=
  perform_ready h (.sendByte v start stop) (sendByteSteps v start stop)

/-- Settles O31: the operation is two `regWrite`s (`exec_sendByte_ready`), the second to another register. -/
theorem sendByteWritesTxrThenCr : Obligations.SendByteWritesTxrThenCr := by
  intro s b v start stop hready
  refine ⟨_, exec_sendByte_ready hready v start stop, rfl, ?_, ?_, ?_⟩
  · simp [CR.sendByteCommand, CR.write, CR.start, CR.stop]
  · simp [Controller.write]
  · simp [Controller.write, CR.sendByteCommand, CR.write, CR.start, CR.stop]

/-! ## A wait among the steps -/

section
variable {b : BusId} {n k : Nat} {u : State} (ms : List SeqStep)

theorem runSteps_awaitNotBusy_of_notBusyAt (hk : k < n) (h : NotBusyAt b k u) :
    runSteps b (.awaitNotBusy n :: ms) u = runSteps b ms (afterPolls b (k + 1) (u.setPoll 0)) :=
  runSteps_cons_ok ms (pollNotBusy_of_notBusyAt hk (((sameAnswers_setPoll b u 0).notBusyAt k).2 h))

theorem runSteps_awaitNotBusy_of_stillBusy (h : StillBusy b n u) :
    runSteps b (.awaitNotBusy n :: ms) u = (afterPolls b n (u.setPoll 0), some .busy) :=
  runSteps_cons_err ms (pollNotBusy_of_stillBusy (((sameAnswers_setPoll b u 0).stillBusy n).2 h))

variable {e : AckExpectation}

theorem runSteps_awaitComplete_of_met (hk : k < n) (h : CompleteAt b k u)
    (hj : ackJudge e (SR.rxack (statusAnswer b k u)) = .met) :
    runSteps b (.awaitComplete e n :: ms) u = runSteps b ms (afterPolls b (k + 1) (u.setPoll 0)) :=
  runSteps_cons_ok ms (pollComplete_of_met hk (((sameAnswers_setPoll b u 0).completeAt k).2 h) (by simpa using hj))

theorem runSteps_awaitComplete_of_violated (hk : k < n) (h : CompleteAt b k u)
    (hj : ackJudge e (SR.rxack (statusAnswer b k u)) = .violated) :
    runSteps b (.awaitComplete e n :: ms) u =
      ((afterPolls b (k + 1) (u.setPoll 0)).regWrite b .crSr CR.sendStopCommand, some .notAcknowledged) :=
  runSteps_cons_err ms
    (pollComplete_of_violated hk (((sameAnswers_setPoll b u 0).completeAt k).2 h) (by simpa using hj))

theorem runSteps_awaitComplete_of_arbLost (hk : k < n) (h : ArbLostAt b k u) :
    runSteps b (.awaitComplete e n :: ms) u = (afterPolls b (k + 1) (u.setPoll 0), some .arbitrationLost) :=
  runSteps_cons_err ms (pollComplete_of_arbLost hk (((sameAnswers_setPoll b u 0).arbLostAt k).2 h))

theorem runSteps_awaitComplete_of_stillTransferring (h : StillTransferring b n u) :
    runSteps b (.awaitComplete e n :: ms) u = (afterPolls b n (u.setPoll 0), some .timeout) :=
  runSteps_cons_err ms (pollComplete_of_stillTransferring (((sameAnswers_setPoll b u 0).stillTransferring n).2 h))

end

/-! ## An operation that ends in a wait -/

/-- R162, R163: the operation has ended in `t` with the result `r`, its wait having begun at the history of `u`, made
`polls` status reads and the accesses `tr`. -/
structure WaitEnded (r : Result) (polls : Nat) (tr : List Access) (u t : State) : Prop where
  result : t.result = r
  pollCnt : t.pollCnt = polls
  history : t.history = u.history ++ tr

section
variable {b : BusId} {n k : Nat} {u v : State} (hsame : SameAnswers b u v) (i : Instr) (ms : List SeqStep)
include hsame

/-- R167: the trace of a wait is that of its status reads; `POLL_CNT` counts them from 0. -/
theorem SameAnswers.afterPolls_history (n : Nat) :
    (Machine.afterPolls b n (v.setPoll 0)).history = u.history ++ Machine.statusReads b n u := by
  simp [Machine.afterPolls_history, hsame.history, hsame.statusReads]

theorem SameAnswers.afterPolls_cfg (n : Nat) : (Machine.afterPolls b n (v.setPoll 0)).cfg = u.cfg :=
  (afterPolls_frame b n (v.setPoll 0)).cfg.trans hsame.cfg

theorem SameAnswers.afterPolls_answer (n : Nat) (off : RegOffset) :
    (Machine.afterPolls b n (v.setPoll 0)).answer b off = (Machine.afterPolls b n u).answer b off :=
  ((hsame.setPoll u.pollCnt 0).afterPolls n).answer off

theorem SameAnswers.waitEnded_succeed (n : Nat) :
    WaitEnded .ok n (Machine.statusReads b n u) u (Machine.afterPolls b n (v.setPoll 0)).succeed :=
  ⟨rfl, by simp [afterPolls_pollCnt], hsame.afterPolls_history n⟩

theorem SameAnswers.waitEnded_failWith (n : Nat) (kind : ErrorKind) :
    WaitEnded (.err kind) n (Machine.statusReads b n u) u ((Machine.afterPolls b n (v.setPoll 0)).failWith i kind) :=
  ⟨by simp, by simp [afterPolls_pollCnt], by simpa using hsame.afterPolls_history n⟩

theorem waitEnded_of_notBusyAt (hk : k < n) (h : NotBusyAt b k u) :
    WaitEnded .ok (k + 1) (statusReads b (k + 1) u) u (State.finish i (runSteps b [.awaitNotBusy n] v)) := by
  rw [runSteps_awaitNotBusy_of_notBusyAt [] hk ((hsame.notBusyAt k).2 h)]
  exact hsame.waitEnded_succeed (k + 1)

theorem waitEnded_of_stillBusy (h : StillBusy b n u) :
    WaitEnded (.err .busy) n (statusReads b n u) u (State.finish i (runSteps b (.awaitNotBusy n :: ms) v)) := by
  rw [runSteps_awaitNotBusy_of_stillBusy ms ((hsame.stillBusy n).2 h)]
  exact hsame.waitEnded_failWith i n .busy

variable {e : AckExpectation}

theorem waitEnded_of_met (hk : k < n) (h : CompleteAt b k u)
    (hj : ackJudge e (SR.rxack (statusAnswer b k u)) = .met) :
    WaitEnded .ok (k + 1) (statusReads b (k + 1) u) u (State.finish i (runSteps b [.awaitComplete e n] v)) := by
  rw [runSteps_awaitComplete_of_met [] hk ((hsame.completeAt k).2 h) (by rwa [hsame.statusAnswer])]
  exact hsame.waitEnded_succeed (k + 1)

/-- R270, R272: the one failure that writes: the stop follows the status reads. -/
theorem waitEnded_of_violated (hk : k < n) (h : CompleteAt b k u)
    (hj : ackJudge e (SR.rxack (statusAnswer b k u)) = .violated) :
    WaitEnded (.err .notAcknowledged) (k + 1)
      (statusReads b (k + 1) u ++ [.write (baseOf u.cfg b) .crSr 0x41]) u
      (State.finish i (runSteps b (.awaitComplete e n :: ms) v)) := by
  rw [runSteps_awaitComplete_of_violated ms hk ((hsame.completeAt k).2 h) (by rwa [hsame.statusAnswer])]
  refine ⟨by simp, by simp [afterPolls_pollCnt], ?_⟩
  simp [hsame.afterPolls_cfg, hsame.afterPolls_history, CR.sendStopCommand, CR.stop, CR.irqAck]

theorem waitEnded_of_arbLost (hk : k < n) (h : ArbLostAt b k u) :
    WaitEnded (.err .arbitrationLost) (k + 1) (statusReads b (k + 1) u) u
      (State.finish i (runSteps b (.awaitComplete e n :: ms) v)) := by
  rw [runSteps_awaitComplete_of_arbLost ms hk ((hsame.arbLostAt k).2 h)]
  exact hsame.waitEnded_failWith i (k + 1) .arbitrationLost

theorem waitEnded_of_stillTransferring (h : StillTransferring b n u) :
    WaitEnded (.err .timeout) n (statusReads b n u) u
      (State.finish i (runSteps b (.awaitComplete e n :: ms) v)) := by
  rw [runSteps_awaitComplete_of_stillTransferring ms ((hsame.stillTransferring n).2 h)]
  exact hsame.waitEnded_failWith i n .timeout

end

/-! ## The two waits as operations -/

theorem exec_awaitBusNotBusy_ready {s : State} {b : BusId} (h : Ready s b) (n : Nat) :
    exec (.awaitBusNotBusy n) s = .next
      (State.finish (.awaitBusNotBusy n) (runSteps b [.awaitNotBusy n] (s.latch (.awaitBusNotBusy n)))) :=
  perform_ready h (.awaitBusNotBusy n) [.awaitNotBusy n]

theorem exec_awaitTransferComplete_ready {s : State} {b : BusId} {bits : BitVec 2} {e : AckExpectation}
    (h : Ready s b) (hbits : ackOfBits bits = some e) (n : Nat) :
    exec (.awaitTransferComplete bits n) s = .next
      (State.finish (.awaitTransferComplete bits n)
        (runSteps b [.awaitComplete e n] (s.latch (.awaitTransferComplete bits n)))) := by
  simp [exec, execAwaitTransferComplete, hbits, perform_ready h]

/-- Settles O33: the operation is the one wait, and latching leaves what answers it as it was. -/
theorem awaitBusNotBusyCountsExactly : Obligations.AwaitBusNotBusyCountsExactly := by
  refine ⟨fun s b budget k hready hk hclear => ?_, fun s b budget hready hbusy => ?_⟩
  · obtain ⟨hres, hpoll, hhist⟩ :=
      waitEnded_of_notBusyAt (sameAnswers_latch b s (.awaitBusNotBusy budget)) (.awaitBusNotBusy budget) hk hclear
    exact ⟨_, exec_awaitBusNotBusy_ready hready budget, hres, hpoll, hhist⟩
  · obtain ⟨hres, hpoll, hhist⟩ :=
      waitEnded_of_stillBusy (sameAnswers_latch b s (.awaitBusNotBusy budget)) (.awaitBusNotBusy budget) [] hbusy
    exact ⟨_, exec_awaitBusNotBusy_ready hready budget, hres, hpoll, hhist⟩

/-- Settles O34: the operation is the one wait, and each of its four ends is one of `waitEnded_of_met`,
`waitEnded_of_violated`, `waitEnded_of_arbLost` and `waitEnded_of_stillTransferring`. -/
theorem awaitTransferCompleteJudgesInOrder : Obligations.AwaitTransferCompleteJudgesInOrder := by
  intro s b bits e budget hready hbits
  have hexec := exec_awaitTransferComplete_ready hready hbits budget
  have hsame := sameAnswers_latch b s (.awaitTransferComplete bits budget)
  refine ⟨fun k hk hdone hj => ?_, fun k hk hdone hj => ?_, fun k hk hlost => ?_, fun hstill => ?_⟩
  · obtain ⟨hres, hpoll, hhist⟩ := waitEnded_of_met hsame (.awaitTransferComplete bits budget) hk hdone hj
    exact ⟨_, hexec, hres, hpoll, hhist⟩
  · obtain ⟨hres, hpoll, hhist⟩ := waitEnded_of_violated hsame (.awaitTransferComplete bits budget) [] hk hdone hj
    exact ⟨_, hexec, hres, hpoll, hhist.trans (List.append_assoc ..).symm⟩
  · obtain ⟨hres, hpoll, hhist⟩ := waitEnded_of_arbLost hsame (.awaitTransferComplete bits budget) [] hk hlost
    exact ⟨_, hexec, hres, hpoll, hhist⟩
  · obtain ⟨hres, hpoll, hhist⟩ :=
      waitEnded_of_stillTransferring hsame (.awaitTransferComplete bits budget) [] hstill
    exact ⟨_, hexec, hres, hpoll, hhist⟩

/-! ## `readByte` -/

/-- R165, R108: an admitted `readByte` is the write of its command, then the wait and the read of RXR. -/
theorem exec_readByte_ready {s : State} {b : BusId} (h : Ready s b) (stop : Bool) :
    exec (.readByte stop) s = .next (State.finish (.readByte stop)
      (runSteps b [.awaitComplete .dontCare s.cfg.budgetXfer, .read .txrRxr .outByte]
        ((s.latch (.readByte stop)).regWrite b .crSr (if stop then 0x68 else 0x20)))) := by
  cases stop <;> exact perform_ready h (.readByte _) _

/-- R165, R150: the wait completes whatever RXACK shows; then RXR is read, and holds what was read (log 5). -/
theorem runSteps_awaitComplete_read {b : BusId} {n k : Nat} {u v : State} (hsame : SameAnswers b u v) (hk : k < n)
    (h : CompleteAt b k u) :
    ∃ t, runSteps b [.awaitComplete .dontCare n, .read .txrRxr .outByte] v = (t, none) ∧
      t.outByte = (afterPolls b (k + 1) u).answer b .txrRxr ∧ (t.ctl b).rxr = t.outByte ∧
      t.history = u.history ++ statusReads b (k + 1) u ++ [.read (baseOf u.cfg b) .txrRxr t.outByte] := by
  rw [runSteps_awaitComplete_of_met _ hk ((hsame.completeAt k).2 h) rfl, runSteps_read, runSteps_nil]
  refine ⟨_, rfl, hsame.afterPolls_answer (k + 1) .txrRxr, ?_, ?_⟩
  · simp [State.ctlAfterRead, Controller.observe]
  · simp [hsame.afterPolls_history, hsame.afterPolls_cfg]

/-- Settles O35: after the command the wait either completes and RXR is read (`runSteps_awaitComplete_read`), or ends
the operation (`waitEnded_of_arbLost`, `waitEnded_of_stillTransferring`). -/
theorem readByteReturnsTheReceiveRegister : Obligations.ReadByteReturnsTheReceiveRegister := by
  rintro s u b stop hready rfl
  have hexec := exec_readByte_ready hready stop
  have hsame := (sameAnswers_latch b s (.readByte stop)).regWrite .crSr (if stop then 0x68 else 0x20)
  refine ⟨fun k hk hdone => ?_, fun k hk hlost => ?_, fun hstill => ?_⟩
  · obtain ⟨t, hrun, hout, hrxr, hhist⟩ := runSteps_awaitComplete_read hsame hk hdone
    rw [hrun, finish_ok] at hexec
    exact ⟨_, hexec, rfl, hout, by simpa using hrxr, by simpa using hhist⟩
  · obtain ⟨hres, -, hhist⟩ := waitEnded_of_arbLost hsame (.readByte stop) [.read .txrRxr .outByte] hk hlost
    exact ⟨_, hexec, hres, by rw [hhist, State.regWrite_history]⟩
  · obtain ⟨hres, -, hhist⟩ :=
      waitEnded_of_stillTransferring hsame (.readByte stop) [.read .txrRxr .outByte] hstill
    exact ⟨_, hexec, hres, by rw [hhist, State.regWrite_history]⟩

/-! ## `resetBus` -/

/-- R166, R110: an admitted `resetBus` is the writes of the dummy read and of the stop, then the wait. -/
theorem exec_resetBus_ready {s : State} {b : BusId} (h : Ready s b) :
    exec .resetBus s = .next (State.finish .resetBus (runSteps b [.awaitNotBusy s.cfg.budgetBusy]
      (((s.latch .resetBus).regWrite b .crSr 0x28).regWrite b .crSr 0x41))) :=
  perform_ready h .resetBus (resetBusSteps s.cfg)

/-- Settles O36: the wait ends the operation as it does alone, its trace after that of the two writes. -/
theorem resetBusForcesReadStopAndWait : Obligations.ResetBusForcesReadStopAndWait := by
  rintro s u b hready rfl
  have hexec := exec_resetBus_ready hready
  have hsame := ((sameAnswers_latch b s .resetBus).regWrite .crSr 0x28).regWrite .crSr 0x41
  refine ⟨fun k hk hclear => ?_, fun hbusy => ?_⟩
  · obtain ⟨hres, -, hhist⟩ := waitEnded_of_notBusyAt hsame .resetBus hk hclear
    exact ⟨_, hexec, hres, by simpa using hhist⟩
  · obtain ⟨hres, -, hhist⟩ := waitEnded_of_stillBusy hsame .resetBus [] hbusy
    exact ⟨_, hexec, hres, by simpa using hhist⟩

end Sys2Proof.Machine
end

section
/-! SUPPORT. The Transaction Protocol (spec/43_transaction_protocol.md): the four ends of `startAddressed`, and the
operations whose waits all meet their premises (R252), read off their steps. -/

namespace Sys2Proof.Machine

/-! ## `startAddressed` -/

/-- R190, R105, R107: an admitted `startAddressed` is the writes of the address byte and of 0x90, then the wait. -/
theorem exec_startAddressed_ready {s : State} {b : BusId} (h : Ready s b) (c : BitVec 7) (d : Direction) :
    exec (.startAddressed c d) s = .next (State.finish (.startAddressed c d)
      (runSteps b [.awaitComplete .requireAck s.cfg.budgetXfer]
        (((s.latch (.startAddressed c d)).regWrite b .txrRxr (c ++ directionBit d)).regWrite b .crSr 0x90))) := by
  rw [← addrByte_eq_append]
  exact perform_ready h (.startAddressed c d) (startAddressedSteps s.cfg c d)

/-- Settles O37: after the two writes the wait ends the operation as it does alone, RXACK clear being what RequireAck
asks. -/
theorem startAddressedSendsTheAddressByte : Obligations.StartAddressedSendsTheAddressByte := by
  rintro s u b c d pre hready rfl rfl
  have hexec := exec_startAddressed_ready hready c d
  have hsame :=
    ((sameAnswers_latch b s (.startAddressed c d)).regWrite .txrRxr (c ++ directionBit d)).regWrite .crSr 0x90
  refine ⟨fun k hk hdone hack => ?_, fun k hk hdone hnack => ?_, fun k hk hlost => ?_, fun hstill => ?_⟩
  · obtain ⟨hres, -, hhist⟩ :=
      waitEnded_of_met hsame (.startAddressed c d) (e := .requireAck) hk hdone (by rw [hack]; rfl)
    exact ⟨_, hexec, hres, by simpa using hhist⟩
  · obtain ⟨hres, -, hhist⟩ :=
      waitEnded_of_violated hsame (.startAddressed c d) [] (e := .requireAck) hk hdone (by rw [hnack]; rfl)
    exact ⟨_, hexec, hres, by simpa using hhist⟩
  · obtain ⟨hres, -, hhist⟩ := waitEnded_of_arbLost hsame (.startAddressed c d) [] hk hlost
    exact ⟨_, hexec, hres, by simpa using hhist⟩
  · obtain ⟨hres, -, hhist⟩ := waitEnded_of_stillTransferring hsame (.startAddressed c d) [] hstill
    exact ⟨_, hexec, hres, by simpa using hhist⟩

/-! ## Operations on the active bus -/

theorem chooseBus_of_not_mayActivate {i : Instr} (hi : mayActivate i = false) (s : State) : s.chooseBus i = s := by
  cases i with
  | initController => cases hi
  | _ => rfl

section
variable {i : Instr} {s : State} {b : BusId} (h : Ready s b) (hi : mayActivate i = false)
  (hsteps : stepsOf s.cfg i ≠ []) (hwf : wellFormed i = true) (hlen : blockLength i ≤ s.cfg.maxBlock)
include h hi hsteps hwf hlen

/-- R22, R123: an admitted operation that chooses no bus runs its steps on the active one. -/
theorem exec_ready : exec i s = .next (State.finish i (runSteps b (stepsOf s.cfg i) (s.latch i))) := by
  rw [exec_operation h.idle hsteps hwf hlen, chooseBus_of_not_mayActivate hi, runOnActive]
  exact withActiveBus_ready ((activeBus_latch s i).trans h.activeBus) _

/-- R252: with the premises of its waits met the operation ends with `Ok`, its steps made in full. -/
theorem exec_ready_of_premises (hprem : Premises b (stepsOf s.cfg i) (s.latch i)) :
    ∃ t tr, exec i s = .next t.succeed ∧ RunAdds (stepsOf s.cfg i) (s.latch i) t tr := by
  have hrun : runSteps b (stepsOf s.cfg i) (s.latch i) = (_, none) := Prod.ext rfl ((premises_iff b _ _).1 hprem)
  obtain ⟨tr, hadds⟩ := runSteps_adds hrun
  exact ⟨_, tr, by rw [exec_ready h hi hsteps hwf hlen, hrun, finish_ok], hadds⟩

end

/-! ## Every wait meets its premises -/

theorem wellFormed_of_addressLength_le {n : Nat} (h : n ≤ 4) : addressLengthOk n = true := decide_eq_true h

/-- Settles O38: the steps run in full are those of the address phase (`addressPhase_run`). -/
theorem addressWithOffsetSendsTheAddressPhase : Obligations.AddressWithOffsetSendsTheAddressPhase := by
  intro s b c r n d hready hn hprem
  obtain ⟨hwrites, hreceives, -⟩ := addressPhase_run s.cfg c r n d
  obtain ⟨t, l, hexec, hadds⟩ := exec_ready_of_premises (i := .addressWithOffset c r n d) hready rfl
    (by simp [stepsOf, addressWithOffsetSteps, startAddressedSteps, sendAckedSteps, sendByteSteps])
    (wellFormed_of_addressLength_le hn) (Nat.zero_le _) hprem
  exact ⟨_, l, hexec, rfl, by simpa using hadds.history, hadds.writes.trans hwrites,
    List.eq_nil_of_length_eq_zero (hadds.receives.trans hreceives)⟩

/-- R192: `readBlock` receives its data bytes only. -/
theorem stepReceives_readBlock (p : Params) (c : BitVec 7) (r : BitVec 32) (n m : Nat) :
    stepReceives (readBlockSteps p c r n m) = m := by
  obtain ⟨-, haddr, -⟩ := addressPhase_run p c r n .read
  obtain ⟨-, hdata, -⟩ := dataRead_run p m
  simp [readBlockSteps, stepReceives, stepReceives_append, haddr, hdata]

/-- R193: `writeBlock` receives nothing. -/
theorem stepReceives_writeBlock (p : Params) (c : BitVec 7) (r : BitVec 32) (n : Nat) (bs : List Byte) :
    stepReceives (writeBlockSteps p c r n bs) = 0 := by
  obtain ⟨-, haddr, -⟩ := addressPhase_run p c r n .write
  obtain ⟨-, hdata⟩ := payload_run p bs
  simp [writeBlockSteps, stepReceives, stepReceives_append, haddr, hdata]

/-- Settles O39: `DATA_BUF` starts empty, and the steps run in full deliver there what they read. -/
theorem readBlockDeliversTheReceivedBytes : Obligations.ReadBlockDeliversTheReceivedBytes := by
  intro s b c r n m hready hn hm hprem
  obtain ⟨t, l, hexec, hadds⟩ := exec_ready_of_premises (i := .readBlock c r n m) hready rfl
    (by simp [stepsOf, readBlockSteps]) (wellFormed_of_addressLength_le hn) hm hprem
  have hbuf : t.dataBuf = receivedOf l := hadds.dataBuf (stepsOf_readsToBuffer s.cfg (i := .readBlock c r n m) rfl)
  refine ⟨_, l, hexec, rfl, by simpa using hadds.history, hbuf, ?_, hadds.writes.trans (stepWrites_stepsOf s.cfg rfl)⟩
  exact (congrArg List.length hbuf).trans (hadds.receives.trans (stepReceives_readBlock s.cfg c r n m))

/-- Settles O40: the steps run in full are those of the address phase and of the payload, which receive nothing. -/
theorem writeBlockSendsThePayload : Obligations.WriteBlockSendsThePayload := by
  intro s b c r n bytes hready hn hlen hprem
  obtain ⟨t, l, hexec, hadds⟩ := exec_ready_of_premises (i := .writeBlock c r n bytes) hready rfl
    (by simp [stepsOf, writeBlockSteps]) (wellFormed_of_addressLength_le hn) hlen hprem
  exact ⟨_, l, hexec, rfl, by simpa using hadds.history, hadds.writes.trans (stepWrites_stepsOf s.cfg rfl),
    List.eq_nil_of_length_eq_zero (hadds.receives.trans (stepReceives_writeBlock s.cfg c r n bytes))⟩

/-! ## `probe` -/

theorem Controller.eq_of_registers {c c' : Controller} (hwrite : ∀ off, writeSide c' off = writeSide c off)
    (hrxr : c'.rxr = c.rxr) (hsr : c'.sr = c.sr) (henv : c'.env = c.env) : c' = c := by
  cases c
  cases c'
  have hlo := hwrite .prerLo
  have hhi := hwrite .prerHi
  have hctr := hwrite .ctr
  have htxr := hwrite .txrRxr
  have hcr := hwrite .crSr
  have hsladr := hwrite .sladr
  simp_all [writeSide]

/-- R241: steps that are answered alike leave the same register block of their bus, if they found the same: the trace
decides its registers (`runSteps_block`). -/
theorem runSteps_ctl_alike {b : BusId} {s s' : State} (h : SameAnswers b s s') (hctl : s'.ctl b = s.ctl b)
    (l : List SeqStep) : (runSteps b l s').1.ctl b = (runSteps b l s).1.ctl b := by
  obtain ⟨hans, -⟩ := runSteps_alike h l
  obtain ⟨tr, hblock⟩ := runSteps_block b l s
  obtain ⟨tr', hblock'⟩ := runSteps_block b l s'
  obtain rfl : tr' = tr := by simpa [hblock.history, hblock'.history, h.history] using hans.history
  refine Controller.eq_of_registers (fun off => ?_) ?_ ?_ hans.env
  · rw [hblock.write, hblock'.write, hctl]
  · rw [hblock.rxr, hblock'.rxr, hctl]
  · rw [hblock.sr, hblock'.sr, hctl]

/-- The result of an operation is what its steps raise, whatever the operation. -/
theorem finish_result_eq {r r' : State × Option ErrorKind} (i i' : Instr) (hf : r'.2 = r.2) :
    (State.finish i' r').result = (State.finish i r).result := by
  rcases r with ⟨u, _ | k⟩ <;> rcases r' with ⟨u', o⟩ <;> obtain rfl := hf <;> simp

/-- R44, R241: what an operation latches decides no answer. -/
theorem sameAnswers_latch_latch (b : BusId) (s : State) (i i' : Instr) : SameAnswers b (s.latch i) (s.latch i') :=
  ⟨by simp, by simp, by simp⟩

/-- Settles O41: both run the same steps, and are answered alike. -/
theorem probeEndsAsItsReadBlock : Obligations.ProbeEndsAsItsReadBlock := by
  intro s b c hready
  have hprobe := exec_ready (i := .probe c) hready rfl (by simp [stepsOf, probeSteps, readBlockSteps]) rfl
    (Nat.zero_le _)
  have hread := exec_ready (i := .readBlock c 0 1 1) hready rfl (by simp [stepsOf, readBlockSteps]) rfl
    (one_le_maxBlock hready.valid)
  have hsame := sameAnswers_latch_latch b s (.readBlock c 0 1 1) (.probe c)
  obtain ⟨hans, hfail⟩ := runSteps_alike hsame (probeSteps s.cfg c)
  have hctl : ∀ b', (runSteps b (probeSteps s.cfg c) (s.latch (.probe c))).1.ctl b' =
      (runSteps b (probeSteps s.cfg c) (s.latch (.readBlock c 0 1 1))).1.ctl b' := by
    intro b'
    by_cases hb : b' = b
    · rw [hb]
      exact runSteps_ctl_alike hsame (by simp) _
    · rw [(runSteps_frame b _ _).other b' hb, (runSteps_frame b _ _).other b' hb, State.latch_ctl, State.latch_ctl]
  refine ⟨_, _, hprobe, hread, finish_result_eq _ _ hfail, ?_, ?_, ?_, fun hprem => ?_⟩
  · rw [finish_history, finish_history]
    exact hans.history
  · exact (finish_ctl _ _ .bus0).trans ((hctl .bus0).trans (finish_ctl _ _ .bus0).symm)
  · exact (finish_ctl _ _ .bus1).trans ((hctl .bus1).trans (finish_ctl _ _ .bus1).symm)
  · have hok := (finish_result_ok_iff (.probe c) _).2 ((premises_iff b _ _).1 hprem)
    exact ⟨hok, by rw [Result.present, stepsOf, hok]; rfl⟩

end Sys2Proof.Machine
end

section
/-! SUPPORT. The transactions in the ideal environment (spec/45_controller_environment.md R250): what each of their
steps adds to the trace there, composed along the steps. -/

namespace Sys2Proof.Machine

/-! ## The answers of the ideal environment -/

namespace IdealEnv

variable {b : BusId} {q : List Byte} {d : Byte} {s : State}

theorem congr {t : State} (h : IdealEnv b q d s) (he : (t.ctl b).env = (s.ctl b).env) : IdealEnv b q d t := he.trans h

theorem regWrite (h : IdealEnv b q d s) (off : RegOffset) (v : Byte) : IdealEnv b q d (s.regWrite b off v) :=
  h.congr (by simp)

theorem answer_status (h : IdealEnv b q d s) : s.answer b .crSr = 0x00 := by
  rw [State.answer, show (s.ctl b).env = _ from h]
  rfl

theorem pollRead (h : IdealEnv b q d s) : IdealEnv b q d (s.pollRead b) := by
  rw [IdealEnv, State.pollRead_ctl_same, ctlAfterRead_env, show (s.ctl b).env = _ from h]
  rfl

theorem answer_receive (h : IdealEnv b q d s) : s.answer b .txrRxr = q.headD d := by
  rw [State.answer, show (s.ctl b).env = _ from h]
  cases q <;> rfl

theorem regRead_receive (h : IdealEnv b q d s) : IdealEnv b q.tail d (s.regRead b .txrRxr) := by
  rw [IdealEnv, State.regRead_ctl_same, ctlAfterRead_env, show (s.ctl b).env = _ from h]
  cases q <;> rfl

theorem notBusyAt (h : IdealEnv b q d s) : NotBusyAt b 0 s :=
  ⟨fun _ hj => absurd hj (Nat.not_lt_zero _), by rw [statusAnswer, h.answer_status]; rfl⟩

theorem completeAt (h : IdealEnv b q d s) : CompleteAt b 0 s :=
  ⟨fun _ hj => absurd hj (Nat.not_lt_zero _), by rw [statusAnswer, h.answer_status]; exact ⟨rfl, rfl⟩⟩

/-- R162, R163: the one status read of a wait. -/
theorem setPoll_pollRead (h : IdealEnv b q d s) : IdealEnv b q d ((s.setPoll 0).pollRead b) ∧
    ((s.setPoll 0).pollRead b).history = s.history ++ [.read (baseOf s.cfg b) .crSr 0x00] :=
  ⟨(h.congr (by simp) : IdealEnv b q d (s.setPoll 0)).pollRead, by simp [h.answer_status]⟩

end IdealEnv

/-! ## Runs in the ideal environment -/

/-- In the ideal environment with receive default `d` the steps `l` on bus `b`, at `base`, end without a failure,
take the receive queue from `q` to `q'` and add `tr` to the trace. -/
def RunsIdeally (b : BusId) (base : Addr) (d : Byte) (l : List SeqStep) (q q' : List Byte) (tr : List Access) : Prop :=
  ∀ s, IdealEnv b q d s → baseOf s.cfg b = base →
    ∃ t, runSteps b l s = (t, none) ∧ IdealEnv b q' d t ∧ t.history = s.history ++ tr

theorem idealSendAll_cons (base : Addr) (v : Byte) (vs : List Byte) : idealSendAll base (v :: vs) =
    idealSend base v (CR.sendByteCommand false vs.isEmpty) ++ idealSendAll base vs := by
  obtain ⟨h10, -, h50, -⟩ := commandBytesOfTheOperations
  cases vs with
  | nil => rw [List.isEmpty_nil, h50]; rfl
  | cons w ws => rw [List.isEmpty_cons, h10]; rfl

namespace RunsIdeally

variable {b : BusId} {base : Addr} {d : Byte} {q : List Byte}

theorem nil : RunsIdeally b base d [] q q [] := fun s henv _ => ⟨s, rfl, henv, (List.append_nil _).symm⟩

theorem append {l m : List SeqStep} {q₁ q₂ : List Byte} {tr tr' : List Access} (hl : RunsIdeally b base d l q q₁ tr)
    (hm : RunsIdeally b base d m q₁ q₂ tr') : RunsIdeally b base d (l ++ m) q q₂ (tr ++ tr') := by
  intro s henv hbase
  obtain ⟨t, hrun, henv', hhist⟩ := hl s henv hbase
  have hcfg : t.cfg = s.cfg := by simpa [hrun] using (runSteps_frame b l s).cfg
  obtain ⟨u, hrun', henv'', hhist'⟩ := hm t henv' (by rw [hcfg, hbase])
  exact ⟨u, by rw [runSteps_append, hrun]; exact hrun', henv'', by rw [hhist', hhist, List.append_assoc]⟩

/-! ### One step -/

theorem write (off : RegOffset) (v : Byte) : RunsIdeally b base d [.write off v] q q [.write base off v] := by
  rintro s henv rfl
  exact ⟨_, runSteps_write b off v [] s, henv.regWrite off v, State.regWrite_history b off v s⟩

/-- R165: a receive read takes the head of the queue, or the default. -/
theorem receive (dest : Dest) :
    RunsIdeally b base d [.read .txrRxr dest] q q.tail [.read base .txrRxr (q.headD d)] := by
  rintro s henv rfl
  refine ⟨_, runSteps_read b .txrRxr dest [] s, henv.regRead_receive.congr (by simp), ?_⟩
  simp [henv.answer_receive]

theorem awaitNotBusy {n : Nat} (hn : 0 < n) :
    RunsIdeally b base d [.awaitNotBusy n] q q [.read base .crSr 0x00] := by
  rintro s henv rfl
  exact ⟨_, runSteps_awaitNotBusy_of_notBusyAt [] hn henv.notBusyAt, henv.setPoll_pollRead⟩

theorem awaitComplete {n : Nat} (hn : 0 < n) {e : AckExpectation} (he : ackJudge e false = .met) :
    RunsIdeally b base d [.awaitComplete e n] q q [.read base .crSr 0x00] := by
  rintro s henv rfl
  exact ⟨_, runSteps_awaitComplete_of_met [] hn henv.completeAt (by rw [statusAnswer, henv.answer_status]; exact he),
    henv.setPoll_pollRead⟩

/-! ### The phases of a transaction -/

variable {p : Params} (hbudget : 0 < p.budgetXfer)
include hbudget

theorem sendAcked (v : Byte) (start stop : Bool) : RunsIdeally b base d (sendAckedSteps p v start stop) q q
    (idealSend base v (CR.sendByteCommand start stop)) :=
  ((write .txrRxr v).append (write .crSr _)).append (awaitComplete hbudget rfl)

theorem bodyBytes (bs : List Byte) :
    RunsIdeally b base d (bodyBytesSteps p bs) q q (bs.flatMap fun v => idealSend base v 0x10) := by
  induction bs with
  | nil => exact nil
  | cons v bs ih => exact (sendAcked hbudget v false false).append ih

theorem startAddressed (c : BitVec 7) (dir : Direction) :
    RunsIdeally b base d (startAddressedSteps p c dir) q q (idealSend base (c ++ directionBit dir) 0x90) := by
  rw [← addrByte_eq_append]
  exact sendAcked hbudget (addrByte c dir) true false

theorem addressPhase (c : BitVec 7) (r : BitVec 32) (n : Nat) (dir : Direction) :
    RunsIdeally b base d (addressWithOffsetSteps p c r n dir) q q (idealAddress base c r n dir) := by
  refine ((startAddressed hbudget c .write).append (bodyBytes hbudget _)).append ?_
  cases dir with
  | read => exact startAddressed hbudget c .read
  | write => exact nil

theorem payload (bs : List Byte) : RunsIdeally b base d (payloadSteps p bs) q q (idealSendAll base bs) := by
  induction bs with
  | nil => exact nil
  | cons v bs ih =>
    rw [idealSendAll_cons]
    exact (sendAcked hbudget v false bs.isEmpty).append ih

theorem readByte (stop : Bool) : RunsIdeally b base d (readByteSteps p stop .dataBuf) q q.tail
    (idealReceive base (CR.readByteCommand stop) (q.headD d)) :=
  ((write .crSr _).append (awaitComplete hbudget rfl)).append (receive .dataBuf)

end RunsIdeally

/-! ## The bytes received -/

@[simp] theorem simReceived_length (q : List Byte) (d : Byte) (m : Nat) : (simReceived q d m).length = m := by
  simp [simReceived]
  omega

theorem simReceived_succ (q : List Byte) (d : Byte) (m : Nat) :
    simReceived q d (m + 1) = q.headD d :: simReceived q.tail d m := by
  cases q <;> simp [simReceived, List.replicate_succ]

theorem idealReceiveAll_cons (base : Addr) (v : Byte) (vs : List Byte) :
    idealReceiveAll base (v :: vs) =
      idealReceive base (CR.readByteCommand (vs.length == 0)) v ++ idealReceiveAll base vs := by
  cases vs <;> rfl

/-- R192, R165: every byte received but the last is asked for with 0x20, the last with 0x68. -/
theorem RunsIdeally.dataRead {b : BusId} {base : Addr} {d : Byte} {p : Params} (hbudget : 0 < p.budgetXfer)
    (q : List Byte) (m : Nat) : RunsIdeally b base d (dataReadSteps p m) q (q.drop m)
      (idealReceiveAll base (simReceived q d m)) := by
  induction m generalizing q with
  | zero => exact (show simReceived q d 0 = [] by simp [simReceived]) ▸ nil
  | succ m ih =>
    rw [simReceived_succ, idealReceiveAll_cons, simReceived_length, ← List.drop_tail]
    exact (readByte hbudget (m == 0)).append (ih q.tail)

/-! ## What the traces receive, and how long they are -/

section
variable (base : Addr)

theorem receivedOf_idealSend (v cmd : Byte) : receivedOf (idealSend base v cmd) = [] := rfl

theorem receivedOf_flatMap_idealSend (cmd : Byte) (bs : List Byte) :
    receivedOf (bs.flatMap fun v => idealSend base v cmd) = [] := by
  induction bs with
  | nil => rfl
  | cons v bs ih => rw [List.flatMap_cons, receivedOf_append, ih, receivedOf_idealSend, List.append_nil]

theorem receivedOf_idealAddress (c : BitVec 7) (r : BitVec 32) (n : Nat) (dir : Direction) :
    receivedOf (idealAddress base c r n dir) = [] := by
  cases dir <;> simp [idealAddress, receivedOf_append, receivedOf_idealSend, receivedOf_flatMap_idealSend]

theorem receivedOf_idealReceiveAll (vs : List Byte) : receivedOf (idealReceiveAll base vs) = vs := by
  induction vs with
  | nil => rfl
  | cons v vs ih => rw [idealReceiveAll_cons, receivedOf_append, ih]; rfl

theorem idealAddress_length_write (c : BitVec 7) (r : BitVec 32) (n : Nat) :
    (idealAddress base c r n .write).length = 3 + 3 * n := by
  simp [idealAddress, idealSend, List.length_flatMap]
  omega

theorem idealAddress_length_read (c : BitVec 7) (r : BitVec 32) (n : Nat) :
    (idealAddress base c r n .read).length = 3 + 3 * n + 3 := by
  simp [idealAddress, idealSend, List.length_flatMap]
  omega

theorem idealReceiveAll_length (vs : List Byte) : (idealReceiveAll base vs).length = 3 * vs.length := by
  induction vs with
  | nil => rfl
  | cons v vs ih =>
    simp [idealReceiveAll_cons, idealReceive, ih]
    omega

theorem idealSendAll_length (vs : List Byte) : (idealSendAll base vs).length = 3 * vs.length := by
  induction vs with
  | nil => rfl
  | cons v vs ih =>
    simp [idealSendAll_cons, idealSend, ih]
    omega

end

/-! ## The block transactions -/

/-- An admitted operation whose steps run ideally ends with `Ok` and their trace. -/
theorem exec_ready_of_runsIdeally {i : Instr} {s : State} {b : BusId} {q q' : List Byte} {d : Byte}
    {tr : List Access} (h : Ready s b) (hi : mayActivate i = false) (hsteps : stepsOf s.cfg i ≠ [])
    (hwf : wellFormed i = true) (hlen : blockLength i ≤ s.cfg.maxBlock) (henv : IdealEnv b q d s)
    (hideal : RunsIdeally b (baseOf s.cfg b) d (stepsOf s.cfg i) q q' tr) :
    ∃ t : State, exec i s = .next t.succeed ∧ IdealEnv b q' d t.succeed ∧ t.history = s.history ++ tr ∧
      (ReadsToBuffer (stepsOf s.cfg i) → t.dataBuf = (s.latch i).dataBuf ++ receivedOf tr) := by
  obtain ⟨t, hrun, henv', hhist⟩ := hideal (s.latch i) (henv.congr (by simp)) (by simp)
  obtain ⟨tr', hadds⟩ := runSteps_adds hrun
  obtain rfl : tr = tr' := List.append_cancel_left (hhist.symm.trans hadds.history)
  exact ⟨t, by rw [exec_ready h hi hsteps hwf hlen, hrun, finish_ok], henv'.congr (by simp), by simpa using hhist,
    hadds.dataBuf⟩

/-- Settles O42: one status read, the address phase and the data bytes, each run ideally; `DATA_BUF` starts empty. -/
theorem readBlockTraceInTheIdealEnvironment : Obligations.ReadBlockTraceInTheIdealEnvironment := by
  intro s b c r n m q d hready hn hm hbusy hxfer henv
  obtain ⟨t, hexec, henv', hhist, hbuf⟩ := exec_ready_of_runsIdeally (i := .readBlock c r n m) hready rfl
    (by simp [stepsOf, readBlockSteps]) (wellFormed_of_addressLength_le hn) hm henv
    (((RunsIdeally.awaitNotBusy hbusy).append (.addressPhase hxfer c r n .read)).append (.dataRead hxfer q m))
  have hdata := hbuf (stepsOf_readsToBuffer s.cfg (i := .readBlock c r n m) rfl)
  rw [receivedOf_append, receivedOf_append, receivedOf_idealAddress, receivedOf_idealReceiveAll] at hdata
  rw [← List.append_assoc, ← List.append_assoc] at hhist
  refine ⟨_, hexec, rfl, hdata, henv', hhist, (congrArg List.length hhist).trans ?_⟩
  simp only [List.length_append, List.length_singleton, idealAddress_length_read, idealReceiveAll_length,
    simReceived_length]
  omega

/-- Settles O43: one status read, the address phase and the payload, each run ideally. -/
theorem writeBlockTraceInTheIdealEnvironment : Obligations.WriteBlockTraceInTheIdealEnvironment := by
  intro s b c r n bytes q d hready hn hlen hbusy hxfer henv
  obtain ⟨t, hexec, henv', hhist, -⟩ := exec_ready_of_runsIdeally (i := .writeBlock c r n bytes) hready rfl
    (by simp [stepsOf, writeBlockSteps]) (wellFormed_of_addressLength_le hn) hlen henv
    (((RunsIdeally.awaitNotBusy hbusy).append (.addressPhase hxfer c r n .write)).append (.payload hxfer bytes))
  rw [← List.append_assoc, ← List.append_assoc] at hhist
  refine ⟨_, hexec, rfl, henv', hhist, (congrArg List.length hhist).trans ?_⟩
  simp only [List.length_append, List.length_singleton, idealAddress_length_write, idealSendAll_length]
  omega

end Sys2Proof.Machine
end

section
/-! SUPPORT. The framing an operation asks of the bus (spec/43_transaction_protocol.md R196): it depends on the writes
of the trace only, and those of a successful transaction are known (`operationsWriteTheirListUpToTheFailure`). -/

namespace Sys2Proof.Machine

/-! ## What writes ask -/

/-- `wireItems` of the writes of a trace, when TXR holds `txr` before them. -/
def writeItems : Byte → List (RegOffset × Byte) → List WireItem
  | _, [] => []
  | txr, (.crSr, c) :: w => commandItems txr c ++ writeItems txr w
  | _, (.txrRxr, v) :: w => writeItems v w
  | txr, _ :: w => writeItems txr w

/-- R243: reads ask nothing. -/
theorem wireItems_eq_writeItems (txr : Byte) (tr : List Access) : wireItems txr tr = writeItems txr (writesOf tr) := by
  induction tr generalizing txr with
  | nil => rfl
  | cons a tr ih =>
    cases a with
    | read => exact ih txr
    | write base off v =>
      cases off with
      | crSr => exact congrArg _ (ih txr)
      | txrRxr => exact ih v
      | prerLo | prerHi | ctr | sladr => exact ih txr

theorem writeItems_append (txr : Byte) (w : List (RegOffset × Byte)) :
    ∃ txr', ∀ w', writeItems txr (w ++ w') = writeItems txr w ++ writeItems txr' w' := by
  induction w generalizing txr with
  | nil => exact ⟨txr, fun _ => rfl⟩
  | cons x w ih =>
    obtain ⟨off, v⟩ := x
    cases off with
    | crSr =>
      obtain ⟨txr', h⟩ := ih txr
      exact ⟨txr', fun w' => by simp [writeItems, h]⟩
    | txrRxr => exact ih v
    | prerLo | prerHi | ctr | sladr => exact ih txr

/-- The framing that writes ask, whatever TXR holds before them. -/
def Asks (w : List (RegOffset × Byte)) (items : List WireItem) : Prop := ∀ txr, writeItems txr w = items

namespace Asks

theorem nil : Asks [] [] := fun _ => rfl

theorem append {w w' : List (RegOffset × Byte)} {items items' : List WireItem} (h : Asks w items)
    (h' : Asks w' items') : Asks (w ++ w') (items ++ items') := by
  intro txr
  obtain ⟨txr', happ⟩ := writeItems_append txr w
  rw [happ, h, h']

theorem startByte (v : Byte) : Asks [(.txrRxr, v), (.crSr, 0x90)] [.start, .send v] := fun _ => rfl

theorem bodyByte (v : Byte) : Asks [(.txrRxr, v), (.crSr, 0x10)] [.send v] := fun _ => rfl

theorem lastByte (v : Byte) : Asks [(.txrRxr, v), (.crSr, 0x50)] [.send v, .stop] := fun _ => rfl

theorem bodyRead : Asks [(.crSr, 0x20)] [.receive false] := fun _ => rfl

theorem lastRead : Asks [(.crSr, 0x68)] [.receive true, .stop] := fun _ => rfl

theorem bodyBytes (bs : List Byte) :
    Asks (bs.flatMap fun v => [(.txrRxr, v), (.crSr, 0x10)]) (bs.map .send) := by
  induction bs with
  | nil => exact nil
  | cons v bs ih => exact (bodyByte v).append ih

/-- R190, R191: a read ends its address phase with a repeated start. -/
theorem addressRead (c : BitVec 7) (r : BitVec 32) (n : Nat) : Asks (addressWrites c r n .read)
    ([.start, .send (c ++ 0#1)] ++ (regAddrBytes r n).map .send ++ [.start, .send (c ++ 1#1)]) :=
  ((startByte _).append (bodyBytes _)).append (startByte _)

theorem addressWrite (c : BitVec 7) (r : BitVec 32) (n : Nat) : Asks (addressWrites c r n .write)
    ([.start, .send (c ++ 0#1)] ++ (regAddrBytes r n).map .send) := by
  simpa [addressWrites] using (startByte (c ++ 0#1)).append (bodyBytes (regAddrBytes r n))

/-- R193: the stop is asked with the last byte. -/
theorem payload (v : Byte) (vs : List Byte) : Asks (payloadWrites (v :: vs)) ((v :: vs).map .send ++ [.stop]) := by
  induction vs generalizing v with
  | nil => exact lastByte v
  | cons w vs ih => exact (bodyByte v).append (ih w)

theorem bodyReads (m : Nat) : Asks (List.replicate m (.crSr, 0x20)) (List.replicate m (.receive false)) := by
  induction m with
  | zero => exact nil
  | succ m ih => exact bodyRead.append ih

end Asks

/-! ## The block transactions -/

/-- R196: a successful operation asks the framing of the writes of its pseudocode. -/
theorem wireItems_of_asks {i : Instr} {s t : State} {items : List WireItem} (hrow : rowByte i = none)
    (hexec : exec i s = .next t) (hok : t.result = .ok) (h : Asks (operationWrites s.cfg i) items) (txr : Byte) :
    wireItems txr (t.history.drop s.history.length) = items := by
  obtain ⟨l, hhist, hwrites, -⟩ := operationsWriteTheirListUpToTheFailure i s t hrow hexec
  rw [hhist, List.drop_left, wireItems_eq_writeItems, hwrites hok, h txr]

/-- Settles O44: the address phase for a read, the commands 0x20 and the one 0x68 ask the framing of R196. -/
theorem readBlockFramingOnTheBus : Obligations.ReadBlockFramingOnTheBus := fun _ _ c r n m txr hexec hok =>
  wireItems_of_asks (i := .readBlock c r n (m + 1)) rfl hexec hok
    (((Asks.addressRead c r n).append (.bodyReads m)).append .lastRead) txr

/-- Settles O45: the address phase for a write and the payload ask the framing of R196. -/
theorem writeBlockFramingOnTheBus : Obligations.WriteBlockFramingOnTheBus := by
  intro s t c r n v vs txr hexec hok
  rw [wireItems_of_asks (i := .writeBlock c r n (v :: vs)) rfl hexec hok
    ((Asks.addressWrite c r n).append (.payload v vs)) txr]
  simp

end Sys2Proof.Machine
end

section
/-! SUPPORT. Lifecycle and configuration (spec/44_lifecycle.md): the prescaler, the writes of `initController` and the wait
after them, and the operand that nothing reads. -/

namespace Sys2Proof.Machine

/-! ## The prescaler -/

/-- R221, R222: the three rejections in one condition. -/
theorem prescaler_eq_ite (input hz : Nat) : prescaler input hz =
    if hz = 0 ∨ input / (5 * hz) = 0 ∨ 65535 < input / (5 * hz) - 1 then none else some (input / (5 * hz) - 1) := by
  rw [ite_or, ite_or]
  rfl

theorem prescaler_eq_some_iff {input hz p : Nat} :
    prescaler input hz = some p ↔ hz ≠ 0 ∧ input / (5 * hz) = p + 1 ∧ p ≤ 65535 := by
  rw [prescaler_eq_ite, Option.ite_none_left_eq_some, Option.some.injEq]
  generalize input / (5 * hz) = q
  omega

/-- Settles O19, from the two characterizations of the prescaler. -/
theorem prescalerExistsExactlyWhenRepresentable : Obligations.PrescalerExistsExactlyWhenRepresentable := by
  refine fun input hz => ⟨?_, fun p hp => ?_⟩
  · simp only [prescaler_eq_ite, ite_eq_left_iff, reduceCtorEq, imp_false, not_not]
  · obtain ⟨-, hq, hle⟩ := prescaler_eq_some_iff.1 hp
    exact ⟨by rw [hq]; rfl, hle⟩

/-- Settles O20: `p + 1` is the floored quotient. -/
theorem generatedClockIsAtLeastTheRequested : Obligations.GeneratedClockIsAtLeastTheRequested := by
  intro input hz p hp
  obtain ⟨-, hq, -⟩ := prescaler_eq_some_iff.1 hp
  calc hz * (5 * (p + 1)) = 5 * hz * (input / (5 * hz)) := by rw [hq]; ring
    _ ≤ input := Nat.mul_div_le input (5 * hz)

/-- R104: the low byte is that of the remainder by 256, and the high byte that of the quotient. -/
theorem prescalerLo_eq_mod (P : Nat) : prescalerLo P = BitVec.ofNat 8 (P % 256) :=
  BitVec.eq_of_toNat_eq (by simp [prescalerLo])

theorem prescalerHi_eq_div (P : Nat) : prescalerHi P = BitVec.ofNat 8 (P / 256) := by
  rw [prescalerHi, Nat.shiftRight_eq_div_pow]

/-! ## A rejected clock -/

/-- Settles O47: the rejection records its kind in the state with the operands latched, already idle. -/
theorem initializeRejectsUnusableClocks : Obligations.InitializeRejectsUnusableClocks := by
  intro s hz a hidle hp
  have hfail : (s.latch (.initController hz a)).failWith (.initController hz a) .invalidClock =
      (s.latch (.initController hz a)).raise .invalidClock := rfl
  rw [exec_of_execNext hidle rfl (.badClock hz a rfl hp), hfail, raise_of_idle (by simpa using hidle)]
  rfl

/-! ## `initController` -/

/-- R220: the bus that `initController` takes. -/
theorem ready_resolveBus {s : State} {b : BusId} (hvalid : s.cfg.Valid) (hidle : s.phase = .idle)
    (hbus : s.activeBase = some (baseOf s.cfg b) ∨ (s.activeBase = none ∧ b = .bus0)) : Ready s.resolveBus b := by
  refine ⟨by simpa using hvalid, by simpa using hidle, ?_⟩
  rcases hbus with hset | ⟨hunset, rfl⟩
  · rw [State.resolveBus_set s hset, hset]
  · rw [State.resolveBus_unset s hunset, State.resolveBus_cfg]
    rfl

/-- R220, R166: the writes `initController` makes before its wait. -/
def State.initWrites (b : BusId) (P : Nat) (s : State) : State :=
  (((((((s.regWrite b .ctr 0x00).regWrite b .crSr 0x01).regWrite b .prerLo (BitVec.ofNat 8 (P % 256))).regWrite b
    .prerHi (BitVec.ofNat 8 (P / 256))).regWrite b .ctr 0x80).regWrite b .crSr 0x28).regWrite b .crSr 0x41)

/-- R21: their trace. -/
def initAccesses (base : Addr) (P : Nat) : List Access :=
  [.write base .ctr 0x00, .write base .crSr 0x01, .write base .prerLo (BitVec.ofNat 8 (P % 256)),
    .write base .prerHi (BitVec.ofNat 8 (P / 256)), .write base .ctr 0x80, .write base .crSr 0x28,
    .write base .crSr 0x41]

theorem runSteps_initSteps (b : BusId) (p : Params) (P : Nat) (s : State) :
    runSteps b (initSteps p P) s = runSteps b [.awaitNotBusy p.budgetBusy] (s.initWrites b P) := by
  rw [initSteps, prescalerLo_eq_mod, prescalerHi_eq_div]
  rfl

theorem ctl_withHistory (s : State) (l : List Access) (b : BusId) :
    ({ s with history := l } : State).ctl b = s.ctl b := by
  cases b <;> rfl

/-- R241: the answers after the writes depend on them through the history only. -/
theorem SameAnswers.initWrites {b : BusId} {s t : State} (h : SameAnswers b s t) (P : Nat) :
    SameAnswers b { s with history := s.history ++ initAccesses (baseOf s.cfg b) P } (t.initWrites b P) :=
  ⟨by simpa [State.initWrites] using h.cfg, by simpa [State.initWrites, ctl_withHistory] using h.env,
    by simp [State.initWrites, initAccesses, h.cfg, h.history]⟩

/-- R220: with a usable clock and a bus, `initController` is its seven writes on that bus, then the wait. -/
theorem exec_initController {s : State} {b : BusId} {hz P : Nat} (a : Byte) (hvalid : s.cfg.Valid)
    (hidle : s.phase = .idle) (hbus : s.activeBase = some (baseOf s.cfg b) ∨ (s.activeBase = none ∧ b = .bus0))
    (hP : prescaler s.cfg.inputClockHz hz = some P) :
    ∃ v, SameAnswers b { s with history := s.history ++ initAccesses (baseOf s.cfg b) P } v ∧
      v.activeBase = some (baseOf s.cfg b) ∧
      exec (.initController hz a) s = .next (State.finish (.initController hz a)
        (runSteps b [.awaitNotBusy s.cfg.budgetBusy] v)) := by
  have hready : Ready (s.latch (.initController hz a)).resolveBus b :=
    ready_resolveBus (by simpa using hvalid) (by simpa using hidle) (by simpa using hbus)
  have hsteps : stepsOf s.cfg (.initController hz a) = initSteps s.cfg P := by rw [stepsOf, hP]
  refine ⟨(s.latch (.initController hz a)).resolveBus.initWrites b P,
    SameAnswers.initWrites ⟨by simp, by simp, by simp⟩ P, by simpa [State.initWrites] using hready.active, ?_⟩
  rw [exec_of_execNext hidle rfl (.ran (i := .initController hz a) b hready.activeBus
    (by simp [hsteps, initSteps]) rfl (Nat.zero_le _)), hsteps, runSteps_initSteps]
  rfl

theorem lastWritten_statusReads (off : RegOffset) (b : BusId) (n : Nat) (s : State) (old : Byte) :
    lastWritten off (statusReads b n s) old = old := by
  refine lastWritten_of_not_mem off _ old fun base v hmem => ?_
  obtain ⟨v', hread⟩ := statusReads_access b n s _ hmem
  cases hread

/-- R225: the seven writes decide the registers of the bus, the status reads after them notwithstanding. -/
theorem registers_of_initAccesses {i : Instr} {s t u : State} {b : BusId} {P n : Nat} (hvalid : s.cfg.Valid)
    (hexec : exec i s = .next t) (hactive : t.activeBase = some (baseOf s.cfg b))
    (hhist : t.history = s.history ++ initAccesses (baseOf s.cfg b) P ++ statusReads b n u) :
    (t.ctl b).prerLo = BitVec.ofNat 8 (P % 256) ∧ (t.ctl b).prerHi = BitVec.ofNat 8 (P / 256) ∧
      (t.ctl b).ctr = 0x80 ∧ (t.ctl b).cr = 0x41 ∧ (t.ctl b).txr = (s.ctl b).txr ∧
      (t.ctl b).sladr = (s.ctl b).sladr := by
  have hreg (off : RegOffset) : writeSide (t.ctl b) off =
      lastWritten off (initAccesses (baseOf s.cfg b) P) (writeSide (s.ctl b) off) := by
    rw [registersHoldTheLastByteWritten i s t b off hvalid hexec hactive, hhist, List.append_assoc, List.drop_left,
      lastWritten_append, lastWritten_statusReads]
  exact ⟨hreg .prerLo, hreg .prerHi, hreg .ctr, hreg .crSr, hreg .txrRxr, hreg .sladr⟩

/-- Settles O48: the wait after the seven writes is answered as in `u`, and so ends as R162 says; the trace decides
the registers. -/
theorem initializeProgramsTheController : Obligations.InitializeProgramsTheController := by
  rintro s u b hz P a ws hvalid hidle hbus hP rfl rfl
  obtain ⟨v, hsame, hv, hexec⟩ := exec_initController a hvalid hidle hbus hP
  have hactive := (finish_activeBase (.initController hz a) _).trans
    ((runSteps_frame b [.awaitNotBusy s.cfg.budgetBusy] v).activeBase.trans hv)
  refine ⟨fun k hk hclear => ?_, fun hbusy => ?_⟩
  · obtain ⟨hres, -, hhist⟩ := waitEnded_of_notBusyAt hsame (.initController hz a) hk hclear
    exact ⟨_, hexec, hres, hactive, hhist, registers_of_initAccesses hvalid hexec hactive hhist⟩
  · obtain ⟨hres, -, hhist⟩ := waitEnded_of_stillBusy hsame (.initController hz a) [] hbusy
    exact ⟨_, hexec, hres, hactive, hhist, registers_of_initAccesses hvalid hexec hactive hhist⟩

/-! ## The slave address -/

/-- R223: only the operand register that latches `slaveAddress` replaced. -/
def State.setSlaveAddress (a : Byte) (s : State) : State := { s with operands := { s.operands with slaveAddress := a } }

section
variable (a : Byte) (b : BusId) (s : State)

@[simp] theorem answer_setSlaveAddress (off : RegOffset) : (s.setSlaveAddress a).answer b off = s.answer b off := by
  cases b <;> rfl

@[simp] theorem regWrite_setSlaveAddress (off : RegOffset) (v : Byte) :
    (s.setSlaveAddress a).regWrite b off v = (s.regWrite b off v).setSlaveAddress a := by cases b <;> rfl

@[simp] theorem regRead_setSlaveAddress (off : RegOffset) :
    (s.setSlaveAddress a).regRead b off = (s.regRead b off).setSlaveAddress a := by cases b <;> rfl

@[simp] theorem deliver_setSlaveAddress (d : Dest) (v : Byte) :
    (s.setSlaveAddress a).deliver d v = (s.deliver d v).setSlaveAddress a := by cases d <;> rfl

@[simp] theorem pollRead_setSlaveAddress : (s.setSlaveAddress a).pollRead b = (s.pollRead b).setSlaveAddress a := by
  cases b <;> rfl

@[simp] theorem resolveBus_setSlaveAddress :
    (s.setSlaveAddress a).resolveBus = s.resolveBus.setSlaveAddress a := by
  cases hs : s.activeBase <;> simp [State.resolveBus, State.setSlaveAddress, State.setActive, hs]

@[simp] theorem succeed_setSlaveAddress : (s.setSlaveAddress a).succeed = s.succeed.setSlaveAddress a := rfl

@[simp] theorem failWith_setSlaveAddress (i : Instr) (k : ErrorKind) :
    (s.setSlaveAddress a).failWith i k = (s.failWith i k).setSlaveAddress a := by cases i <;> rfl

/-- R223: the outcome of steps, with another slave address latched. -/
def withSlaveAddress (r : State × Option ErrorKind) : State × Option ErrorKind := (r.1.setSlaveAddress a, r.2)

theorem finish_withSlaveAddress (i : Instr) (r : State × Option ErrorKind) :
    State.finish i (withSlaveAddress a r) = (State.finish i r).setSlaveAddress a := by
  rcases r with ⟨t, _ | k⟩
  · exact succeed_setSlaveAddress a t
  · exact failWith_setSlaveAddress a t i k

theorem pollNotBusy_setSlaveAddress (n : Nat) :
    pollNotBusy b n (s.setSlaveAddress a) = withSlaveAddress a (pollNotBusy b n s) := by
  induction n generalizing s with
  | zero => rfl
  | succ n ih =>
    by_cases hbusy : SR.busy (s.answer b .crSr) = true
    · simp [pollNotBusy, hbusy, ih]
    · simp [pollNotBusy, hbusy, withSlaveAddress]

theorem pollComplete_setSlaveAddress (e : AckExpectation) (n : Nat) :
    pollComplete b e n (s.setSlaveAddress a) = withSlaveAddress a (pollComplete b e n s) := by
  induction n generalizing s with
  | zero => rfl
  | succ n ih =>
    by_cases hlost : SR.arbLost (s.answer b .crSr) = true
    · simp [pollComplete, hlost, withSlaveAddress]
    by_cases htip : SR.tip (s.answer b .crSr) = true
    · simp [pollComplete, hlost, htip, ih]
    · cases hj : ackJudge e (SR.rxack (s.answer b .crSr)) <;> simp [pollComplete, hlost, htip, hj, withSlaveAddress]

theorem runStep_setSlaveAddress (m : SeqStep) :
    runStep b m (s.setSlaveAddress a) = withSlaveAddress a (runStep b m s) := by
  cases m with
  | write | read => simp [runStep, withSlaveAddress]
  | awaitNotBusy n => exact pollNotBusy_setSlaveAddress a b (s.setPoll 0) n
  | awaitComplete e n => exact pollComplete_setSlaveAddress a b (s.setPoll 0) e n
  | raise k => rfl

/-- R223: no step reads the operand register that latches `slaveAddress`. -/
theorem runSteps_setSlaveAddress (l : List SeqStep) :
    runSteps b l (s.setSlaveAddress a) = withSlaveAddress a (runSteps b l s) := by
  induction l generalizing s with
  | nil => rfl
  | cons m ms ih =>
    rw [runSteps_cons, runSteps_cons, runStep_setSlaveAddress]
    rcases runStep b m s with ⟨t, _ | k⟩
    · exact ih t
    · rfl

end

/-- Settles O49: `initController` starts from the state with the other slave address latched, and carries it to the end
(`runSteps_setSlaveAddress`). -/
theorem slaveAddressIsUnused : Obligations.SlaveAddressIsUnused := by
  intro s t hz a a' hexec
  obtain ⟨hidle, hnext⟩ := exec_next hexec
  refine exec_of_execNext hidle rfl ?_
  change ExecNext _ s (t.setSlaveAddress a')
  cases hnext with
  | selected _ hi | notSelected _ hi | index _ hi | noIndex hi => cases hi
  | row _ _ _ hr => cases hr
  | badClock _ _ hi hp =>
    cases hi
    exact .badClock hz a' rfl hp
  | ran b hb hs _ hl =>
    have hstart : (s.latch (.initController hz a')).chooseBus (.initController hz a') =
        ((s.latch (.initController hz a)).chooseBus (.initController hz a)).setSlaveAddress a' :=
      resolveBus_setSlaveAddress a' (s.latch (.initController hz a))
    have hran := ExecNext.ran (i := .initController hz a') b (hstart ▸ hb) hs rfl hl
    rw [hstart, runSteps_setSlaveAddress, finish_withSlaveAddress] at hran
    exact hran

end Sys2Proof.Machine
end

section
/-! SUPPORT. The environment as the instructions meet it (spec/45_controller_environment.md): SimBlock's answers, the
requests that are answered a next state whatever the environment answers, and how many accesses they make at most. -/

namespace Sys2Proof.Machine

/-! ## SimBlock -/

section
variable {s : State} {b : BusId} {k : SimBlock} (h : (s.ctl b).env = .sim k)
include h

/-- R250: with SimBlock as its environment an instance is answered what SimBlock answers. -/
theorem answer_of_sim (off : RegOffset) : s.answer b off = (k.answer off).1 := by
  rw [State.answer, h, Environment.answer]

theorem regRead_env_of_sim (off : RegOffset) : ((s.regRead b off).ctl b).env = .sim (k.answer off).2 := by
  rw [State.regRead_ctl_same, ctlAfterRead_env, h, Environment.answer]

end

theorem simBlock_answer_status (k : SimBlock) :
    k.answer .crSr = (k.srQ.headD k.srDefault, { k with srQ := k.srQ.tail }) := by
  obtain ⟨srQ, srDefault, rxQ, rxDefault⟩ := k
  cases srQ <;> rfl

theorem simBlock_answer_receive (k : SimBlock) :
    k.answer .txrRxr = (k.rxQ.headD k.rxDefault, { k with rxQ := k.rxQ.tail }) := by
  obtain ⟨srQ, srDefault, rxQ, rxDefault⟩ := k
  cases rxQ <;> rfl

theorem simBlock_answer_other (k : SimBlock) {off : RegOffset} (hs : off ≠ .crSr) (hr : off ≠ .txrRxr) :
    k.answer off = (0x00, k) := by
  cases off with
  | crSr => exact absurd rfl hs
  | txrRxr => exact absurd rfl hr
  | prerLo | prerHi | ctr | sladr => rfl

/-- Settles O18: what SimBlock answers at each offset, and the queue left, is the instance's (`answer_of_sim`,
`regRead_env_of_sim`). -/
theorem simBlockAnswersFromItsQueues : Obligations.SimBlockAnswersFromItsQueues := by
  intro s b k h
  have hanswer (off : RegOffset) := answer_of_sim h off
  have henv (off : RegOffset) := regRead_env_of_sim h off
  refine ⟨?_, ?_, ?_, ?_, fun off hs hr => ⟨?_, ?_⟩, fun off v => ?_⟩
  · rw [hanswer, simBlock_answer_status]
  · rw [henv, simBlock_answer_status]
  · rw [hanswer, simBlock_answer_receive]
  · rw [henv, simBlock_answer_receive]
  · rw [hanswer, simBlock_answer_other k hs hr]
  · rw [henv, simBlock_answer_other k hs hr]
  · rw [State.regWrite_ctl_same, write_env, h]

/-! ## Success and the premises of the waits -/

/-- Settles O51: the operation ran its steps on the bus that is active when it ends, and steps end without a failure
exactly when their premises hold (`premises_iff`). -/
theorem okExactlyWhenThePremisesHold : Obligations.OkExactlyWhenThePremisesHold := by
  intro i s t b hvalid hsteps hexec hactive
  obtain ⟨-, hnext⟩ := exec_next hexec
  cases hnext with
  | selected _ hi | notSelected _ hi | index _ hi | noIndex hi => subst hi; exact absurd rfl hsteps
  | badClock hz a hi hp => subst hi; exact absurd (by simp [stepsOf, hp]) hsteps
  | row off v b' hr => exact absurd (stepsOf_of_row hr) hsteps
  | ran b' hb =>
    have hframe := runSteps_frame b' (stepsOf s.cfg i) ((s.latch i).chooseBus i)
    have hbase : some (baseOf s.cfg b') = some (baseOf s.cfg b) := by
      simpa [finish_activeBase, finish_cfg, hframe.activeBase, hframe.cfg, activeBus_some hb] using hactive
    obtain rfl : b' = b := (baseOf_inj hvalid).1 (Option.some.inj hbase)
    rw [finish_result_ok_iff, premises_iff]

/-! ## When a request is answered a next state -/

theorem mayActivate_of_needsBus {i : Instr} (h : needsBus i = true) : mayActivate i = false := by
  cases i with
  | selectBus | initController => cases h
  | _ => rfl

/-- R123 (e): an operation that needs a bus, its operands well formed, has register accesses to make. -/
theorem stepsOf_ne_nil {i : Instr} (p : Params) (hwf : wellFormed i = true) (hbus : needsBus i = true)
    (hrow : rowByte i = none) : stepsOf p i ≠ [] := by
  cases i with
  | selectBus | currentBus | initController => cases hbus
  | readRegister n =>
    obtain ⟨off, ho⟩ := Option.isSome_iff_exists.1 ((offsetAssigned_eq n).symm.trans hwf)
    simp [stepsOf, ho, readRegisterSteps]
  | writeRegister n v =>
    obtain ⟨off, ho⟩ := Option.isSome_iff_exists.1 ((offsetAssigned_eq n).symm.trans hwf)
    simp [stepsOf, ho, writeRegisterSteps]
  | awaitTransferComplete e n =>
    obtain ⟨e', he⟩ := Option.isSome_iff_exists.1 ((ack_ne_three_eq e).symm.trans hwf)
    simp [stepsOf, he]
  | readBlock | writeBlock | probe | sendByte | sendStop | awaitBusNotBusy | readByte | resetBus | startAddressed
  | addressWithOffset => exact List.cons_ne_nil _ _
  | cmdWr | cmdWrStart | cmdWrStop | cmdWrStartStop | cmdRd | cmdRdLast | cmdStop | cmdResetRd | cmdIack | addrW
  | addrR | ctrDisable | ctrEnable => cases hrow

/-- R220: `initController` always finds an instance to run on. -/
theorem resolveBus_activeBus {s : State} (h : SelectorOk s) : ∃ b, s.resolveBus.activeBus = some (some b) := by
  cases hs : s.activeBase with
  | none =>
    have hactive := State.resolveBus_unset s hs
    refine (selectorOk_of_activeBase (b := defaultBus) ?_).activeBus (by simp [hactive])
    rw [hactive, State.resolveBus_cfg]
  | some a =>
    rw [State.resolveBus_set s hs]
    exact h.activeBus (by simp [hs])

section
variable {i : Instr} {s s' : State}

/-- R123: a legal request, its conditions one by one. -/
theorem not_illegal_iff : ¬ Illegal i s ↔
    s.phase = .idle ∧ OperandsOk i s.cfg ∧ (needsBus i = true → s.activeBase ≠ none) := by
  simp [Illegal, OperandsOk, and_assoc]

/-- R123, R142: what is not refused has one of the shapes of an answer, as `ACTIVE_BASE` is unset or an instance's. -/
theorem execNext_of_legal (hsel : SelectorOk s) (hlegal : ¬ Illegal i s) : ∃ t, ExecNext i s t := by
  obtain ⟨-, ⟨hwf, hlen⟩, hactive⟩ := not_illegal_iff.1 hlegal
  cases hbus : needsBus i with
  | true =>
    obtain ⟨b, hb⟩ := hsel.activeBus (hactive hbus)
    cases hrow : rowByte i with
    | some row => exact ⟨_, .row row.1 row.2 b hrow hb⟩
    | none =>
      have hchosen : ((s.latch i).chooseBus i).activeBus = some (some b) := by
        rw [chooseBus_of_not_mayActivate (mayActivate_of_needsBus hbus), activeBus_latch, hb]
      exact ⟨_, .ran b hchosen (stepsOf_ne_nil s.cfg hwf hbus hrow) hrow hlen⟩
  | false =>
    cases i with
    | selectBus n =>
      cases hn : busOfIndex n with
      | none => exact ⟨_, .notSelected n rfl (busOfIndex_eq_none.1 hn)⟩
      | some b => exact ⟨_, .selected b (by rw [busOfIndex_eq_some.1 hn])⟩
    | currentBus =>
      by_cases hb : ∃ b, s.activeBus = some (some b)
      · obtain ⟨b, hb⟩ := hb
        exact ⟨_, .index b rfl hb⟩
      · exact ⟨_, .noIndex rfl (not_exists.1 hb)⟩
    | initController hz a =>
      cases hp : prescaler s.cfg.inputClockHz hz with
      | none => exact ⟨_, .badClock hz a rfl hp⟩
      | some prer =>
        have hlatched : SelectorOk (s.latch (.initController hz a)) := hsel.congr (by simp) (by simp)
        obtain ⟨b, hb⟩ := resolveBus_activeBus hlatched
        exact ⟨_, .ran b hb (by simp [stepsOf, hp, initSteps]) rfl hlen⟩
    | _ => cases hbus

theorem chooseBus_activeBus_congr (i : Instr) (hcfg : s'.cfg = s.cfg) (hactive : s'.activeBase = s.activeBase) :
    (s'.chooseBus i).activeBus = (s.chooseBus i).activeBus := by
  cases i with
  | initController =>
    cases hs : s.activeBase <;> simp [State.chooseBus, State.resolveBus, State.activeBus, hactive, hs, hcfg]
  | _ => simp [State.chooseBus, State.activeBus, hactive, hcfg]

/-- R241: which shape an answer has rests on the parameters, `PHASE` and `ACTIVE_BASE` alone. -/
theorem exec_next_congr (hcfg : s'.cfg = s.cfg) (hphase : s'.phase = s.phase) (hactive : s'.activeBase = s.activeBase)
    (h : ∃ t, exec i s = .next t) : ∃ t, exec i s' = .next t := by
  obtain ⟨t, hexec⟩ := h
  obtain ⟨hidle, hnext⟩ := exec_next hexec
  have answer {u : State} (hu : ExecNext i s' u) : ∃ t, exec i s' = .next t :=
    ⟨u, exec_of_execNext (hphase.trans hidle) (wellFormed_of_exec_next hexec) hu⟩
  have hbus : s'.activeBus = s.activeBus := by simp [State.activeBus, hactive, hcfg]
  cases hnext with
  | selected b hi => exact answer (.selected b hi)
  | notSelected n hi hn => exact answer (.notSelected n hi hn)
  | index b hi hb => exact answer (.index b hi (hbus.trans hb))
  | noIndex hi hb => exact answer (.noIndex hi fun b => hbus ▸ hb b)
  | badClock hz a hi hp => exact answer (.badClock hz a hi (by rw [hcfg, hp]))
  | row off v b hr hb => exact answer (.row off v b hr (hbus.trans hb))
  | ran b hb hs hr hl =>
    have hchosen := chooseBus_activeBus_congr (s := s.latch i) (s' := s'.latch i) i (by simp [hcfg]) (by simp [hactive])
    exact answer (.ran b (hchosen.trans hb) (by rwa [hcfg]) hr (by rwa [hcfg]))

end

/-- R21, R241: an instruction only adds to the trace. -/
theorem exec_history_prefix {i : Instr} {s t : State} (h : exec i s = .next t) : s.history <+: t.history := by
  obtain ⟨l, hhist, -⟩ := exec_accesses_activeBase h
  exact ⟨l, hhist.symm⟩

/-- Settles O23: a legal request has an answer (`execNext_of_legal`), and every answer keeps the parameters and leaves
`PHASE` idle. -/
theorem legalRequestsRunToIdle : Obligations.LegalRequestsRunToIdle := by
  intro i s hsel hlegal
  obtain ⟨t, hnext⟩ := execNext_of_legal hsel hlegal
  obtain ⟨hidle, ⟨hwf, -⟩, -⟩ := not_illegal_iff.1 hlegal
  have hexec := exec_of_execNext hidle hwf hnext
  obtain ⟨hcfg, -, hphase, -⟩ := frameOfTheSequencerRegisters i s t hexec
  exact ⟨t, hexec, hphase.trans hidle, hcfg, exec_history_prefix hexec⟩

theorem safe_iff_exists_next {o : Host.Outcome State Fault Refusal} : Safe o ↔ ∃ t, o = .next t := by
  cases o <;> simp [Safe, nextState]

/-- Settles O25: the two states have the same parameters, `PHASE` and `ACTIVE_BASE` (`exec_next_congr`). -/
theorem nextStateExistsWhateverTheEnvironment : Obligations.NextStateExistsWhateverTheEnvironment := by
  intro i s e0 e1 l
  rw [safe_iff_exists_next, safe_iff_exists_next]
  exact ⟨exec_next_congr rfl rfl rfl, exec_next_congr rfl rfl rfl⟩

end Sys2Proof.Machine
end

section
/-! SUPPORT. The bounds on the accesses of an operation (spec/45_controller_environment.md R242), from the bounds on its
steps. -/

namespace Sys2Proof.Machine

/-! ## The bound on a step -/

/-- R150, R151, R162, R163: how many accesses one step makes at most; a transfer-complete wait that judges the
acknowledge has its one stop beside the status reads. -/
def stepBound : SeqStep → Nat
  | .write _ _ => 1
  | .read _ _ => 1
  | .awaitNotBusy n => n
  | .awaitComplete .dontCare n => n
  | .awaitComplete _ n => n + 1
  | .raise _ => 0

/-- How many accesses steps make at most. -/
def stepsBound (l : List SeqStep) : Nat := (l.map stepBound).sum

@[simp] theorem stepsBound_nil : stepsBound [] = 0 := rfl

@[simp] theorem stepsBound_cons (m : SeqStep) (l : List SeqStep) : stepsBound (m :: l) = stepBound m + stepsBound l :=
  List.sum_cons

@[simp] theorem stepsBound_append (l m : List SeqStep) : stepsBound (l ++ m) = stepsBound l + stepsBound m := by
  simp [stepsBound]

theorem le_stepBound_awaitComplete (e : AckExpectation) (n : Nat) : n ≤ stepBound (.awaitComplete e n) := by
  cases e <;> simp [stepBound]

/-- R164: where the acknowledge can be found violated, the bound has room for the stop. -/
theorem stepBound_awaitComplete_of_violated {e : AckExpectation} {rxack : Bool} (n : Nat)
    (h : ackJudge e rxack = .violated) : stepBound (.awaitComplete e n) = n + 1 := by
  cases e with
  | dontCare => cases h
  | requireAck | requireNack => rfl

theorem afterPolls_history_length (b : BusId) (n : Nat) (s : State) :
    (afterPolls b n s).history.length = s.history.length + n := by
  rw [afterPolls_history, List.length_append, statusReads_length]

theorem runStep_history_length (b : BusId) (m : SeqStep) (s : State) :
    (runStep b m s).1.history.length ≤ s.history.length + stepBound m := by
  have polls (n : Nat) : (afterPolls b n (s.setPoll 0)).history.length = s.history.length + n :=
    afterPolls_history_length b n (s.setPoll 0)
  cases m with
  | write off v => simp [runStep, stepBound]
  | read off d => simp [runStep, stepBound]
  | raise k => exact Nat.le_add_right _ _
  | awaitNotBusy n =>
    rcases pollNotBusy_cases b n (s.setPoll 0) with ⟨k, hk, -, he⟩ | ⟨-, he⟩ <;> rw [runStep, he, polls]
    · exact Nat.add_le_add_left hk _
    · exact le_rfl
  | awaitComplete e n =>
    have hbound := le_stepBound_awaitComplete e n
    rcases pollComplete_cases b e n (s.setPoll 0) with ⟨k, hk, -, he⟩ | ⟨k, hk, -, -, he⟩ | ⟨k, hk, -, hj, he⟩ |
      ⟨-, he⟩ <;> rw [runStep, he]
    · rw [polls]
      omega
    · rw [polls]
      omega
    · rw [State.regWrite_history, List.length_append, polls, stepBound_awaitComplete_of_violated n hj,
        List.length_singleton]
      omega
    · rw [polls]
      omega

/-- R242, R271: steps make at most the sum of their bounds, fewer when one of them fails. -/
theorem runSteps_history_length (b : BusId) (l : List SeqStep) (s : State) :
    (runSteps b l s).1.history.length ≤ s.history.length + stepsBound l := by
  induction l generalizing s with
  | nil => exact le_rfl
  | cons m ms ih =>
    have hstep := runStep_history_length b m s
    rw [stepsBound_cons, ← Nat.add_assoc]
    rcases h : runStep b m s with ⟨t, _ | k⟩ <;> rw [h] at hstep
    · rw [runSteps_cons_ok _ h]
      exact (ih t).trans (Nat.add_le_add_right hstep _)
    · rw [runSteps_cons_err _ h]
      exact hstep.trans (Nat.le_add_right _ _)

/-! ## The bound on an operation -/

theorem stepsBound_sendAcked (p : Params) (v : Byte) (start stop : Bool) :
    stepsBound (sendAckedSteps p v start stop) = p.budgetXfer + 3 := by
  simp +arith [sendAckedSteps, sendByteSteps, stepBound]

theorem stepsBound_bodyBytes (p : Params) (bs : List Byte) :
    stepsBound (bodyBytesSteps p bs) = bs.length * (p.budgetXfer + 3) := by
  induction bs with
  | nil => simp [bodyBytesSteps]
  | cons v bs ih =>
    rw [bodyBytesSteps, stepsBound_append, stepsBound_sendAcked, ih, List.length_cons, Nat.succ_mul, Nat.add_comm]

theorem stepsBound_payload (p : Params) (bs : List Byte) :
    stepsBound (payloadSteps p bs) = bs.length * (p.budgetXfer + 3) := by
  induction bs with
  | nil => simp [payloadSteps]
  | cons v bs ih =>
    rw [payloadSteps, stepsBound_append, stepsBound_sendAcked, ih, List.length_cons, Nat.succ_mul, Nat.add_comm]

theorem stepsBound_readByte (p : Params) (stop : Bool) (dest : Dest) :
    stepsBound (readByteSteps p stop dest) = p.budgetXfer + 2 := by
  simp +arith [readByteSteps, stepBound]

theorem stepsBound_dataRead (p : Params) (m : Nat) : stepsBound (dataReadSteps p m) = m * (p.budgetXfer + 2) := by
  induction m with
  | zero => simp [dataReadSteps]
  | succ m ih => rw [dataReadSteps, stepsBound_append, stepsBound_readByte, ih, Nat.succ_mul, Nat.add_comm]

/-- R191: how many address bytes an address phase sends; a read has the repeated start. -/
def addressBytes : Direction → Nat
  | .write => 1
  | .read => 2

theorem stepsBound_addressPhase (p : Params) (c : BitVec 7) (r : BitVec 32) (n : Nat) (d : Direction) :
    stepsBound (addressWithOffsetSteps p c r n d) =
      (n + addressBytes d) * (p.budgetXfer + 3) := by
  have hsent : stepsBound (startAddressedSteps p c .write ++ bodyBytesSteps p (regAddrBytes r n)) =
      (n + 1) * (p.budgetXfer + 3) := by
    rw [stepsBound_append, startAddressedSteps, stepsBound_sendAcked, stepsBound_bodyBytes, regAddrBytes_length,
      Nat.succ_mul, Nat.add_comm]
  cases d with
  | read =>
    rw [addressWithOffsetSteps, stepsBound_append, hsent, startAddressedSteps, stepsBound_sendAcked, ← Nat.succ_mul]
    rfl
  | write => rw [addressWithOffsetSteps, stepsBound_append, hsent, stepsBound_nil, Nat.add_zero, addressBytes]

theorem stepsBound_resetBus (p : Params) : stepsBound (resetBusSteps p) = p.budgetBusy + 2 := by
  simp +arith [resetBusSteps, sendStopSteps, stepBound]

theorem stepsBound_readBlock (p : Params) (c : BitVec 7) (r : BitVec 32) (n m : Nat) :
    stepsBound (readBlockSteps p c r n m) =
      p.budgetBusy + (n + 2) * (p.budgetXfer + 3) + m * (p.budgetXfer + 2) := by
  simp [readBlockSteps, stepBound, stepsBound_addressPhase, addressBytes, stepsBound_dataRead, Nat.add_assoc]

theorem stepsBound_writeBlock (p : Params) (c : BitVec 7) (r : BitVec 32) (n : Nat) (bs : List Byte) :
    stepsBound (writeBlockSteps p c r n bs) = p.budgetBusy + (n + 1 + bs.length) * (p.budgetXfer + 3) := by
  simp [writeBlockSteps, stepBound, stepsBound_addressPhase, addressBytes, stepsBound_payload, Nat.add_mul,
    Nat.add_assoc]

/-- R242: the bound of every operation has room for its steps. -/
theorem stepsBound_le_accessBound (p : Params) (i : Instr) : stepsBound (stepsOf p i) ≤ accessBound p i := by
  cases i with
  | initController hz a =>
    cases hp : prescaler p.inputClockHz hz with
    | none => simp [stepsOf, hp]
    | some prer => simp +arith [stepsOf, hp, initSteps, stepBound, stepsBound_resetBus, accessBound]
  | readRegister n => cases ho : offsetOf n <;> simp [stepsOf, ho, readRegisterSteps, stepBound, accessBound]
  | writeRegister n v => cases ho : offsetOf n <;> simp [stepsOf, ho, writeRegisterSteps, stepBound, accessBound]
  | awaitTransferComplete e n =>
    cases he : ackOfBits e with
    | none => simp [stepsOf, he]
    | some e' => cases e' <;> simp [stepsOf, he, stepBound, accessBound]
  | readBlock c r n m => exact (stepsBound_readBlock p c r n m).le
  | writeBlock c r n bs => exact (stepsBound_writeBlock p c r n bs).le
  | probe c =>
    rw [stepsOf, probeSteps, stepsBound_readBlock, accessBound, Nat.one_mul]
  | sendByte | sendStop | awaitBusNotBusy => exact le_rfl
  | readByte stop => exact (stepsBound_readByte p stop .outByte).le
  | resetBus => exact (stepsBound_resetBus p).le
  | startAddressed c d => exact (stepsBound_sendAcked p (addrByte c d) true false).le
  | addressWithOffset c r n d =>
    rw [stepsOf, stepsBound_addressPhase]
    refine Nat.mul_le_mul_right _ (Nat.add_le_add_left ?_ n)
    cases d <;> decide
  | selectBus | currentBus | cmdWr | cmdWrStart | cmdWrStop | cmdWrStartStop | cmdRd | cmdRdLast | cmdStop
  | cmdResetRd | cmdIack | addrW | addrR | ctrDisable | ctrEnable => exact Nat.zero_le _

theorem accessBound_of_row {i : Instr} {w : RegOffset × Byte} (p : Params) (hr : rowByte i = some w) :
    accessBound p i = 1 := by cases i <;> cases hr <;> rfl

/-- Settles O24: an operation makes at most the accesses its steps are bounded by (`runSteps_history_length`), and those
are within the bound of R242 (`stepsBound_le_accessBound`). -/
theorem accessesAreBounded : Obligations.AccessesAreBounded := by
  intro i s t hexec
  refine ⟨exec_history_prefix hexec, ?_⟩
  obtain ⟨-, hnext⟩ := exec_next hexec
  cases hnext with
  | selected | notSelected | index | noIndex | badClock => simp
  | row off v b hr => simp [accessBound_of_row s.cfg hr]
  | ran b =>
    calc (State.finish i (runSteps b (stepsOf s.cfg i) ((s.latch i).chooseBus i))).history.length
        ≤ s.history.length + stepsBound (stepsOf s.cfg i) := by
          simpa [finish_history] using runSteps_history_length b (stepsOf s.cfg i) ((s.latch i).chooseBus i)
      _ ≤ s.history.length + accessBound s.cfg i := Nat.add_le_add_left (stepsBound_le_accessBound s.cfg i) _

end Sys2Proof.Machine
end

section
/-! SUPPORT. Failures (spec/60_exceptions.md): which waits an operation holds, how a wait fails and what its trace then
ends with, and the ways an operation can end with a failure (`exec_fails`). -/

namespace Sys2Proof.Machine

/-! ## The waits an operation holds -/

/-- The operations that hold a bus-not-busy wait (R162, R166, R192 to R194, R220). -/
def mayAwaitBus : Instr → Bool
  | .awaitBusNotBusy _ | .resetBus | .initController _ _ | .readBlock _ _ _ _ | .writeBlock _ _ _ _ | .probe _ => true
  | _ => false

/-- The operations that hold a transfer-complete wait (R163, R165, R190 to R194). -/
def mayAwaitTransfer : Instr → Bool
  | .awaitTransferComplete _ _ | .readByte _ | .startAddressed _ _ | .addressWithOffset _ _ _ _
  | .readBlock _ _ _ _ | .writeBlock _ _ _ _ | .probe _ => true
  | _ => false

/-- A step that can fail only as the rules let the operation fail: a wait with the operation's budget that judges, if
anything, the operation's expectation. -/
def FailsWithin (p : Params) (i : Instr) : SeqStep → Prop
  | .write _ _ => True
  | .read _ _ => True
  | .awaitNotBusy n => mayAwaitBus i = true ∧ n = busyBudget p i
  | .awaitComplete e n =>
    mayAwaitTransfer i = true ∧ n = xferBudget p i ∧ (e = .dontCare ∨ judgedExpectation i = some e)
  | .raise _ => False

section
variable {p : Params} {i : Instr} (hsent : FailsWithin p i (.awaitComplete .requireAck p.budgetXfer))
include hsent

theorem sendAcked_failsWithin (v : Byte) (start stop : Bool) :
    ∀ m ∈ sendAckedSteps p v start stop, FailsWithin p i m :=
  List.forall_mem_append.2 ⟨by simp [sendByteSteps, FailsWithin], List.forall_mem_singleton.2 hsent⟩

theorem bodyBytes_failsWithin (bs : List Byte) : ∀ m ∈ bodyBytesSteps p bs, FailsWithin p i m := by
  induction bs with
  | nil => exact List.forall_mem_nil _
  | cons v bs ih => exact List.forall_mem_append.2 ⟨sendAcked_failsWithin hsent v false false, ih⟩

theorem payload_failsWithin (bs : List Byte) : ∀ m ∈ payloadSteps p bs, FailsWithin p i m := by
  induction bs with
  | nil => exact List.forall_mem_nil _
  | cons v bs ih => exact List.forall_mem_append.2 ⟨sendAcked_failsWithin hsent v false bs.isEmpty, ih⟩

theorem addressPhase_failsWithin (c : BitVec 7) (r : BitVec 32) (n : Nat) (d : Direction) :
    ∀ m ∈ addressWithOffsetSteps p c r n d, FailsWithin p i m := by
  have hstart := fun d => sendAcked_failsWithin hsent (addrByte c d) true false
  refine List.forall_mem_append.2 ⟨List.forall_mem_append.2 ⟨hstart .write, bodyBytes_failsWithin hsent _⟩, ?_⟩
  cases d with
  | read => exact hstart .read
  | write => exact List.forall_mem_nil _

end

section
variable {p : Params} {i : Instr} (hreceived : FailsWithin p i (.awaitComplete .dontCare p.budgetXfer))
include hreceived

theorem readByte_failsWithin (stop : Bool) (dest : Dest) : ∀ m ∈ readByteSteps p stop dest, FailsWithin p i m := by
  simpa [readByteSteps] using ⟨trivial, hreceived, trivial⟩

theorem dataRead_failsWithin (m : Nat) : ∀ x ∈ dataReadSteps p m, FailsWithin p i x := by
  induction m with
  | zero => exact List.forall_mem_nil _
  | succ m ih => exact List.forall_mem_append.2 ⟨readByte_failsWithin hreceived (m == 0) .dataBuf, ih⟩

end

theorem resetBus_failsWithin {p : Params} {i : Instr} (hwait : FailsWithin p i (.awaitNotBusy p.budgetBusy)) :
    ∀ m ∈ resetBusSteps p, FailsWithin p i m := by
  simpa [resetBusSteps, sendStopSteps] using ⟨trivial, trivial, hwait⟩

/-- R260: a step of an operation fails only as the rules let the operation fail. -/
theorem stepsOf_failsWithin (p : Params) (i : Instr) : ∀ m ∈ stepsOf p i, FailsWithin p i m := by
  cases i with
  | initController hz a =>
    cases hp : prescaler p.inputClockHz hz with
    | none => simp [stepsOf, hp]
    | some prer =>
      rw [stepsOf, hp]
      exact List.forall_mem_append.2 ⟨by simp [FailsWithin], resetBus_failsWithin ⟨rfl, rfl⟩⟩
  | readRegister n => cases ho : offsetOf n <;> simp [stepsOf, ho, readRegisterSteps, FailsWithin]
  | writeRegister n v => cases ho : offsetOf n <;> simp [stepsOf, ho, writeRegisterSteps, FailsWithin]
  | sendByte v start stop => simp [stepsOf, sendByteSteps, FailsWithin]
  | sendStop => simp [stepsOf, sendStopSteps, FailsWithin]
  | awaitBusNotBusy n => exact List.forall_mem_singleton.2 ⟨rfl, rfl⟩
  | awaitTransferComplete bits n =>
    cases hbits : ackOfBits bits with
    | none => simp [stepsOf, hbits]
    | some e =>
      rw [stepsOf, hbits]
      exact List.forall_mem_singleton.2 ⟨rfl, rfl, .inr hbits⟩
  | readByte stop => exact readByte_failsWithin ⟨rfl, rfl, .inl rfl⟩ stop .outByte
  | resetBus => exact resetBus_failsWithin ⟨rfl, rfl⟩
  | startAddressed c d => exact sendAcked_failsWithin ⟨rfl, rfl, .inr rfl⟩ (addrByte c d) true false
  | addressWithOffset c r n d => exact addressPhase_failsWithin ⟨rfl, rfl, .inr rfl⟩ c r n d
  | readBlock c r n m =>
    exact List.forall_mem_append.2 ⟨List.forall_mem_cons.2
      ⟨⟨rfl, rfl⟩, addressPhase_failsWithin ⟨rfl, rfl, .inr rfl⟩ c r n .read⟩,
      dataRead_failsWithin ⟨rfl, rfl, .inl rfl⟩ m⟩
  | writeBlock c r n bs =>
    exact List.forall_mem_append.2 ⟨List.forall_mem_cons.2
      ⟨⟨rfl, rfl⟩, addressPhase_failsWithin ⟨rfl, rfl, .inr rfl⟩ c r n .write⟩,
      payload_failsWithin ⟨rfl, rfl, .inr rfl⟩ bs⟩
  | probe c =>
    exact List.forall_mem_append.2 ⟨List.forall_mem_cons.2
      ⟨⟨rfl, rfl⟩, addressPhase_failsWithin ⟨rfl, rfl, .inr rfl⟩ c 0 1 .read⟩,
      dataRead_failsWithin ⟨rfl, rfl, .inl rfl⟩ 1⟩
  | selectBus | currentBus | cmdWr | cmdWrStart | cmdWrStop | cmdWrStartStop | cmdRd | cmdRdLast | cmdStop
  | cmdResetRd | cmdIack | addrW | addrR | ctrDisable | ctrEnable => exact List.forall_mem_nil _

/-- R164: an expectation that can be found violated is the operation's own, as DontCare never is. -/
theorem judgedExpectation_of_violated {p : Params} {i : Instr} {e : AckExpectation} {n : Nat} {rxack : Bool}
    (hm : FailsWithin p i (.awaitComplete e n)) (hjudged : ackJudge e rxack = .violated) :
    judgedExpectation i = some e := by
  obtain ⟨-, -, rfl | he⟩ := hm
  · cases hjudged
  · exact he

/-! ## The operations that can fail so -/

section
variable {i : Instr}

theorem mayAwaitBus_cases (h : mayAwaitBus i = true) :
    (∃ n, i = .awaitBusNotBusy n) ∨ i = .resetBus ∨ (∃ hz a, i = .initController hz a) ∨ mayBuffer i = true := by
  cases i with
  | awaitBusNotBusy | resetBus | initController | readBlock | writeBlock | probe => simp [mayBuffer]
  | _ => cases h

theorem mayAwaitTransfer_cases (h : mayAwaitTransfer i = true) :
    (∃ e n, i = .awaitTransferComplete e n) ∨ (∃ stop, i = .readByte stop) ∨ (∃ c d, i = .startAddressed c d) ∨
      (∃ c r n d, i = .addressWithOffset c r n d) ∨ mayBuffer i = true := by
  cases i with
  | awaitTransferComplete | readByte | startAddressed | addressWithOffset | readBlock | writeBlock | probe =>
    simp [mayBuffer]
  | _ => cases h

theorem judgedExpectation_cases {e : AckExpectation} (h : judgedExpectation i = some e) :
    (∃ bits n, i = .awaitTransferComplete bits n) ∨ (∃ c d, i = .startAddressed c d) ∨
      (∃ c r n d, i = .addressWithOffset c r n d) ∨ mayBuffer i = true := by
  cases i with
  | awaitTransferComplete | startAddressed | addressWithOffset | readBlock | writeBlock | probe => simp [mayBuffer]
  | _ => cases h

end

/-! ## How a step fails -/

/-- The ways a step begun in `u` on instance `b` fails: with which kind, and in which state (R162, R163, R272). -/
inductive StepFails (b : BusId) (u : State) : SeqStep → ErrorKind → State → Prop where
  | busy (n : Nat) (hbusy : StillBusy b n u) :
      StepFails b u (.awaitNotBusy n) .busy (afterPolls b n (u.setPoll 0))
  | timeout (e : AckExpectation) (n : Nat) (hstill : StillTransferring b n u) :
      StepFails b u (.awaitComplete e n) .timeout (afterPolls b n (u.setPoll 0))
  | arbitrationLost (e : AckExpectation) (n j : Nat) (hlost : ArbLostAt b j u) :
      StepFails b u (.awaitComplete e n) .arbitrationLost (afterPolls b (j + 1) (u.setPoll 0))
  | notAcknowledged (e : AckExpectation) (n j : Nat) (hdone : CompleteAt b j u)
      (hjudged : ackJudge e (SR.rxack (statusAnswer b j u)) = .violated) :
      StepFails b u (.awaitComplete e n) .notAcknowledged
        ((afterPolls b (j + 1) (u.setPoll 0)).regWrite b .crSr CR.sendStopCommand)
  | raise (k : ErrorKind) : StepFails b u (.raise k) k u

theorem stepFails_of_runStep {b : BusId} {m : SeqStep} {u v : State} {k : ErrorKind}
    (h : runStep b m u = (v, some k)) : StepFails b u m k v := by
  have hsame := sameAnswers_setPoll b u 0
  cases m with
  | write off v => cases h
  | read off d => cases h
  | raise k' => cases h; exact .raise k
  | awaitNotBusy n =>
    rw [runStep] at h
    rcases pollNotBusy_cases b n (u.setPoll 0) with ⟨j, -, -, he⟩ | ⟨hbusy, he⟩ <;> cases he.symm.trans h
    exact .busy n ((hsame.stillBusy n).1 hbusy)
  | awaitComplete e n =>
    rw [runStep] at h
    rcases pollComplete_cases b e n (u.setPoll 0) with ⟨j, -, hlost, he⟩ | ⟨j, -, -, -, he⟩ |
      ⟨j, -, hdone, hjudged, he⟩ | ⟨hstill, he⟩ <;> cases he.symm.trans h
    · exact .arbitrationLost e n j ((hsame.arbLostAt j).1 hlost)
    · exact .notAcknowledged e n j ((hsame.completeAt j).1 hdone) (by rwa [statusAnswer_setPoll] at hjudged)
    · exact .timeout e n ((hsame.stillTransferring n).1 hstill)

/-! ## How an operation fails -/

/-- The ways `exec i s` ends in `t` with a failure: a check before the first access (R261, R262), or a step that is
begun in some state `u` and fails in `v`, where the operation ends (R271). -/
inductive ExecFails (i : Instr) (s t : State) : ErrorKind → Prop where
  | invalidBus (hi : (∃ n, i = .selectBus n) ∨ i = .currentBus) (hhist : t.history = s.history) :
      ExecFails i s t .invalidBus
  | invalidClock (hi : ∃ hz a, i = .initController hz a) (hhist : t.history = s.history) :
      ExecFails i s t .invalidClock
  | step (b : BusId) (m : SeqStep) (u v : State) (k : ErrorKind) (hm : FailsWithin s.cfg i m)
      (hfails : StepFails b u m k v) (hprefix : s.history <+: u.history) (hhist : t.history = v.history)
      (hpoll : t.pollCnt = v.pollCnt) : ExecFails i s t k

/-- Everything `exec` can do when it ends with a failure; the byte rows set no result. -/
theorem exec_fails {i : Instr} {s t : State} {k : ErrorKind} (hrow : rowByte i = none) (hexec : exec i s = .next t)
    (hk : t.result = .err k) : ExecFails i s t k := by
  obtain ⟨-, hnext⟩ := exec_next hexec
  cases hnext with
  | selected | index => cases hk
  | row off v b hr => cases hrow.symm.trans hr
  | notSelected n hi =>
    cases (State.failWith_result ..).symm.trans hk
    exact .invalidBus (.inl ⟨n, hi⟩) (by simp)
  | noIndex hi =>
    cases (State.failWith_result ..).symm.trans hk
    exact .invalidBus (.inr hi) (by simp)
  | badClock hz a hi =>
    cases (State.failWith_result ..).symm.trans hk
    exact .invalidClock ⟨hz, a, hi⟩ (by simp)
  | ran b =>
    rcases hrun : runSteps b (stepsOf s.cfg i) ((s.latch i).chooseBus i) with ⟨v, _ | k'⟩ <;> rw [hrun] at hk
    · cases hk
    · cases (State.failWith_result ..).symm.trans hk
      obtain ⟨pre, m, post, u, hsteps, hpre, hfail⟩ := runSteps_fail hrun
      obtain ⟨l, hhist, -⟩ := (runSteps_frame b pre ((s.latch i).chooseBus i)).history
      refine .step b m u v k (stepsOf_failsWithin s.cfg i m (by simp [hsteps])) (stepFails_of_runStep hfail)
        ⟨l, ?_⟩ (by simp) (by simp)
      simpa [hpre] using hhist.symm

/-- Settles O52: the checks before the first access belong to their operations, and a step fails only as the rules let
its operation fail (`FailsWithin`). -/
theorem failureKindsOfEachOperation : Obligations.FailureKindsOfEachOperation := by
  intro i s t k hrow hexec hk
  cases exec_fails hrow hexec hk with
  | invalidBus hi => exact hi
  | invalidClock hi => exact hi
  | step b m u v k hm hfails =>
    cases hfails with
    | busy n =>
      obtain ⟨hi, -⟩ := hm
      exact mayAwaitBus_cases hi
    | timeout e n =>
      obtain ⟨hi, -⟩ := hm
      exact mayAwaitTransfer_cases hi
    | arbitrationLost e n j =>
      obtain ⟨hi, -⟩ := hm
      exact mayAwaitTransfer_cases hi
    | notAcknowledged e n j _ hjudged => exact judgedExpectation_cases (judgedExpectation_of_violated hm hjudged)
    | raise => exact hm.elim

/-! ## The trace of a failing wait -/

/-- The values of `n` successive status reads, oldest first (R167). -/
def statusValues (b : BusId) (n : Nat) (s : State) : List Byte := (List.range n).map fun j => statusAnswer b j s

@[simp] theorem statusValues_length (b : BusId) (n : Nat) (s : State) : (statusValues b n s).length = n := by
  simp [statusValues]

theorem forall_mem_statusValues {b : BusId} {n : Nat} {s : State} {P : Byte → Prop} :
    (∀ v ∈ statusValues b n s, P v) ↔ ∀ j < n, P (statusAnswer b j s) := by simp [statusValues]

theorem statusReads_eq_map (b : BusId) (n : Nat) (s : State) :
    statusReads b n s = (statusValues b n s).map (.read (baseOf s.cfg b) .crSr) := by
  induction n generalizing s with
  | zero => rfl
  | succ n ih =>
    rw [statusReads, ih, statusValues, statusValues, List.range_succ_eq_map]
    simp [statusAnswer]

theorem statusReads_succ (b : BusId) (n : Nat) (s : State) :
    statusReads b (n + 1) s = statusReads b n s ++ [.read (baseOf s.cfg b) .crSr (statusAnswer b n s)] := by
  simp [statusReads_eq_map, statusValues, List.range_succ]

/-- Settles O50: the failing step is a wait begun in some state `u` after the accesses `l` (`exec_fails`); what it adds
to them are its status reads, and the stop of `NotAcknowledged`. -/
theorem failuresEndTheTraceTheyExplain : Obligations.FailuresEndTheTraceTheyExplain := by
  intro i s t k hrow hexec hk
  cases exec_fails hrow hexec hk with
  | invalidBus _ hhist => exact ⟨[], 0, by simp [hhist], rfl⟩
  | invalidClock _ hhist => exact ⟨[], 0, by simp [hhist], rfl⟩
  | step b m u v k hm hfails hprefix hhist hpoll =>
    obtain ⟨l, hl⟩ := hprefix
    have hpolls (n : Nat) : (afterPolls b n (u.setPoll 0)).history = s.history ++ (l ++ statusReads b n u) := by
      rw [(SameAnswers.refl b u).afterPolls_history, ← hl, List.append_assoc]
    have hcount (n : Nat) : (afterPolls b n (u.setPoll 0)).pollCnt = (statusValues b n u).length := by
      simp [afterPolls_pollCnt]
    cases hfails with
    | busy n hbusy =>
      obtain ⟨-, hn⟩ := hm
      exact ⟨l ++ statusReads b n u, baseOf u.cfg b, hhist.trans (hpolls n), l, statusValues b n u,
        by rw [statusReads_eq_map], by simp [hn], hpoll.trans (hcount n), forall_mem_statusValues.2 hbusy⟩
    | timeout e n hstill =>
      obtain ⟨-, hn, -⟩ := hm
      exact ⟨l ++ statusReads b n u, baseOf u.cfg b, hhist.trans (hpolls n), l, statusValues b n u,
        by rw [statusReads_eq_map], by simp [hn], hpoll.trans (hcount n), forall_mem_statusValues.2 hstill⟩
    | arbitrationLost e n j hlost =>
      obtain ⟨-, hlost⟩ := hlost
      exact ⟨l ++ statusReads b (j + 1) u, baseOf u.cfg b, hhist.trans (hpolls _), l ++ statusReads b j u,
        statusAnswer b j u, by rw [statusReads_succ, List.append_assoc], hlost⟩
    | notAcknowledged e n j hdone hjudged =>
      obtain ⟨-, hkept, hclear⟩ := hdone
      refine ⟨l ++ statusReads b (j + 1) u ++ [.write (baseOf u.cfg b) .crSr 0x41], baseOf u.cfg b, ?_,
        l ++ statusReads b j u, statusAnswer b j u, by simp [statusReads_succ], hkept, hclear, e,
        judgedExpectation_of_violated hm hjudged, hjudged⟩
      rw [hhist, State.regWrite_history, hpolls, (SameAnswers.refl b u).afterPolls_cfg, List.append_assoc]
      rfl
    | raise => exact hm.elim

end Sys2Proof.Machine
end

section
/-! SUPPORT. Between operations and without data (spec/70_reset_and_hazards.md): the sequencer that waits or refuses
a word (R290), and the block transactions whose address phase is all they ask of the bus (R302). -/

namespace Sys2Proof.Machine

/-! ## A step between operations -/

theorem fetch_eq_none {s : State} (hreq : s.requests = []) : fetch s = none := by
  simp [fetch, hreq]

theorem fetch_eq_some {s : State} {w : Encoded} {rest : List Encoded} (hreq : s.requests = w :: rest) :
    fetch s = some (w, { s with requests := rest }) := by
  simp [fetch, hreq]

theorem step_eq_serve {s : State} (hidle : s.phase = .idle) : step s = serve exec s := by
  simp [step, hidle]

/-- Settles O4: nothing is fetched from an empty queue, and what is fetched is decoded before anything runs. -/
theorem stepWaitsAndRefusesNonRows : Obligations.StepWaitsAndRefusesNonRows := by
  refine ⟨fun s hidle hreq => ?_, fun s w rest e hidle hreq hdec => ?_⟩
  · simp [step_eq_serve hidle, serve, fetch_eq_none hreq]
  · simp [step_eq_serve hidle, serve, fetch_eq_some hreq, hdec]

/-! ## Blocks without data bytes -/

theorem operationWrites_readBlock_zero (p : Params) (c : BitVec 7) (r : BitVec 32) (n : Nat) :
    operationWrites p (.readBlock c r n 0) = addressWrites c r n .read := by
  simp [operationWrites]

theorem operationWrites_writeBlock_nil (p : Params) (c : BitVec 7) (r : BitVec 32) (n : Nat) :
    operationWrites p (.writeBlock c r n []) = addressWrites c r n .write := by
  simp [operationWrites, payloadWrites]

/-- Settles O46: the address phase is all such an operation writes, and it asks for starts and bytes only. -/
theorem zeroLengthBlocksAskNoStop : Obligations.ZeroLengthBlocksAskNoStop := by
  rintro s t c r n i txr (rfl | rfl) hexec hok
  · have hasks := Asks.addressRead c r n
    rw [← operationWrites_readBlock_zero s.cfg] at hasks
    simp [wireItems_of_asks rfl hexec hok hasks]
  · have hasks := Asks.addressWrite c r n
    rw [← operationWrites_writeBlock_nil s.cfg] at hasks
    simp [wireItems_of_asks rfl hexec hok hasks]

end Sys2Proof.Machine
end
